-- ==== Sys2Proof/Word.lean ====
section
/-! DEFINITION. The word types of PASSENDE-CORE (00_scope.md R8, R10, R11). -/

namespace Sys2Proof

/-- A command word `cmd[7:0]` (30_encoding.md R80). -/
abbrev CmdWord := BitVec 8

/-- A character, `CHAR_W` = 8 bits, an ASCII code (00_scope.md R8, R11). -/
abbrev Chr := BitVec 8

/-- The raw value of one symbol, `SYM_BITS` = 5 bits (00_scope.md R8). -/
abbrev SymVal := BitVec 5

/-- A 32-bit register: the running check and the check-bit latch (`CRC_W`), the check-bit counter and
the count operand (`CNT_W`) (00_scope.md R8). -/
abbrev Word32 := BitVec 32

end Sys2Proof
end

