-- ==== Sys2Proof/Config.lean ====
section
/-! DEFINITION. What an implementation fixes (00_scope.md R8) and the free values: the opaque constants stand for
what the spec leaves unspecified (93_implementation_defined.md U1, U3, U5), so that nothing can be proved of them. -/

namespace Sys2Proof

/-- The open implementation parameters of 00_scope.md R8. They stand in `State.par`, no step writes them, and
statements hold for every value of them (log 1). -/
structure Params where
  /-- `INT_W`: width of the integers of `write_int` and `read_int` (R8: any `INT_W ≥ 1`). -/
  intW : Nat
  /-- `MLEN_W`: width of a mask length. -/
  mlenW : Nat
  /-- `CLEN_W`: width of the code length. -/
  clenW : Nat
deriving DecidableEq, Repr

/-- The values R8 suggests: `INT_W` 32, `MLEN_W` 16, `CLEN_W` 16. DESIGN CHOICE (log 1). -/
def Params.suggested : Params := { intW := 32, mlenW := 16, clenW := 16 }

/-- `MASK_MAX = 2^MLEN_W − 1` (00_scope.md R8). -/
def Params.maskMax (p : Params) : Nat := 2 ^ p.mlenW - 1

/-- `CODE_MAX = 2^CLEN_W − 1` (00_scope.md R8). -/
def Params.codeMax (p : Params) : Nat := 2 ^ p.clenW - 1

/-- `T4`, the stage-1 table entry of the character '4', withheld by the source and without observable effect
(40_primitives.md R108, 93_implementation_defined.md U3; log 13). -/
opaque Config.t4 : Option SymVal

/-- What an `EMASK` cell that the host has not written since hardware reset number `epoch` holds, by epoch and
address (unspecified: 93_implementation_defined.md U5; log 8). -/
opaque Config.emaskUnwritten : Nat → Nat → Bool

/-- The same for `DMASK` (93_implementation_defined.md U5; log 8). -/
opaque Config.dmaskUnwritten : Nat → Nat → Bool

/-- The same for `DCODE` (93_implementation_defined.md U5; log 8). -/
opaque Config.dcodeUnwritten : Nat → Nat → Chr

/-- What `rsp_bit` holds in response number `n` when the command does not produce it
(93_implementation_defined.md U1; log 7). -/
opaque Config.rspBitFree : Nat → Bool

/-- The same for `rsp_int` (93_implementation_defined.md U1; log 7). -/
opaque Config.rspIntFree : Nat → Nat

/-- The same for `rsp_cnt` (93_implementation_defined.md U1; log 7). -/
opaque Config.rspCntFree : Nat → Word32

/-- The same for `rsp_status` (93_implementation_defined.md U1; log 7). -/
opaque Config.rspStatusFree : Nat → BitVec 3

end Sys2Proof
end

