-- ==== Sys2Proof/Syntax.lean ====
section
/-! DEFINITION. The commands of the block (30_encoding.md R85, opcode_table.json), the operand ports, and the
transactions a host can make. -/

namespace Sys2Proof

/-- The 15 commands, one constructor per row of the opcode table (30_encoding.md R85). The field `b` is `cmd[4]`
of format B, the field `s` is `cmd[5]` of format I; the operand ports are not part of the command word (R83). -/
inductive Instr where
  /-- `E.INIT`, format N: construct the encoder (70_reset_and_hazards.md R251). -/
  | eInit
  /-- `E.WBIT b`, format B: write one data bit (41_encoder.md R140). -/
  | eWbit (b : Bool)
  /-- `E.WINT.U` (`s` = 0), `E.WINT.S` (`s` = 1), format I: write a range-bounded integer (41_encoder.md R142). -/
  | eWint (s : Bool)
  /-- `E.WCHK`, format N: write one check bit (41_encoder.md R146). -/
  | eWchk
  /-- `E.WCHKN`, format N: write `op_n` check bits (41_encoder.md R148). -/
  | eWchkn
  /-- `E.RESULT`, format N: finalise and return the digit string (41_encoder.md R150). -/
  | eResult
  /-- `E.NCHK`, format N: read the check-bit counter (41_encoder.md R154). -/
  | eNchk
  /-- `D.INIT`, format N: construct the decoder (70_reset_and_hazards.md R252). -/
  | dInit
  /-- `D.RBIT`, format N: read one data bit (42_decoder.md R172). -/
  | dRbit
  /-- `D.RINT.U` (`s` = 0), `D.RINT.S` (`s` = 1), format I: read a range-bounded integer (42_decoder.md R174). -/
  | dRint (s : Bool)
  /-- `D.RCHK`, format N: verify one check bit (42_decoder.md R180). -/
  | dRchk
  /-- `D.RCHKN`, format N: verify `op_n` check bits (42_decoder.md R182). -/
  | dRchkn
  /-- `D.FINISH`, format N: verify padding and end of input (42_decoder.md R184). -/
  | dFinish
  /-- `D.C2B`, format N: decode the staged code into bits (43_code_to_bits.md R210). -/
  | dC2b
  /-- `D.AC2B`, format N: decode a trusted code, halt on error (43_code_to_bits.md R213). -/
  | dAc2b
deriving DecidableEq, Repr

/-- The operand ports (30_encoding.md R83). `opMin`, `opMax`, `opVal` are bit patterns of `INT_W` bits, a width
that the implementation chooses, so they are held as numbers (log 15). -/
structure Ports where
  opMin : Nat
  opMax : Nat
  opVal : Nat
  opN : Word32
deriving DecidableEq, Repr

/-- What the host presents with `cmd_valid = 1`: a command word and the operand ports (30_encoding.md R81). -/
structure Command where
  word : CmdWord
  ports : Ports
deriving DecidableEq, Repr

/-- The two units (00_scope.md R18). -/
inductive Side where
  | enc
  | dec
deriving DecidableEq, Repr

/-- A host write: of a register by its number, which is staging or ignored (10_state.md R40), or of a staging cell
(20_memory.md R60). -/
inductive StagingWrite where
  /-- Register number, data. -/
  | reg (num : Nat) (data : Nat)
  /-- One cell of `EMASK` (`enc`) or `DMASK` (`dec`). -/
  | mask (u : Side) (addr : Nat) (bit : Bool)
  /-- One cell of `DCODE`. -/
  | code (addr : Nat) (c : Chr)
deriving DecidableEq, Repr

/-- One transaction of the host (log 2). -/
inductive HostOp where
  /-- Presents a command and its ports until the block accepts it (30_encoding.md R81). -/
  | command (c : Command)
  /-- Presents a command and makes a host write between its acceptance and its response (20_memory.md R72). -/
  | overlapped (c : Command) (w : StagingWrite)
  /-- Takes the response that is pending, if one is (30_encoding.md R81; log 4). -/
  | takeRsp
  /-- A staging write at any other time (10_state.md R40, R42). -/
  | write (w : StagingWrite)
  /-- Reads a register by its number (10_state.md R40, R43). -/
  | readReg (num : Nat)
  /-- Reads one cell of `EMASK` (`enc`) or `DMASK` (`dec`) (20_memory.md R60). -/
  | readMask (u : Side) (addr : Nat)
  /-- Reads one cell of `DCODE` (20_memory.md R60). -/
  | readCode (addr : Nat)
  /-- Asserts hardware reset (70_reset_and_hazards.md R253). -/
  | hardReset
deriving DecidableEq, Repr

end Sys2Proof
end

