-- ==== Sys2Proof/Machine/State.lean ====
section
/-! DEFINITION. The state of PASSENDE-CORE as plain data (10_state.md R20), the reasons a step can stop, and the state
after reset (10_state.md R46). -/

namespace Sys2Proof.Machine

/-- The sticky status of DEC: six values, codes in 60_exceptions.md R220. The codes 6 and 7 are never produced and
have no constructor (93_implementation_defined.md U8). -/
inductive Status where
  /-- The initial value. -/
  | okay
  /-- "unmappable input character" -/
  | badDigit
  /-- "check-bit mismatch, or a nonzero pad bit when pad-content is zero-fill" -/
  | badCheckBit
  /-- "input exhausted before an expected bit/symbol" -/
  | tooShort
  /-- "non-separator trailing characters after finalization" -/
  | tooLong
  /-- "decoded integer raw value exceeds its declared range" -/
  | outOfRange
deriving DecidableEq, Repr

/-- `rsp_kind` (30_encoding.md R84). The code 3 is never produced and has no constructor
(93_implementation_defined.md U2). -/
inductive RspKind where
  /-- The command was executed. -/
  | done
  /-- The word is illegal (30_encoding.md R86). -/
  | illegal
  /-- `FATAL = 1` (30_encoding.md R87). -/
  | halted
deriving DecidableEq, Repr

/-- A response (30_encoding.md R84). A field the executed command does not produce is `none`: it holds an unspecified
value, and what the host samples there is free (`Sys2Proof.Machine.State.pinBit` and its fellows; log 7). -/
structure Response where
  kind : RspKind
  /-- `rsp_bit`, result of `D.RBIT`. -/
  bit : Option Bool
  /-- `rsp_int`, result of `D.RINT`, a pattern of `INT_W` bits. -/
  int : Option Nat
  /-- `rsp_cnt`, result of `E.NCHK`. -/
  cnt : Option Word32
  /-- `rsp_status`, result of `D.FINISH`, `D.C2B`, `D.AC2B`. -/
  status : Option Status
deriving DecidableEq, Repr

/-- The working registers of ENC (10_state.md R21 to R28). -/
structure Enc where
  /-- The running check (R21). -/
  crc : Word32
  /-- The check-bit latch (R22). -/
  latch : Word32
  /-- How many bits of the latch are not yet consumed, 0..32 (R22). -/
  latchRem : BitVec 6
  /-- Position in the mask, `MLEN_W` bits (R23). -/
  cursor : Nat
  /-- The wire bits of the partially filled symbol (R24). -/
  acc : BitVec 5
  /-- How many they are, 0..4 (R24). -/
  nbits : BitVec 3
  /-- Symbols still to be emitted before the current group is complete (R25). -/
  remInGroup : BitVec 7
  /-- The accumulated digit string, which is stream `EOUT` (R26, 20_memory.md R63). -/
  out : List Chr
  /-- The lifetime counter of check bits emitted (R27). -/
  checkCount : Word32
  /-- Construction parameter: the scramble mask (R28). -/
  mask : List Bool
  /-- Construction parameter: digits per group (R28). -/
  dpg : BitVec 7
  /-- Construction parameter: pad with check bits (R28). -/
  padChecks : Bool
  /-- Construction parameter: pad to a whole group (R28). -/
  padGroup : Bool
deriving DecidableEq, Repr

/-- The working registers of DEC (10_state.md R29 to R35, R38). -/
structure Dec where
  /-- The decoder's own running check (R29). -/
  crc : Word32
  /-- The check-bit latch (R30). -/
  latch : Word32
  /-- How many bits of the latch are not yet consumed, 0..32 (R30). -/
  latchRem : BitVec 6
  /-- Position in the mask, `MLEN_W` bits (R31). -/
  cursor : Nat
  /-- The current input symbol (R32). -/
  sym : SymVal
  /-- How many of its bits are not yet handed out, 0..5 (R32). -/
  bitsLeft : BitVec 3
  /-- The group countdown, in symbols consumed (R33). -/
  remInGroup : BitVec 7
  /-- Construction parameter: the input string (R34). -/
  code : List Chr
  /-- The index of the next unread character, `CLEN_W` bits (R34). -/
  pos : Nat
  /-- The sticky status (R35). -/
  status : Status
  /-- Construction parameter: the scramble mask (R38). -/
  mask : List Bool
  /-- Construction parameter: digits per group (R38). -/
  dpg : BitVec 7
  /-- Construction parameter: pad with check bits (R38). -/
  padChecks : Bool
  /-- Construction parameter: pad to a whole group (R38). -/
  padGroup : Bool
deriving DecidableEq, Repr

/-- The staging registers of ENC (10_state.md R40). -/
structure EncStaging where
  /-- `E_CFG_DPG`, `DPG_W` = 7 bits. -/
  dpg : BitVec 7
  /-- `E_CFG_ROUND`, fields in R41. -/
  round : BitVec 2
  /-- `E_CFG_MASK_LEN`, `MLEN_W` bits. -/
  maskLen : Nat
deriving DecidableEq, Repr

/-- The staging registers of DEC (10_state.md R40). -/
structure DecStaging where
  /-- `D_CFG_DPG`, `DPG_W` = 7 bits. -/
  dpg : BitVec 7
  /-- `D_CFG_ROUND`, fields in R41. -/
  round : BitVec 2
  /-- `D_CFG_MASK_LEN`, `MLEN_W` bits. -/
  maskLen : Nat
  /-- `D_CFG_CODE_LEN`, `CLEN_W` bits. -/
  codeLen : Nat
deriving DecidableEq, Repr

/-- The state of the block (10_state.md R20), of its interface (30_encoding.md R81, R83, R84), and the model's own
fields `par`, `rspNo`, `rdata`, `host`, `epoch` (logs 1, 2, 7, 8, 17). -/
structure State where
  /-- The open implementation parameters; no step writes them (log 1). -/
  par : Params
  enc : Enc
  dec : Dec
  /-- `FATAL` (10_state.md R39). -/
  fatal : Bool
  estg : EncStaging
  dstg : DecStaging
  /-- Space `EMASK`: the cells written since hardware reset (20_memory.md R60; log 8). -/
  emask : List (Nat × Bool)
  /-- Space `DMASK` (20_memory.md R60; log 8). -/
  dmask : List (Nat × Bool)
  /-- Space `DCODE` (20_memory.md R60; log 8). -/
  dcode : List Host.Cell
  /-- Stream `DBITS` (20_memory.md R64). -/
  dbits : List Bool
  /-- The operand ports as sampled when the command was accepted (30_encoding.md R83; log 6). -/
  ports : Ports
  /-- The response the host has not taken yet: `rsp_valid` is `rsp.isSome` and `cmd_ready` is `rsp.isNone`
  (30_encoding.md R81; log 4). -/
  rsp : Option Response
  /-- How many responses have been given (log 7). -/
  rspNo : Nat
  /-- The data returned by the last host bus read (log 17). -/
  rdata : Nat
  /-- The host's transactions still to come, oldest first (log 2). -/
  host : List HostOp
  /-- How many hardware resets have happened (log 8). -/
  epoch : Nat
deriving DecidableEq, Repr

/-- Why the machine stops with a fault. -/
inductive Fault where
  /-- A host bus access to a cell of `EMASK` or `DMASK` at an address outside `0 .. MASK_MAX − 1`, which 20_memory.md
  R60 does not give the space. Raised by a host transaction, never by a command. Safe (log 9). -/
  | noSuchMaskCell
  /-- The same for `DCODE` and `0 .. CODE_MAX − 1`. Safe (log 9). -/
  | noSuchCodeCell
deriving DecidableEq, Repr

/-- Why the model refuses to go on. -/
inductive Refusal where
  /-- An instruction without a meaning; raised by no arm of this model. Safe. -/
  | notModelled (mnemonic : String)
  /-- The host makes a staging write between the acceptance and the response of a construction command, whose result
  20_memory.md R72 leaves unspecified and 93_implementation_defined.md U6 treats as `refuse`. Raised by the host
  transaction `overlapped`. Safe (log 10). -/
  | stagingOverlap
deriving DecidableEq, Repr

/-- What a step or a meaning answers. -/
abbrev Result := Host.Outcome State Fault Refusal

/-- The state with another encoder. -/
def State.withEnc (s : State) (e : Enc) : State := { s with enc := e }

/-- The state with another decoder. -/
def State.withDec (s : State) (d : Dec) : State := { s with dec := d }

/-- The state with another value of `FATAL`. -/
def State.withFatal (s : State) (b : Bool) : State := { s with fatal := b }

/-- The state with other ENC staging registers. -/
def State.withEstg (s : State) (r : EncStaging) : State := { s with estg := r }

/-- The state with other DEC staging registers. -/
def State.withDstg (s : State) (r : DecStaging) : State := { s with dstg := r }

/-- The state with another content of `EMASK`. -/
def State.withEmask (s : State) (m : List (Nat × Bool)) : State := { s with emask := m }

/-- The state with another content of `DMASK`. -/
def State.withDmask (s : State) (m : List (Nat × Bool)) : State := { s with dmask := m }

/-- The state with another content of `DCODE`. -/
def State.withDcode (s : State) (m : List Host.Cell) : State := { s with dcode := m }

/-- The state with another stream `DBITS`. -/
def State.withDbits (s : State) (bs : List Bool) : State := { s with dbits := bs }

/-- The state with other values sampled from the operand ports. -/
def State.withPorts (s : State) (q : Ports) : State := { s with ports := q }

/-- The state with a response presented, counted in `rspNo` (30_encoding.md R81). -/
def State.withRsp (s : State) (r : Response) : State := { s with rsp := some r, rspNo := s.rspNo + 1 }

/-- The state after the host took the response (30_encoding.md R81). -/
def State.withoutRsp (s : State) : State := { s with rsp := none }

/-- The state with other data on the host's read bus. -/
def State.withRdata (s : State) (v : Nat) : State := { s with rdata := v }

/-- The state with another list of transactions to come. -/
def State.withHost (s : State) (h : List HostOp) : State := { s with host := h }

/-- The machine right after hardware reset (10_state.md R46, 70_reset_and_hazards.md R253), with the suggested
parameters and an idle host (logs 1, 2, 5, 6, 7, 8, 17). -/
def State.reset : State where
  par := Params.suggested
  enc :=
    { crc := 0xFFFFFFFF#32, latch := 0#32, latchRem := 0#6, cursor := 0, acc := 0#5, nbits := 0#3, remInGroup := 0#7,
      out := [], checkCount := 0#32, mask := [], dpg := 0#7, padChecks := false, padGroup := false }
  dec :=
    { crc := 0xFFFFFFFF#32, latch := 0#32, latchRem := 0#6, cursor := 0, sym := 0#5, bitsLeft := 0#3, remInGroup := 0#7,
      code := [], pos := 0, status := .okay, mask := [], dpg := 0#7, padChecks := false, padGroup := false }
  fatal := false
  estg := { dpg := 0#7, round := 0#2, maskLen := 0 }
  dstg := { dpg := 0#7, round := 0#2, maskLen := 0, codeLen := 0 }
  emask := []
  dmask := []
  dcode := []
  dbits := []
  ports := { opMin := 0, opMax := 0, opVal := 0, opN := 0#32 }
  rsp := none
  rspNo := 0
  rdata := 0
  host := []
  epoch := 0

end Sys2Proof.Machine
end

