-- ==== Sys2Proof/Machine/Codec.lean ====
section
/-! DEFINITION. The leaf functions both units share: the alphabet and the digit table (40_primitives.md R104 to R110)
and the CRC step (40_primitives.md R100 to R102). -/

namespace Sys2Proof.Machine

/-- `ALPHABET`: "ABCDEFGHIJKLMNOPQRSTUVWXYZ236789" (40_primitives.md R104, decision D9). -/
def alphabet : List Chr :=
  [0x41#8, 0x42#8, 0x43#8, 0x44#8, 0x45#8, 0x46#8, 0x47#8, 0x48#8, 0x49#8, 0x4A#8, 0x4B#8, 0x4C#8, 0x4D#8,
   0x4E#8, 0x4F#8, 0x50#8, 0x51#8, 0x52#8, 0x53#8, 0x54#8, 0x55#8, 0x56#8, 0x57#8, 0x58#8, 0x59#8, 0x5A#8,
   0x32#8, 0x33#8, 0x36#8, 0x37#8, 0x38#8, 0x39#8]

/-- `sym_of_val(v)` is character `ALPHABET[v]` (40_primitives.md R104). -/
def symOfVal (v : SymVal) : Chr := alphabet.getD v.toNat 0#8

/-- `HOMOGLYPH_0` = 'O' (40_primitives.md R106, decision D10). -/
def homoglyph0 : Chr := 0x4F#8

/-- `HOMOGLYPH_1` = 'I' (40_primitives.md R106, decision D10). -/
def homoglyph1 : Chr := 0x49#8

/-- `HOMOGLYPH_5` = 'S' (40_primitives.md R106, decision D10). -/
def homoglyph5 : Chr := 0x53#8

/-- The character '4', excluded whatever the table holds for it (40_primitives.md R108). -/
def digitFour : Chr := 0x34#8

/-- The value of an upper-case letter, its place in the Latin alphabet (40_primitives.md R106). -/
def letterValue (c : Chr) : SymVal := BitVec.ofNat 5 (c.toNat - 0x41)

/-- Stage 1, the table `T` (40_primitives.md R106): letters in either case, the digits of the alphabet, the aliases
of 0, 1 and 5, the withheld entry `T4`, and nothing else. -/
def digitTable (c : Chr) : Option SymVal :=
  if 0x41 ≤ c.toNat ∧ c.toNat ≤ 0x5A then some (letterValue c)
  else if 0x61 ≤ c.toNat ∧ c.toNat ≤ 0x7A then some (BitVec.ofNat 5 (c.toNat - 0x61))
  else if c = 0x32#8 then some 26#5
  else if c = 0x33#8 then some 27#5
  else if c = 0x36#8 then some 28#5
  else if c = 0x37#8 then some 29#5
  else if c = 0x38#8 then some 30#5
  else if c = 0x39#8 then some 31#5
  else if c = 0x30#8 then some (letterValue homoglyph0)
  else if c = 0x31#8 then some (letterValue homoglyph1)
  else if c = 0x35#8 then some (letterValue homoglyph5)
  else if c = digitFour then Config.t4
  else none

/-- `val_of_char(c)`, `none` standing for `INVALID`: the table, then the unconditional exclusion of '4'
(40_primitives.md R106 stage 2, R108). -/
def valOfChar (c : Chr) : Option SymVal :=
  if c = digitFour then none else digitTable c

/-- The character the encoder inserts between groups, a space (`SEP_OUT`, 00_scope.md R8). -/
def sepOut : Chr := 0x20#8

/-- The characters the decoder skips, `SEPARATORS` = the space alone (00_scope.md R8, decision D12). -/
def isSeparator (c : Chr) : Bool := c == 0x20#8

/-- `CRC_POLY` (00_scope.md R8). -/
def crcPoly : Word32 := 0xEDB88320#32

/-- `CRC_INIT` (00_scope.md R8). -/
def crcInit : Word32 := 0xFFFFFFFF#32

/-- `crc_update(s, b)`: the printed formula, in which the input bit alone selects the polynomial
(40_primitives.md R100, conflict C1). -/
def crcUpdate (s : Word32) (b : Bool) : Word32 := (if b then crcPoly else 0#32) ^^^ (s >>> 1)

end Sys2Proof.Machine
end

