-- ==== Sys2Proof/Machine/Flags.lean ====
section
/-! DEFINITION. The status code, the response kind and the round-mode fields as the host sees them, the gate of the
sticky status, and what the host samples on the response fields. -/

namespace Sys2Proof.Machine

/-- The code of a status (60_exceptions.md R220). -/
def statusCode : Status → BitVec 3
  | .okay => 0
  | .badDigit => 1
  | .badCheckBit => 2
  | .tooShort => 3
  | .tooLong => 4
  | .outOfRange => 5

/-- The code of a response kind (30_encoding.md R84). -/
def rspKindCode : RspKind → BitVec 2
  | .done => 0
  | .illegal => 1
  | .halted => 2

/-- The sticky gate: "every operation first checks the sticky status and is a no-op if not OKAY"
(42_decoder.md R170). -/
def Dec.gated (d : Dec) : Bool := d.status != .okay

/-- Bit 0 of a round register, `PAD_TO_GROUP` (10_state.md R41). -/
def roundPadGroup (r : BitVec 2) : Bool := r.getLsbD 0

/-- Bit 1 of a round register, `PAD_WITH_CHECKS` (10_state.md R41). -/
def roundPadChecks (r : BitVec 2) : Bool := r.getLsbD 1

/-- `rsp_valid` (30_encoding.md R81). -/
def State.rspValid (s : State) : Bool := s.rsp.isSome

/-- `cmd_ready`: 0 from acceptance until the response has been taken (30_encoding.md R81). -/
def State.cmdReady (s : State) : Bool := s.rsp.isNone

/-- What the host samples on `rsp_bit`: what the command produced, or a free value (30_encoding.md R84,
93_implementation_defined.md U1; log 7). -/
def State.pinBit (s : State) : Bool := (s.rsp.bind (·.bit)).getD (Config.rspBitFree s.rspNo)

/-- What the host samples on `rsp_int`, `INT_W` bits (30_encoding.md R84, U1; log 7). -/
def State.pinInt (s : State) : Nat :=
  (s.rsp.bind (·.int)).getD (Config.rspIntFree s.rspNo % 2 ^ s.par.intW)

/-- What the host samples on `rsp_cnt` (30_encoding.md R84, U1; log 7). -/
def State.pinCnt (s : State) : Word32 := (s.rsp.bind (·.cnt)).getD (Config.rspCntFree s.rspNo)

/-- What the host samples on `rsp_status` (30_encoding.md R84, U1; log 7). -/
def State.pinStatus (s : State) : BitVec 3 :=
  ((s.rsp.bind (·.status)).map statusCode).getD (Config.rspStatusFree s.rspNo)

/-- A response that produces no field (30_encoding.md R84). -/
def rspOnly (k : RspKind) : Response := { kind := k, bit := none, int := none, cnt := none, status := none }

/-- `DONE` without a result. -/
def rspDone : Response := rspOnly .done

/-- `DONE` with `rsp_bit`. -/
def rspDoneBit (b : Bool) : Response := { rspDone with bit := some b }

/-- `DONE` with `rsp_int`. -/
def rspDoneInt (v : Nat) : Response := { rspDone with int := some v }

/-- `DONE` with `rsp_cnt`. -/
def rspDoneCnt (n : Word32) : Response := { rspDone with cnt := some n }

/-- `DONE` with `rsp_status`. -/
def rspDoneStatus (st : Status) : Response := { rspDone with status := some st }

end Sys2Proof.Machine
end

