-- ==== Sys2Proof/Machine/Memory.lean ====
section
/-! DEFINITION. The staging memories (20_memory.md R60 to R62, R74): a list of the cells written since hardware reset, in
one canonical form, and what an unlisted cell reads as. -/

namespace Sys2Proof.Machine

/-- The canonical form: addresses strictly rising. Any cell the host has written is listed, and an unlisted cell holds
no value the spec states, so no entry can equal what an unlisted address reads as (log 8). -/
def Memory.wf {α : Type} : List (Nat × α) → Bool
  | [] => true
  | [_] => true
  | p :: q :: m => decide (p.1 < q.1) && Memory.wf (q :: m)

/-- What is listed for an address. -/
def cellGet {α : Type} (m : List (Nat × α)) (a : Nat) : Option α :=
  match m with
  | [] => none
  | p :: r => if p.1 = a then some p.2 else cellGet r a

/-- The memory after one cell is written. -/
def cellSet {α : Type} (m : List (Nat × α)) (a : Nat) (v : α) : List (Nat × α) :=
  match m with
  | [] => [(a, v)]
  | p :: r => if a < p.1 then (a, v) :: p :: r else if a = p.1 then (a, v) :: r else p :: cellSet r a v

/-- A cell of `EMASK` or `DMASK`; an unwritten cell holds a free value (20_memory.md R60, U5; log 8). -/
def State.maskCell (s : State) (u : Side) (a : Nat) : Bool :=
  match u with
  | .enc => (cellGet s.emask a).getD (Config.emaskUnwritten s.epoch a)
  | .dec => (cellGet s.dmask a).getD (Config.dmaskUnwritten s.epoch a)

/-- A cell of `DCODE`; an unwritten cell holds a free value (20_memory.md R60, U5; log 8). -/
def State.codeCell (s : State) (a : Nat) : Chr := (cellGet s.dcode a).getD (Config.dcodeUnwritten s.epoch a)

/-- `MemRead(EMASK or DMASK, 0, n)` (00_scope.md R13, 20_memory.md R61). -/
def State.readMask (s : State) (u : Side) (n : Nat) : List Bool := (List.range n).map (s.maskCell u)

/-- `MemRead(DCODE, 0, n)` (00_scope.md R13, 20_memory.md R62). -/
def State.readCode (s : State) (n : Nat) : List Chr := (List.range n).map s.codeCell

/-- The host writes one mask cell (20_memory.md R60). -/
def State.writeMaskCell (s : State) (u : Side) (a : Nat) (b : Bool) : State :=
  match u with
  | .enc => s.withEmask (cellSet s.emask a b)
  | .dec => s.withDmask (cellSet s.dmask a b)

/-- The host writes one character of `DCODE` (20_memory.md R60). -/
def State.writeCodeCell (s : State) (a : Nat) (c : Chr) : State := s.withDcode (cellSet s.dcode a c)

end Sys2Proof.Machine
end

