-- ==== Sys2Proof/Machine/Operands.lean ====
section
/-! DEFINITION. Operand assembly: the integers of `E.WINT` and `D.RINT` and their bits (30_encoding.md R89,
00_scope.md R10, 40_primitives.md R126 to R128, 41_encoder.md R143). All arithmetic is over mathematical integers, so
there is no overflow case (R128). -/

namespace Sys2Proof.Machine

/-- `int_S(v)`: the integer a pattern of `w` bits stands for, unsigned or two's complement (00_scope.md R10). A pattern
of more than `w` bits cannot be on the port and is read modulo `2^w` (log 15). -/
def intOf (w : Nat) (signed : Bool) (v : Nat) : Int :=
  let u := v % 2 ^ w
  if signed ∧ 2 ^ (w - 1) ≤ u then (u : Int) - 2 ^ w else u

/-- `pat(k)`: the pattern of `w` bits of the integer `k` taken modulo `2^w` (00_scope.md R10). -/
def patOf (w : Nat) (k : Int) : Nat := (k % 2 ^ w).toNat

/-- A pair of bounds. -/
structure Range where
  lo : Int
  hi : Int
deriving DecidableEq, Repr

/-- `norm(min0, max0)`: swap if inverted (40_primitives.md R126). -/
def normRange (a b : Int) : Range := { lo := min a b, hi := max a b }

/-- The bounds of an integer command, from the ports (30_encoding.md R89, 40_primitives.md R126). -/
def portRange (w : Nat) (signed : Bool) (q : Ports) : Range :=
  normRange (intOf w signed q.opMin) (intOf w signed q.opMax)

/-- `max − min` (40_primitives.md R128). -/
def Range.span (r : Range) : Nat := (r.hi - r.lo).toNat

/-- The nearer bound for a value outside the range (41_encoder.md R143). -/
def Range.clamp (r : Range) (v : Int) : Int := if v < r.lo then r.lo else if r.hi < v then r.hi else v

/-- `width(span)`: the minimal `w` with `2^w > span` (40_primitives.md R127). -/
def widthOf (span : Nat) : Nat := if span = 0 then 0 else Nat.log2 span + 1

/-- Bits `w − 1` down to 0 of `d`, the highest first (20_memory.md R66, 41_encoder.md R142). -/
def bitsMsb : Nat → Nat → List Bool
  | 0, _ => []
  | w + 1, d => d.testBit w :: bitsMsb w d

/-- The bits `E.WINT` writes (41_encoder.md R142 to R144). -/
def wintBits (w : Nat) (signed : Bool) (q : Ports) : List Bool :=
  let r := portRange w signed q
  bitsMsb (widthOf r.span) (r.clamp (intOf w signed q.opVal) - r.lo).toNat

end Sys2Proof.Machine
end

