-- ==== Sys2Proof/Machine/Ops.lean ====
section
/-! DEFINITION. The procedures the commands invoke (40_primitives.md, 41_encoder.md R151, 42_decoder.md R183, R186), the
constructions (70_reset_and_hazards.md R250 to R253), raising an error (60_exceptions.md R222), and how a command is
answered (30_encoding.md R84, R87). -/

namespace Sys2Proof.Machine

/-! ## Scrambler and check-bit latch, for either unit -/

/-- The bit `scramble` returns: flipped when the mask element at the cursor is true, unchanged under the empty mask
(40_primitives.md R112). -/
def scrambleBit (mask : List Bool) (cursor : Nat) (x : Bool) : Bool := x ^^ mask.getD cursor false

/-- The cursor after `scramble`: advances and wraps, stays under the empty mask (40_primitives.md R112). -/
def nextCursor (mask : List Bool) (cursor : Nat) : Nat :=
  if mask.isEmpty then cursor else (cursor + 1) % mask.length

/-- A snapshot of the running check and how many of its bits are not yet consumed (10_state.md R22). -/
structure LatchPair where
  snap : Word32
  rem : BitVec 6
deriving DecidableEq, Repr

/-- The latch a check-bit request finds: a new snapshot when no bit remains (40_primitives.md R120). -/
def loadLatch (crc latch : Word32) (rem : BitVec 6) : LatchPair :=
  if rem = 0#6 then { snap := crc, rem := 32#6 } else { snap := latch, rem := rem }

/-- The check bit a loaded latch gives, least significant first (40_primitives.md R120). -/
def LatchPair.bit (l : LatchPair) : Bool := l.snap.getLsbD 0

/-- The latch after its bit is taken (40_primitives.md R120). -/
def LatchPair.shifted (l : LatchPair) : LatchPair := { snap := l.snap >>> 1, rem := l.rem - 1#6 }

/-- The group countdown after one symbol: reloaded when found at zero, then decremented; untouched without grouping
(40_primitives.md R116, R118). -/
def countSymbol (dpg rem : BitVec 7) : BitVec 7 :=
  if dpg = 0#7 then rem else (if rem = 0#7 then dpg else rem) - 1#7

/-- `while cond do body`, for at most the given number of rounds (log 16). -/
def whileDo {σ : Type} (cond : σ → Bool) (body : σ → σ) : Nat → σ → σ
  | 0, x => x
  | n + 1, x => if cond x then whileDo cond body n (body x) else x

/-- `repeat n times body`. -/
def repeatDo {σ : Type} (body : σ → σ) : Nat → σ → σ
  | 0, x => x
  | n + 1, x => repeatDo body n (body x)

/-! ## Encoder bit path -/

/-- `enc_emit_symbol(v)`: a separator when the symbol starts a new group and is not the first, then the symbol
(40_primitives.md R116). -/
def encEmitSymbol (v : SymVal) (e : Enc) : Enc :=
  let sep := if e.dpg ≠ 0#7 ∧ e.remInGroup = 0#7 ∧ e.out ≠ [] then [sepOut] else []
  { e with out := e.out ++ sep ++ [symOfVal v], remInGroup := countSymbol e.dpg e.remInGroup }

/-- `{acc[3:0], w}` (40_primitives.md R114). -/
def shiftIn (acc : BitVec 5) (w : Bool) : BitVec 5 := BitVec.concat (acc.extractLsb' 0 4) w

/-- The scrambled bit enters the bit buffer (40_primitives.md R114, before the test for a full symbol). -/
def encPushBit (x : Bool) (e : Enc) : Enc :=
  { e with
    cursor := nextCursor e.mask e.cursor
    acc := shiftIn e.acc (scrambleBit e.mask e.cursor x)
    nbits := e.nbits + 1#3 }

/-- A full symbol leaves the bit buffer (40_primitives.md R114, after the test). -/
def encFlushSymbol (e : Enc) : Enc := { encEmitSymbol e.acc e with acc := 0#5, nbits := 0#3 }

/-- `enc_raw_bit(x)` (40_primitives.md R114). -/
def encRawBit (x : Bool) (e : Enc) : Enc :=
  let e1 := encPushBit x e
  if e1.nbits = 5#3 then encFlushSymbol e1 else e1

/-- `enc_data_bit(b)`: the CRC sees the logical bit, the latch is invalidated, the bit is emitted
(40_primitives.md R115, R121). -/
def encDataBit (b : Bool) (e : Enc) : Enc :=
  encRawBit b { e with crc := crcUpdate e.crc b, latchRem := 0#6 }

/-- A list of data bits, in order. -/
def encDataBits (bs : List Bool) (e : Enc) : Enc := bs.foldl (fun e b => encDataBit b e) e

/-- `enc_check_bit()`: one bit of the latch, counted modulo `2^CNT_W`, emitted; CRC untouched
(40_primitives.md R117). -/
def encCheckBit (e : Enc) : Enc :=
  let l := loadLatch e.crc e.latch e.latchRem
  encRawBit l.bit { e with latch := l.shifted.snap, latchRem := l.shifted.rem, checkCount := e.checkCount + 1#32 }

/-- `enc_pad_bit()`: a check bit in every respect, or a logical 0 (41_encoder.md R151). -/
def encPadBit (e : Enc) : Enc := if e.padChecks then encCheckBit e else encRawBit false e

/-- The first loop of `E.RESULT`: complete the symbol. Eight rounds end it whatever `nbits` holds (41_encoder.md R150;
log 16). -/
def encPadSymbol (e : Enc) : Enc := whileDo (fun e => e.nbits != 0#3) encPadBit 8 e

/-- The second loop of `E.RESULT`: complete the group. At most 127 symbols of five bits (41_encoder.md R150; log 16). -/
def encPadGroup (e : Enc) : Enc := whileDo (fun e => e.remInGroup != 0#7) encPadBit 635 e

/-- The effect of `get_result()` (41_encoder.md R150). -/
def encFinalise (e : Enc) : Enc :=
  let e1 := encPadSymbol e
  if e1.padGroup then encPadGroup e1 else e1

/-! ## Raising an error, and the decoder bit path -/

/-- How a procedure of DEC ends: it goes on with a result, or a raise has ended the command (00_scope.md R14). -/
inductive Run (α : Type) where
  | ok (d : Dec) (v : α)
  | raised (d : Dec)

/-- `raise E`: recorded if the status is OKAY, and the command ends; register writes made before it stay
(60_exceptions.md R222). There is no return from an error but a construction (60_exceptions.md R223, R228). -/
def raiseError {α : Type} (e : Status) (d : Dec) : Run α :=
  .raised { d with status := if d.status = .okay then e else d.status }

/-- Go on only if nothing was raised (60_exceptions.md R222). -/
def Run.bind {α β : Type} (r : Run α) (f : Dec → α → Run β) : Run β :=
  match r with
  | .ok d v => f d v
  | .raised d => .raised d

/-- The decoder registers a run ends with. -/
def Run.dec {α : Type} : Run α → Dec
  | .ok d _ => d
  | .raised d => d

/-- The position after any run of separators (40_primitives.md R118, 20_memory.md R75 (b)). -/
def skipSeparators (code : List Chr) (pos : Nat) : Nat :=
  pos + ((code.drop pos).takeWhile isSeparator).length

/-- `dec_fetch_symbol()` (40_primitives.md R118). -/
def decFetchSymbol (d : Dec) : Run Unit :=
  let p := skipSeparators d.code d.pos
  match d.code[p]? with
  | none => raiseError .tooShort { d with pos := p }
  | some c =>
    match valOfChar c with
    | none => raiseError .badDigit { d with pos := p + 1 }
    | some v =>
      .ok { d with pos := p + 1, sym := v, bitsLeft := 5#3, remInGroup := countSymbol d.dpg d.remInGroup } ()

/-- The next bit of the symbol held, most significant first, descrambled (40_primitives.md R122 after the fetch). -/
def decTakeBit (d : Dec) : Run Bool :=
  .ok { d with bitsLeft := d.bitsLeft - 1#3, cursor := nextCursor d.mask d.cursor }
    (scrambleBit d.mask d.cursor (d.sym.getLsbD (d.bitsLeft.toNat - 1)))

/-- `dec_raw_bit()` (40_primitives.md R122). -/
def decRawBit (d : Dec) : Run Bool :=
  if d.bitsLeft = 0#3 then (decFetchSymbol d).bind fun d1 _ => decTakeBit d1 else decTakeBit d

/-- `dec_data_bit()` (40_primitives.md R124). -/
def decDataBit (d : Dec) : Run Bool :=
  (decRawBit d).bind fun d1 b => .ok { d1 with crc := crcUpdate d1.crc b, latchRem := 0#6 } b

/-- `dec_check_bit()`: the expected bit is taken first (40_primitives.md R123). -/
def decCheckBit (d : Dec) : Run Unit :=
  let l := loadLatch d.crc d.latch d.latchRem
  (decRawBit { d with latch := l.shifted.snap, latchRem := l.shifted.rem }).bind fun d1 a =>
    if a = l.bit then .ok d1 () else raiseError .badCheckBit d1

/-- `dec_zero_pad_bit()` (40_primitives.md R125). -/
def decZeroPadBit (d : Dec) : Run Unit :=
  (decRawBit d).bind fun d1 a => if a then raiseError .badCheckBit d1 else .ok d1 ()

/-- `dec_pad_bit()` (42_decoder.md R183). -/
def decPadBit (d : Dec) : Run Unit := if d.padChecks then decCheckBit d else decZeroPadBit d

/-- `repeat n times` a procedure of DEC; a raise ends the command (42_decoder.md R182). -/
def repeatRun (body : Dec → Run Unit) : Nat → Dec → Run Unit
  | 0, d => .ok d ()
  | n + 1, d => (body d).bind fun d1 _ => repeatRun body n d1

/-- `while cond do` a procedure of DEC, for at most the given number of rounds; a raise ends the command
(42_decoder.md R184; log 16). -/
def whileRun (cond : Dec → Bool) (body : Dec → Run Unit) : Nat → Dec → Run Unit
  | 0, d => .ok d ()
  | n + 1, d => if cond d then (body d).bind fun d1 _ => whileRun cond body n d1 else .ok d ()

/-- `raw <- 2 × raw + dec_data_bit()`, `w` times (42_decoder.md R174). -/
def decReadRaw : Nat → Nat → Dec → Run Nat
  | 0, raw, d => .ok d raw
  | w + 1, raw, d => (decDataBit d).bind fun d1 b => decReadRaw w (2 * raw + b.toNat) d1

/-- The first loop of `D.FINISH`: complete the current symbol. Eight rounds end it whatever `bits_left` holds
(42_decoder.md R184; log 16). -/
def decPadSymbol (d : Dec) : Run Unit := whileRun (fun d => d.bitsLeft != 0#3) decPadBit 8 d

/-- The second loop of `D.FINISH`: complete the current group and its last symbol. A round consumes a bit of the finite
input, so five for each character, eight for a symbol held and one to find the end are enough (42_decoder.md R184;
log 16). -/
def decPadGroup (d : Dec) : Run Unit :=
  whileRun (fun d => d.remInGroup != 0#7 || d.bitsLeft != 0#3) decPadBit (5 * d.code.length + 9) d

/-- `trailing_scan()`: only separators may remain; on a raise `pos` rests on the offending character
(42_decoder.md R186). -/
def trailingScan (d : Dec) : Run Unit :=
  let p := skipSeparators d.code d.pos
  match d.code[p]? with
  | none => .ok { d with pos := p } ()
  | some _ => raiseError .tooLong { d with pos := p }

/-- The body of `finish()` behind the gate (42_decoder.md R184). -/
def decFinalise (d : Dec) : Run Unit :=
  ((decPadSymbol d).bind fun d1 _ => if d1.padGroup then decPadGroup d1 else .ok d1 ()).bind
    fun d2 _ => trailingScan d2

/-- The loop of `D.C2B`: read raw bits until an error, appending each to the stream (43_code_to_bits.md R210, R211). -/
def codeBitsLoop : Nat → Dec → List Bool → Dec × List Bool
  | 0, d, bs => (d, bs)
  | n + 1, d, bs =>
    match decDataBit d with
    | .ok d1 b => codeBitsLoop n d1 (bs ++ [b])
    | .raised d1 => (d1, bs)

/-! ## Construction and reset -/

/-- A freshly constructed encoder (70_reset_and_hazards.md R251). -/
def encConstruct (mask : List Bool) (dpg : BitVec 7) (padGroup padChecks : Bool) : Enc :=
  { crc := crcInit, latch := 0#32, latchRem := 0#6, cursor := 0, acc := 0#5, nbits := 0#3, remInGroup := 0#7, out := [],
    checkCount := 0#32, mask := mask, dpg := dpg, padChecks := padChecks, padGroup := padGroup }

/-- A freshly constructed decoder (70_reset_and_hazards.md R252). -/
def decConstruct (mask : List Bool) (code : List Chr) (dpg : BitVec 7) (padGroup padChecks : Bool) : Dec :=
  { crc := crcInit, latch := 0#32, latchRem := 0#6, cursor := 0, sym := 0#5, bitsLeft := 0#3, remInGroup := 0#7,
    code := code, pos := 0, status := .okay, mask := mask, dpg := dpg, padChecks := padChecks, padGroup := padGroup }

/-- ENC constructed from its staging (70_reset_and_hazards.md R251). -/
def State.constructEnc (s : State) : State :=
  s.withEnc
    (encConstruct (s.readMask .enc s.estg.maskLen) s.estg.dpg (roundPadGroup s.estg.round)
      (roundPadChecks s.estg.round))

/-- DEC constructed from its staging (70_reset_and_hazards.md R252). -/
def State.constructDec (s : State) : State :=
  s.withDec
    (decConstruct (s.readMask .dec s.dstg.maskLen) (s.readCode s.dstg.codeLen) s.dstg.dpg
      (roundPadGroup s.dstg.round) (roundPadChecks s.dstg.round))

/-- The temporary decoder of `D.C2B`: empty mask, no grouping, `ZERO_TO_DIGIT`, the staged code; the other DEC staging
is ignored (43_code_to_bits.md R212). -/
def State.defaultDec (s : State) : Dec := decConstruct [] (s.readCode s.dstg.codeLen) 0#7 false false

/-- Hardware reset: staging registers and `FATAL` to 0, `DBITS` emptied, both units constructed, staging memories
unspecified (70_reset_and_hazards.md R253, 10_state.md R46). A pending response is dropped and the ports and the read
bus read 0 (logs 5, 6, 17). -/
def State.hardReset (s : State) : State :=
  let s1 : State :=
    { s with
      fatal := false
      estg := { dpg := 0#7, round := 0#2, maskLen := 0 }
      dstg := { dpg := 0#7, round := 0#2, maskLen := 0, codeLen := 0 }
      emask := []
      dmask := []
      dcode := []
      dbits := []
      ports := { opMin := 0, opMax := 0, opVal := 0, opN := 0#32 }
      rsp := none
      rdata := 0
      epoch := s.epoch + 1 }
  s1.constructEnc.constructDec

/-! ## Answering a command -/

/-- A command that ran: its effect on the state, and its response. -/
structure Answer where
  state : State
  rsp : Response
deriving DecidableEq, Repr

/-- A command is answered `HALTED` and changes nothing while `FATAL = 1`; otherwise it runs to completion and its
response is presented (30_encoding.md R81, R84, R87). -/
def answer (s : State) (body : State → Answer) : Result :=
  if s.fatal then .next (s.withRsp (rspOnly .halted))
  else
    let a := body s
    .next (a.state.withRsp a.rsp)

/-- An illegal word: `ILLEGAL`, or `HALTED` while `FATAL = 1`; no state changes (30_encoding.md R86, R87). -/
def answerIllegal (s : State) : Result := answer s fun s => { state := s, rsp := rspOnly .illegal }

/-- An encoder command that gives no response field: it cannot fail (41_encoder.md R156). -/
def encAnswer (s : State) (f : Enc → Enc) : Result :=
  answer s fun s => { state := s.withEnc (f s.enc), rsp := rspDone }

/-- A gated decoder command: the default result if the status is not OKAY or if a raise ends it
(42_decoder.md R170, R171, 60_exceptions.md R222). `dflt` makes the default result from the final registers. -/
def decAnswer (s : State) (dflt : Dec → Response) (body : Dec → Run Response) : Result :=
  answer s fun s =>
    if s.dec.gated then { state := s, rsp := dflt s.dec }
    else
      match body s.dec with
      | .ok d r => { state := s.withDec d, rsp := r }
      | .raised d => { state := s.withDec d, rsp := dflt d }

end Sys2Proof.Machine
end

