-- ==== Sys2Proof/Machine/Composite.lean ====
section
/-! DEFINITION. The composite decoder commands `D.C2B` and `D.AC2B` (43_code_to_bits.md). -/

namespace Sys2Proof.Machine

/-- `rsp_status` of `D.C2B`: `TOO_SHORT` is the clean end of the input (43_code_to_bits.md R210, R214). -/
def cleanEnd (st : Status) : Status := if st = .tooShort then .okay else st

/-- `code_to_bits`: a temporary decoder in DEC, its bits in `DBITS` (43_code_to_bits.md R210). A code of `n` characters
has at most `5n` bits, so the loop ends within `5n + 1` reads (log 16). -/
def State.codeToBits (s : State) : State :=
  let d0 := s.defaultDec
  let r := codeBitsLoop (5 * d0.code.length + 1) d0 []
  (s.withDec r.1).withDbits r.2

/-- `D.C2B`, not gated by the status of the previous instance (43_code_to_bits.md R210, R215). -/
def execDC2b (s : State) : Result :=
  answer s fun s =>
    let t := s.codeToBits
    { state := t, rsp := rspDoneStatus (cleanEnd t.dec.status) }

/-- `D.AC2B`: `D.C2B`, then `FATAL` if the result is not `OKAY`; the response is still `DONE` with the status
(43_code_to_bits.md R213). -/
def execDAc2b (s : State) : Result :=
  answer s fun s =>
    let t := s.codeToBits
    let st := cleanEnd t.dec.status
    { state := if st = .okay then t else t.withFatal true, rsp := rspDoneStatus st }

end Sys2Proof.Machine
end

