-- ==== Sys2Proof/Machine/Construct.lean ====
section
/-! DEFINITION. The construction commands `E.INIT` and `D.INIT` (70_reset_and_hazards.md R250 to R252). -/

namespace Sys2Proof.Machine

/-- `E.INIT` (70_reset_and_hazards.md R251). -/
def execEInit (s : State) : Result := answer s fun s => { state := s.constructEnc, rsp := rspDone }

/-- `D.INIT`, not gated by the old status (70_reset_and_hazards.md R252). -/
def execDInit (s : State) : Result := answer s fun s => { state := s.constructDec, rsp := rspDone }

end Sys2Proof.Machine
end

