-- ==== Sys2Proof/Machine/Decoder.lean ====
section
/-! DEFINITION. The gated decoder commands (42_decoder.md). -/

namespace Sys2Proof.Machine

/-- `D.RBIT`; default `rsp_bit = 0` (42_decoder.md R171, R172). -/
def execDRbit (s : State) : Result :=
  decAnswer s (fun _ => rspDoneBit false) fun d => (decDataBit d).bind fun d1 b => .ok d1 (rspDoneBit b)

/-- The body of `D.RINT` behind the gate: `w` data bits, the range test, `raw + min` (42_decoder.md R174, R176). -/
def readIntBody (w : Nat) (r : Range) (d : Dec) : Run Response :=
  (decReadRaw (widthOf r.span) 0 d).bind fun d1 raw =>
    if r.span < raw then raiseError .outOfRange d1 else .ok d1 (rspDoneInt (patOf w (raw + r.lo)))

/-- `D.RINT`; default `pat(max)` (42_decoder.md R171, R174 to R178). -/
def execDRint (sg : Bool) (s : State) : Result :=
  let r := portRange s.par.intW sg s.ports
  decAnswer s (fun _ => rspDoneInt (patOf s.par.intW r.hi)) (readIntBody s.par.intW r)

/-- `D.RCHK`; no result field (42_decoder.md R180). -/
def execDRchk (s : State) : Result :=
  decAnswer s (fun _ => rspDone) fun d => (decCheckBit d).bind fun d1 _ => .ok d1 rspDone

/-- `D.RCHKN`: `op_n` check bits, the first failing one ends it (42_decoder.md R182). -/
def execDRchkn (s : State) : Result :=
  decAnswer s (fun _ => rspDone) fun d =>
    (repeatRun decCheckBit s.ports.opN.toNat d).bind fun d1 _ => .ok d1 rspDone

/-- `D.FINISH`; `rsp_status` is the status it leaves (42_decoder.md R171, R184). -/
def execDFinish (s : State) : Result :=
  decAnswer s (fun d => rspDoneStatus d.status) fun d =>
    (decFinalise d).bind fun d1 _ => .ok d1 (rspDoneStatus d1.status)

end Sys2Proof.Machine
end

