-- ==== Sys2Proof/Machine/Encoder.lean ====
section
/-! DEFINITION. The encoder commands (41_encoder.md). None can fail (R156). -/

namespace Sys2Proof.Machine

/-- `E.WBIT b` (41_encoder.md R140). -/
def execEWbit (b : Bool) (s : State) : Result := encAnswer s (encDataBit b)

/-- `E.WINT`: normalise, clamp, and write the offset as data bits (41_encoder.md R142 to R144). -/
def execEWint (sg : Bool) (s : State) : Result := encAnswer s (encDataBits (wintBits s.par.intW sg s.ports))

/-- `E.WCHK` (41_encoder.md R146). -/
def execEWchk (s : State) : Result := encAnswer s encCheckBit

/-- `E.WCHKN`: `op_n` check bits (41_encoder.md R148). -/
def execEWchkn (s : State) : Result := encAnswer s (repeatDo encCheckBit s.ports.opN.toNat)

/-- `E.RESULT`: the pad bits; the result is `ENC.out` (41_encoder.md R150). -/
def execEResult (s : State) : Result := encAnswer s encFinalise

/-- `E.NCHK`: `rsp_cnt` is the check-bit counter (41_encoder.md R154). -/
def execENchk (s : State) : Result := answer s fun s => { state := s, rsp := rspDoneCnt s.enc.checkCount }

end Sys2Proof.Machine
end

