-- ==== Sys2Proof/Machine/Dispatch.lean ====
section
/-! DEFINITION. One arm per command (30_encoding.md R85). -/

namespace Sys2Proof.Machine

def exec (i : Instr) (s : State) : Host.Outcome State Fault Refusal :=
  match i with
  | .eInit => Sys2Proof.Machine.execEInit s
  | .eWbit b => Sys2Proof.Machine.execEWbit b s
  | .eWint sg => Sys2Proof.Machine.execEWint sg s
  | .eWchk => Sys2Proof.Machine.execEWchk s
  | .eWchkn => Sys2Proof.Machine.execEWchkn s
  | .eResult => Sys2Proof.Machine.execEResult s
  | .eNchk => Sys2Proof.Machine.execENchk s
  | .dInit => Sys2Proof.Machine.execDInit s
  | .dRbit => Sys2Proof.Machine.execDRbit s
  | .dRint sg => Sys2Proof.Machine.execDRint sg s
  | .dRchk => Sys2Proof.Machine.execDRchk s
  | .dRchkn => Sys2Proof.Machine.execDRchkn s
  | .dFinish => Sys2Proof.Machine.execDFinish s
  | .dC2b => Sys2Proof.Machine.execDC2b s
  | .dAc2b => Sys2Proof.Machine.execDAc2b s

end Sys2Proof.Machine
end

