-- ==== Sys2Proof/Decode.lean ====
section
/-! DEFINITION. The decoder of command words, total on all 256 words and rejecting by name (30_encoding.md R82, R85,
R86), the encoder beside it, and the opcode table they are held against (opcode_table.json). -/

namespace Sys2Proof

/-- Why a command word is illegal (30_encoding.md R86). -/
inductive DecodeError where
  /-- `cmd[6] = 1`. -/
  | reservedBit
  /-- `OP` is not assigned for the unit. -/
  | unassignedOp
  /-- `cmd[4] = 1` on anything but `E.WBIT`. -/
  | strayB
  /-- `cmd[5] = 1` on anything but `E.WINT` or `D.RINT`. -/
  | strayS
deriving DecidableEq, Repr

/-- The fields of a command word (30_encoding.md R82). -/
structure CmdFields where
  unit : Bool
  z : Bool
  s : Bool
  b : Bool
  op : BitVec 4
deriving DecidableEq, Repr

/-- `U` = `cmd[7]`, `Z` = `cmd[6]`, `S` = `cmd[5]`, `B` = `cmd[4]`, `OP` = `cmd[3:0]` (30_encoding.md R82). -/
def cmdFields (w : CmdWord) : CmdFields :=
  { unit := w.getLsbD 7, z := w.getLsbD 6, s := w.getLsbD 5, b := w.getLsbD 4, op := w.extractLsb' 0 4 }

/-- The three formats (30_encoding.md R82), each with the command its operand selects. -/
inductive Format where
  | n (i : Instr)
  | b (i : Bool → Instr)
  | i (i : Bool → Instr)

/-- The operations assigned to each unit (30_encoding.md R85). -/
def opAssigned (unit : Bool) (op : BitVec 4) : Option Format :=
  match unit, op.toNat with
  | false, 0x0 => some (.n .eInit)
  | false, 0x1 => some (.b .eWbit)
  | false, 0x2 => some (.i .eWint)
  | false, 0x3 => some (.n .eWchk)
  | false, 0x4 => some (.n .eWchkn)
  | false, 0x5 => some (.n .eResult)
  | false, 0x6 => some (.n .eNchk)
  | true, 0x0 => some (.n .dInit)
  | true, 0x1 => some (.n .dRbit)
  | true, 0x2 => some (.i .dRint)
  | true, 0x3 => some (.n .dRchk)
  | true, 0x4 => some (.n .dRchkn)
  | true, 0x5 => some (.n .dFinish)
  | true, 0x8 => some (.n .dC2b)
  | true, 0x9 => some (.n .dAc2b)
  | _, _ => none

/-- The command a word stands for, or the reason it is illegal (30_encoding.md R82, R86). -/
def decodeWord (w : CmdWord) : Except DecodeError Instr :=
  let f := cmdFields w
  if f.z then .error .reservedBit
  else
    match opAssigned f.unit f.op with
    | none => .error .unassignedOp
    | some (.n i) => if f.b then .error .strayB else if f.s then .error .strayS else .ok i
    | some (.b i) => if f.s then .error .strayS else .ok (i f.b)
    | some (.i i) => if f.b then .error .strayB else .ok (i f.s)

/-- The decoder's answer without the reason. -/
def legalInstr (w : CmdWord) : Option Instr :=
  match decodeWord w with
  | .ok i => some i
  | .error _ => none

/-- The host's question: the command whose `nbits` bits are `w`, bits above `nbits` being 0. A command is one
8-bit word (30_encoding.md R80, R88). -/
def decodeTableWord (nbits w : Nat) : Option Instr := legalInstr (BitVec.ofNat 8 (w % 2 ^ nbits))

/-- The command word of a command (30_encoding.md R85, R91). -/
def encode : Instr → CmdWord
  | .eInit => 0x00
  | .eWbit b => 0x01 ||| (if b then 0x10 else 0x00)
  | .eWint s => 0x02 ||| (if s then 0x20 else 0x00)
  | .eWchk => 0x03
  | .eWchkn => 0x04
  | .eResult => 0x05
  | .eNchk => 0x06
  | .dInit => 0x80
  | .dRbit => 0x81
  | .dRint s => 0x82 ||| (if s then 0x20 else 0x00)
  | .dRchk => 0x83
  | .dRchkn => 0x84
  | .dFinish => 0x85
  | .dC2b => 0x88
  | .dAc2b => 0x89

/-- A row of the opcode table: a word `w` selects the row where `w & mask = match` (30_encoding.md R85). -/
structure OpRow where
  mnemonic : String
  pattern : CmdWord
  mask : CmdWord
deriving DecidableEq, Repr

/-- The opcode table (30_encoding.md R85, opcode_table.json). -/
def opcodeTable : List OpRow :=
  [⟨"E.INIT", 0x00, 0xFF⟩, ⟨"E.WBIT", 0x01, 0xEF⟩, ⟨"E.WINT", 0x02, 0xDF⟩, ⟨"E.WCHK", 0x03, 0xFF⟩,
   ⟨"E.WCHKN", 0x04, 0xFF⟩, ⟨"E.RESULT", 0x05, 0xFF⟩, ⟨"E.NCHK", 0x06, 0xFF⟩, ⟨"D.INIT", 0x80, 0xFF⟩,
   ⟨"D.RBIT", 0x81, 0xFF⟩, ⟨"D.RINT", 0x82, 0xDF⟩, ⟨"D.RCHK", 0x83, 0xFF⟩, ⟨"D.RCHKN", 0x84, 0xFF⟩,
   ⟨"D.FINISH", 0x85, 0xFF⟩, ⟨"D.C2B", 0x88, 0xFF⟩, ⟨"D.AC2B", 0x89, 0xFF⟩]

/-- The row a word selects. -/
def OpRow.selects (r : OpRow) (w : CmdWord) : Bool := w &&& r.mask == r.pattern

/-- The mnemonic of a command (30_encoding.md R85). -/
def Instr.mnemonic : Instr → String
  | .eInit => "E.INIT"
  | .eWbit _ => "E.WBIT"
  | .eWint _ => "E.WINT"
  | .eWchk => "E.WCHK"
  | .eWchkn => "E.WCHKN"
  | .eResult => "E.RESULT"
  | .eNchk => "E.NCHK"
  | .dInit => "D.INIT"
  | .dRbit => "D.RBIT"
  | .dRint _ => "D.RINT"
  | .dRchk => "D.RCHK"
  | .dRchkn => "D.RCHKN"
  | .dFinish => "D.FINISH"
  | .dC2b => "D.C2B"
  | .dAc2b => "D.AC2B"

end Sys2Proof
end

