-- ==== Sys2Proof/Machine/HostPort.lean ====
section
/-! DEFINITION. The host side of the block: registers by number (10_state.md R40), staging writes, hardware reset, and
which transaction of the host a step serves (30_encoding.md R81). -/

namespace Sys2Proof.Machine

/-- What a read of a register returns; reserved numbers and bits above a register's width read 0
(10_state.md R40, R43). -/
def State.regRead (s : State) (num : Nat) : Nat :=
  match num with
  | 0x00 => s.estg.dpg.toNat
  | 0x01 => s.estg.round.toNat
  | 0x02 => s.estg.maskLen
  | 0x03 => s.enc.checkCount.toNat
  | 0x10 => s.dstg.dpg.toNat
  | 0x11 => s.dstg.round.toNat
  | 0x12 => s.dstg.maskLen
  | 0x13 => s.dstg.codeLen
  | 0x14 => (statusCode s.dec.status).toNat
  | 0x1F => s.fatal.toNat
  | _ => 0

/-- A write of a register keeps the bits that exist; writes of read-only and reserved registers are ignored
(10_state.md R40; log 18). -/
def State.regWrite (s : State) (num data : Nat) : State :=
  match num with
  | 0x00 => s.withEstg { s.estg with dpg := BitVec.ofNat 7 data }
  | 0x01 => s.withEstg { s.estg with round := BitVec.ofNat 2 data }
  | 0x02 => s.withEstg { s.estg with maskLen := data % 2 ^ s.par.mlenW }
  | 0x10 => s.withDstg { s.dstg with dpg := BitVec.ofNat 7 data }
  | 0x11 => s.withDstg { s.dstg with round := BitVec.ofNat 2 data }
  | 0x12 => s.withDstg { s.dstg with maskLen := data % 2 ^ s.par.mlenW }
  | 0x13 => s.withDstg { s.dstg with codeLen := data % 2 ^ s.par.clenW }
  | _ => s

/-- The numbers of the staging registers: the registers of 10_state.md R40 that are written. The other numbers are
read-only windows (R43) or reserved. -/
def stagingRegister (num : Nat) : Bool := num ∈ [0x00, 0x01, 0x02, 0x10, 0x11, 0x12, 0x13]

/-- Is the address one of the space `EMASK` or `DMASK` (20_memory.md R60)? -/
def State.maskCellExists (s : State) (a : Nat) : Bool := decide (a < s.par.maskMax)

/-- Is the address one of the space `DCODE` (20_memory.md R60)? -/
def State.codeCellExists (s : State) (a : Nat) : Bool := decide (a < s.par.codeMax)

/-- A staging write; a cell outside its space faults (10_state.md R40, 20_memory.md R60; log 9). -/
def State.stagingWrite (s : State) (w : StagingWrite) : Result :=
  match w with
  | .reg num data => .next (s.regWrite num data)
  | .mask u a b => if s.maskCellExists a then .next (s.writeMaskCell u a b) else .fault .noSuchMaskCell
  | .code a c => if s.codeCellExists a then .next (s.writeCodeCell a c) else .fault .noSuchCodeCell

/-- Does a host write land in staging: in a staging register or a cell that exists (10_state.md R40, 20_memory.md R60)?
A write of any other register is ignored, and one of a cell that does not exist faults whenever it is made (log 9). -/
def State.landsInStaging (s : State) : StagingWrite → Bool
  | .reg num _ => stagingRegister num
  | .mask _ a _ => s.maskCellExists a
  | .code a _ => s.codeCellExists a

/-- The construction commands (70_reset_and_hazards.md R250). -/
def constructs : Instr → Bool
  | .eInit | .dInit | .dC2b | .dAc2b => true
  | .eWbit _ | .eWint _ | .eWchk | .eWchkn | .eResult | .eNchk => false
  | .dRbit | .dRint _ | .dRchk | .dRchkn | .dFinish => false

/-- Does a word stand for a construction command? -/
def constructionWord (w : CmdWord) : Bool := (legalInstr w).any constructs

/-- What a step finds to do. -/
inductive Fetched where
  /-- No command is accepted: the step is this answer. -/
  | served (r : Result)
  /-- A command word is accepted, its ports sampled (30_encoding.md R81, R83). -/
  | accepted (w : CmdWord) (s : State)

/-- The state in which an accepted command runs: the transaction is consumed and the ports are sampled
(30_encoding.md R83). -/
def State.sampled (s : State) (c : Command) (rest : List HostOp) : State := (s.withHost rest).withPorts c.ports

/-- A host write made while a command is between acceptance and response. A write that lands in staging is refused for a
construction command that runs, and harmless for any other word; a write that lands nowhere does what it always does, and
the command, a construction too, runs as without it (20_memory.md R72, 70_reset_and_hazards.md R261; log 10). -/
def State.acceptOverlapped (s : State) (c : Command) (w : StagingWrite) (rest : List HostOp) : Fetched :=
  if !s.fatal && constructionWord c.word && s.landsInStaging w then .served (.refused .stagingOverlap)
  else
    match (s.sampled c rest).stagingWrite w with
    | .next t => .accepted c.word t
    | .fault r => .served (.fault r)
    | .refused r => .served (.refused r)

/-- The transaction of the host that a step serves. With none to come the block idles; a command waits while a response
is pending (00_scope.md R19, 30_encoding.md R81; logs 2, 4). DESIGN CHOICE: R81 gives the host a response to take only
while `rsp_valid = 1`; a `takeRsp` with none pending is consumed at once, without effect (log 4). -/
def fetch (s : State) : Fetched :=
  match s.host with
  | [] => .served (.next s)
  | .command c :: rest => if s.cmdReady then .accepted c.word (s.sampled c rest) else .served (.next s)
  | .overlapped c w :: rest => if s.cmdReady then s.acceptOverlapped c w rest else .served (.next s)
  | .takeRsp :: rest => .served (.next (s.withHost rest).withoutRsp)
  | .write w :: rest => .served ((s.withHost rest).stagingWrite w)
  | .readReg num :: rest => .served (.next ((s.withHost rest).withRdata (s.regRead num)))
  | .readMask u a :: rest =>
    .served
      (if s.maskCellExists a then .next ((s.withHost rest).withRdata (s.maskCell u a).toNat)
       else .fault .noSuchMaskCell)
  | .readCode a :: rest =>
    .served
      (if s.codeCellExists a then .next ((s.withHost rest).withRdata (s.codeCell a).toNat)
       else .fault .noSuchCodeCell)
  | .hardReset :: rest => .served (.next (s.withHost rest).hardReset)

/-- A command placed where the next step finds it, with no response pending and the ports as they stand (log 2). -/
def State.placeCommand (s : State) (w : CmdWord) : State :=
  s.withoutRsp.withHost (.command { word := w, ports := s.ports } :: s.host)

end Sys2Proof.Machine
end

