-- ==== Sys2Proof/Machine/Step.lean ====
section
/-! DEFINITION. One step: one transaction of the host (00_scope.md R19, 30_encoding.md R81). -/

namespace Sys2Proof.Machine

/-- Serves the host's next transaction; an accepted command word is decoded and executed, or answered as illegal
(30_encoding.md R85, R86). -/
def step (s : State) : Host.Outcome State Fault Refusal :=
  match fetch s with
  | .served r => r
  | .accepted w t =>
    match legalInstr w with
    | some i => exec i t
    | none => answerIllegal t

/-- The state with the command whose `nbits` bits are `w` placed as the host's next transaction (log 2). -/
def State.withFetchWord (s : State) (nbits w : Nat) : State := s.placeCommand (BitVec.ofNat 8 (w % 2 ^ nbits))

end Sys2Proof.Machine
end

