-- ==== Sys2Proof/WellFormed.lean ====
section
/-! DEFINITION. What may be asked of the block. An `Instr` needs no check: its operand fields are single bits, so
every term of it is a legal command. The checks are of what the command word does not carry: the widths of the
operand ports and the addresses of staging cells (93_implementation_defined.md U15). -/

namespace Sys2Proof

/-- `INT_W ≥ 1` (00_scope.md R8). -/
def Params.wf (p : Params) : Bool := decide (1 ≤ p.intW)

/-- A pattern fits the `INT_W` bits of an integer port (30_encoding.md R83). -/
def fitsInt (p : Params) (v : Nat) : Bool := decide (v < 2 ^ p.intW)

/-- Every integer port holds a pattern of `INT_W` bits (30_encoding.md R83). -/
def Ports.wf (p : Params) (q : Ports) : Bool :=
  fitsInt p q.opMin && fitsInt p q.opMax && fitsInt p q.opVal

/-- A staging write names a cell that exists: addresses `0 .. MASK_MAX − 1` and `0 .. CODE_MAX − 1`
(20_memory.md R60). Every register number may be written (10_state.md R40). -/
def StagingWrite.wf (p : Params) : StagingWrite → Bool
  | .reg _ _ => true
  | .mask _ a _ => decide (a < p.maskMax)
  | .code a _ => decide (a < p.codeMax)

/-- A transaction that the interface can express (93_implementation_defined.md U15). -/
def HostOp.wf (p : Params) : HostOp → Bool
  | .command c => c.ports.wf p
  | .overlapped c w => c.ports.wf p && w.wf p
  | .takeRsp => true
  | .write w => w.wf p
  | .readReg _ => true
  | .readMask _ a => decide (a < p.maskMax)
  | .readCode a => decide (a < p.codeMax)
  | .hardReset => true

end Sys2Proof
end

