-- ==== Sys2Proof/Safety.lean ====
section
/-! DEFINITION. The terms claims are stated in: what a run leaves, the invariant between commands (10_state.md R44), the bit
streams the two units write and read (20_memory.md R65, R66), the check and pad bits that are due, and the mirror
sequences of 42_decoder.md R190. -/

namespace Sys2Proof.Machine

/-- The next state of an answer, if it is one. -/
def stateAfter (r : Result) : Option State :=
  match r with
  | .next t => some t
  | .fault _ => none
  | .refused _ => none

/-- No correct run ends with `FATAL = 1` (92_eei_decisions.md D37): the block runs commands only while this holds. -/
def State.running (s : State) : Prop := s.fatal = false

/-- The host's next transaction presents a command, alone or with a host write that overlaps it (30_encoding.md R81,
20_memory.md R72). -/
def State.presents (s : State) (c : Command) : Prop :=
  ∃ rest, s.host = .command c :: rest ∨ ∃ w, s.host = .overlapped c w :: rest

/-- The state in which a run has decoded without an error so far (60_exceptions.md R220, R229). -/
def State.safe (s : State) : Prop := s.fatal = false ∧ s.dec.status = .okay

/-- The commands of ENC (30_encoding.md R85). -/
def encCommand : Instr → Bool
  | .eInit | .eWbit _ | .eWint _ | .eWchk | .eWchkn | .eResult | .eNchk => true
  | .dInit | .dRbit | .dRint _ | .dRchk | .dRchkn | .dFinish | .dC2b | .dAc2b => false

/-- The errors a command can raise, by rule (60_exceptions.md R221). -/
def mayRaise : Instr → List Status
  | .dRbit | .dC2b | .dAc2b => [.badDigit, .tooShort]
  | .dRint _ => [.badDigit, .tooShort, .outOfRange]
  | .dRchk | .dRchkn => [.badDigit, .tooShort, .badCheckBit]
  | .dFinish => [.badDigit, .tooShort, .badCheckBit, .tooLong]
  | .eInit | .eWbit _ | .eWint _ | .eWchk | .eWchkn | .eResult | .eNchk | .dInit => []

/-! ## Strings and bit streams -/

/-- The symbols of a string: its characters but for the separators. -/
def symbolsOf (cs : List Chr) : List Chr := cs.filter fun c => !isSeparator c

/-- The five bits of a symbol value, most significant first (20_memory.md R65). -/
def symBits (v : SymVal) : List Bool := bitsMsb 5 v.toNat

/-- The wire bits of a string, up to its end or its first unmappable character. -/
def stringBits : List Chr → List Bool
  | [] => []
  | c :: cs =>
    if isSeparator c then stringBits cs
    else
      match valOfChar c with
      | none => []
      | some v => symBits v ++ stringBits cs

/-- Does a string hold, anywhere, a character that is neither a separator nor mappable? -/
def hasBadChar (cs : List Chr) : Bool := cs.any fun c => !isSeparator c && (valOfChar c).isNone

/-- The mask element the `k`-th raw bit of an instance meets, `k mod len(mask)`; no flip under the empty mask
(40_primitives.md R113). -/
def maskBit (mask : List Bool) (k : Nat) : Bool := mask.getD (k % mask.length) false

/-- A stretch of raw bits xored with the mask, the first of them meeting element `k`. -/
def xorMask (mask : List Bool) (k : Nat) : List Bool → List Bool
  | [] => []
  | b :: bs => (b ^^ maskBit mask k) :: xorMask mask (k + 1) bs

/-- The wire bits an encoder has accepted, in order: those of the symbols emitted, then the bit buffer
(10_state.md R24, 41_encoder.md R158). -/
def Enc.wireBits (e : Enc) : List Bool := stringBits e.out ++ bitsMsb e.nbits.toNat e.acc.toNat

/-- The logical bits a decoder can still read before its input ends or a character is unmappable, in order
(10_state.md R32, R34, 40_primitives.md R118, R122). -/
def Dec.inputBits (d : Dec) : List Bool :=
  xorMask d.mask d.cursor (bitsMsb d.bitsLeft.toNat d.sym.toNat ++ stringBits (d.code.drop d.pos))

/-- The number a list of bits stands for, most significant bit first. -/
def bitsValue (bs : List Bool) : Nat := bs.foldl (fun v b => 2 * v + b.toNat) 0

/-- The `k`-th check bit due if no data bit comes in between: the rest of the latch, then the running check from its bit 0
round and round (40_primitives.md R119, R120). -/
def checkBitAt (crc latch : Word32) (rem : BitVec 6) (k : Nat) : Bool :=
  if k < rem.toNat then latch.getLsbD k else crc.getLsbD ((k - rem.toNat) % 32)

/-- The `k`-th pad bit an encoder will emit, before scrambling (41_encoder.md R151). -/
def Enc.padBitAt (e : Enc) (k : Nat) : Bool := e.padChecks && checkBitAt e.crc e.latch e.latchRem k

/-- The `k`-th pad bit a decoder expects (42_decoder.md R183). -/
def Dec.padBitAt (d : Dec) (k : Nat) : Bool := d.padChecks && checkBitAt d.crc d.latch d.latchRem k

/-- Symbols still missing from the current group after `n` symbols; none without grouping (10_state.md R44). -/
def groupRem (dpg n : Nat) : Nat := if dpg = 0 then 0 else (dpg - n % dpg) % dpg

/-- Pad bits `E.RESULT` emits: those that complete the symbol, then five for each symbol missing from the group
(41_encoder.md R153). -/
def Enc.padCount (e : Enc) : Nat :=
  let fill := (5 - e.nbits.toNat) % 5
  let rem' := if e.nbits = 0#3 then e.remInGroup else countSymbol e.dpg e.remInGroup
  fill + (if e.padGroup then 5 * rem'.toNat else 0)

/-- Pad bits `D.FINISH` consumes when nothing raises: the rest of the symbol held, then five for each symbol missing
from the group (42_decoder.md R184). -/
def Dec.padCount (d : Dec) : Nat := d.bitsLeft.toNat + (if d.padGroup then 5 * d.remInGroup.toNat else 0)

/-- The strict form of 30_encoding.md R94 for symbols numbered from `i`: with groups of `g > 0`, one separator before each
symbol that starts a group other than the first. -/
def groupedFrom (g i : Nat) : List Chr → List Chr
  | [] => []
  | c :: cs => (if g ≠ 0 ∧ i ≠ 0 ∧ i % g = 0 then [sepOut, c] else [c]) ++ groupedFrom g (i + 1) cs

/-- The error a decoder meets when it asks for a symbol that is not there: `BAD_DIGIT` if an unmappable character is in
the way, else `TOO_SHORT` (60_exceptions.md R221, R224). -/
def shortfall (cs : List Chr) : Status := if hasBadChar cs then .badDigit else .tooShort

/-- The running check over a list of data bits, in order (40_primitives.md R101). -/
def crcOver (s : Word32) (bs : List Bool) : Word32 := bs.foldl crcUpdate s

/-- The closed form of the running check after the data bits `b_0 .. b_(k-1)` (40_primitives.md R103). -/
def crcClosed (bs : List Bool) : Word32 :=
  (0xFFFFFFFF#32 >>> bs.length) ^^^
    ((List.range bs.length).map fun i =>
      if bs.getD i false then 0xEDB88320#32 >>> (bs.length - 1 - i) else 0#32).foldl (· ^^^ ·) 0#32

/-- One raw bit has passed an encoder: the effect of `enc_raw_bit(x)` and of the symbol it may emit, register by register
(40_primitives.md R112, R114, R116). `f` is `e` after logical bit `x`. -/
structure RawBitEmitted (x : Bool) (e f : Enc) : Prop where
  cursor : f.cursor = if e.mask = [] then e.cursor else (e.cursor + 1) % e.mask.length
  pending : e.nbits ≠ 4#3 →
    f.acc = (e.acc.extractLsb' 0 4).concat (x ^^ e.mask.getD e.cursor false) ∧ f.nbits = e.nbits + 1#3 ∧
      f.out = e.out ∧ f.remInGroup = e.remInGroup
  emitted : e.nbits = 4#3 →
    f.acc = 0#5 ∧ f.nbits = 0#3 ∧
      f.out = e.out ++ (if e.dpg ≠ 0#7 ∧ e.remInGroup = 0#7 ∧ e.out ≠ [] then [0x20#8] else []) ++
        [symOfVal ((e.acc.extractLsb' 0 4).concat (x ^^ e.mask.getD e.cursor false))] ∧
      f.remInGroup =
        if e.dpg = 0#7 then e.remInGroup else (if e.remInGroup = 0#7 then e.dpg else e.remInGroup) - 1#7
  params : f.mask = e.mask ∧ f.dpg = e.dpg ∧ f.padChecks = e.padChecks ∧ f.padGroup = e.padGroup

/-- The construction parameters of a decoder are as they were (10_state.md R34, R38). -/
def Dec.sameParams (d e : Dec) : Prop :=
  e.code = d.code ∧ e.mask = d.mask ∧ e.dpg = d.dpg ∧ e.padChecks = d.padChecks ∧ e.padGroup = d.padGroup

/-- The construction parameters of an encoder are as they were (10_state.md R28). -/
def Enc.sameParams (e f : Enc) : Prop :=
  f.mask = e.mask ∧ f.dpg = e.dpg ∧ f.padChecks = e.padChecks ∧ f.padGroup = e.padGroup

/-! ## The invariant between commands -/

/-- What holds of ENC between commands (10_state.md R44; widths R23, R28; strict form 30_encoding.md R94). -/
structure Enc.Inv (p : Params) (e : Enc) : Prop where
  nbits_le : e.nbits.toNat ≤ 4
  acc_lt : e.acc.toNat < 2 ^ e.nbits.toNat
  latchRem_le : e.latchRem.toNat ≤ 32
  cursor_lt : e.cursor < max 1 e.mask.length
  rem_le : e.remInGroup.toNat ≤ e.dpg.toNat
  rem_eq : e.remInGroup.toNat = groupRem e.dpg.toNat (symbolsOf e.out).length
  mask_le : e.mask.length ≤ p.maskMax
  out_strict : e.out = groupedFrom e.dpg.toNat 0 (symbolsOf e.out)
  out_alphabet : ∀ c ∈ symbolsOf e.out, c ∈ alphabet

/-- What holds of DEC between commands (10_state.md R44; widths R31, R34, R38). The symbols consumed are the mappable
characters before `pos`. -/
structure Dec.Inv (p : Params) (d : Dec) : Prop where
  bitsLeft_le : d.bitsLeft.toNat ≤ 4
  latchRem_le : d.latchRem.toNat ≤ 32
  cursor_lt : d.cursor < max 1 d.mask.length
  pos_le : d.pos ≤ d.code.length
  rem_le : d.remInGroup.toNat ≤ d.dpg.toNat
  rem_eq : d.remInGroup.toNat =
    groupRem d.dpg.toNat ((d.code.take d.pos).filter fun c => (valOfChar c).isSome).length
  mask_le : d.mask.length ≤ p.maskMax
  code_le : d.code.length ≤ p.codeMax

/-- What holds of the block between host transactions: both units, the widths of the staging length registers
(10_state.md R40), the canonical form of the staging memories within their spaces (20_memory.md R60), and the width of
`rsp_int` (30_encoding.md R84). -/
structure State.Inv (s : State) : Prop where
  enc : s.enc.Inv s.par
  dec : s.dec.Inv s.par
  emaskLen_lt : s.estg.maskLen < 2 ^ s.par.mlenW
  dmaskLen_lt : s.dstg.maskLen < 2 ^ s.par.mlenW
  codeLen_lt : s.dstg.codeLen < 2 ^ s.par.clenW
  emask_wf : Memory.wf s.emask = true
  dmask_wf : Memory.wf s.dmask = true
  dcode_wf : Memory.wf s.dcode = true
  emask_addr : ∀ c ∈ s.emask, c.1 < s.par.maskMax
  dmask_addr : ∀ c ∈ s.dmask, c.1 < s.par.maskMax
  dcode_addr : ∀ c ∈ s.dcode, c.1 < s.par.codeMax
  rspInt_lt : ∀ r, s.rsp = some r → ∀ v, r.int = some v → v < 2 ^ s.par.intW

/-! ## Mirror sequences -/

/-- One write operation of a message, with its operands (42_decoder.md R190). -/
inductive Msg where
  | bit (b : Bool)
  | int (signed : Bool) (opMin opMax opVal : Nat)
  | chk
  | chkn (n : Word32)
deriving DecidableEq, Repr

/-- The command that writes it. -/
def Msg.writeInstr : Msg → Instr
  | .bit b => .eWbit b
  | .int sg _ _ _ => .eWint sg
  | .chk => .eWchk
  | .chkn _ => .eWchkn

/-- The command that mirrors it: `D.RBIT` for `E.WBIT`, `D.RINT` for `E.WINT`, `D.RCHK` for `E.WCHK`, `D.RCHKN n` for
`E.WCHKN n` (42_decoder.md R190). -/
def Msg.readInstr : Msg → Instr
  | .bit _ => .dRbit
  | .int sg _ _ _ => .dRint sg
  | .chk => .dRchk
  | .chkn _ => .dRchkn

/-- The operand ports of either command. -/
def Msg.ports : Msg → Ports
  | .bit _ => { opMin := 0, opMax := 0, opVal := 0, opN := 0#32 }
  | .int _ lo hi v => { opMin := lo, opMax := hi, opVal := v, opN := 0#32 }
  | .chk => { opMin := 0, opMax := 0, opVal := 0, opN := 0#32 }
  | .chkn n => { opMin := 0, opMax := 0, opVal := 0, opN := n }

/-- The response the mirror command must give: the bit written, the clamped value written, or no result
(42_decoder.md R190). -/
def Msg.reply (w : Nat) : Msg → Response
  | .bit b => rspDoneBit b
  | .int sg lo hi v =>
    let r := normRange (intOf w sg lo) (intOf w sg hi)
    rspDoneInt (patOf w (r.clamp (intOf w sg v)))
  | .chk => rspDone
  | .chkn _ => rspDone

/-- The state after one command with its ports, or the state itself where the command does not answer a next state. -/
def issue (s : State) (i : Instr) (q : Ports) : State := (stateAfter (exec i (s.withPorts q))).getD s

/-- The state after a message is written, in order. -/
def writeAll (s : State) (ms : List Msg) : State := ms.foldl (fun s m => issue s m.writeInstr m.ports) s

/-- The state after the mirror sequence is read, in order. -/
def readAll (s : State) (ms : List Msg) : State := ms.foldl (fun s m => issue s m.readInstr m.ports) s

/-- The responses the mirror sequence gives, in order. -/
def readReplies (s : State) : List Msg → List (Option Response)
  | [] => []
  | m :: ms =>
    let t := issue s m.readInstr m.ports
    t.rsp :: readReplies t ms

/-- The state after a list of data bits is written one `E.WBIT` at a time (41_encoder.md R142). -/
def writeBits (s : State) (bs : List Bool) : State := bs.foldl (fun s b => issue s (.eWbit b) s.ports) s

/-- The state after the same command is issued `n` times with the ports as they stand. -/
def issueTimes (i : Instr) : Nat → State → State
  | 0, s => s
  | n + 1, s => issueTimes i n (issue s i s.ports)

end Sys2Proof.Machine
end

