-- ==== Sys2Proof/Certificates/Slice0/Obligations.lean ====
section
/-! DEFINITION. The statements of this row, from the numbered rules of spec/. Each docstring names the rule or section it
formalises; where a clause is the model's own choice it names the log entry. -/

open Sys2Proof Sys2Proof.Machine

/-! ## Encoding -/

/-- 30_encoding.md R85, R91: the word of every command decodes to that command. -/
def Obligations.DecodeOfEncode : Prop := ∀ i : Instr, decodeWord (encode i) = .ok i

/-- 30_encoding.md R85: a word decodes to a command exactly when it is the word of that command, so no word has two
readings and no legal word but the 18 encoded ones exists. -/
def Obligations.WordDecodesIffEncoded : Prop :=
  ∀ (w : CmdWord) (i : Instr), decodeWord w = .ok i ↔ w = encode i

/-- 30_encoding.md R86, the conditions under which a word is illegal, and R85, the table: a word decodes exactly when a
row selects it, to the command of that row; 238 of the 256 words are illegal. -/
def Obligations.IllegalWordsAsListed : Prop :=
  (∀ w : CmdWord, legalInstr w = none ↔
    (w.getLsbD 6 = true ∨
     (w.getLsbD 7 = false ∧ 0x7 ≤ w.toNat % 16) ∨
     (w.getLsbD 7 = true ∧ (w.toNat % 16 = 0x6 ∨ w.toNat % 16 = 0x7 ∨ 0xA ≤ w.toNat % 16)) ∨
     (w.getLsbD 4 = true ∧ ¬ (w.getLsbD 7 = false ∧ w.toNat % 16 = 0x1)) ∨
     (w.getLsbD 5 = true ∧ ¬ (w.toNat % 16 = 0x2)))) ∧
  (∀ w : CmdWord, legalInstr w = none ↔ ∀ r ∈ opcodeTable, w &&& r.mask ≠ r.pattern) ∧
  (∀ w : CmdWord, ∀ r ∈ opcodeTable, w &&& r.mask = r.pattern →
    (legalInstr w).map Instr.mnemonic = some r.mnemonic) ∧
  ((List.range 256).filter fun n => (legalInstr (BitVec.ofNat 8 n)).isNone).length = 238

/-- 30_encoding.md R91 and 95_test_vectors.md 2.8: words written out from the spec's encodings decode to what they stand
for. -/
def Obligations.WrittenWordsDecode : Prop :=
  legalInstr 0x00#8 = some .eInit ∧ legalInstr 0x01#8 = some (.eWbit false) ∧
  legalInstr 0x11#8 = some (.eWbit true) ∧ legalInstr 0x22#8 = some (.eWint true) ∧
  legalInstr 0x05#8 = some .eResult ∧ legalInstr 0x81#8 = some .dRbit ∧
  legalInstr 0xA2#8 = some (.dRint true) ∧ legalInstr 0x85#8 = some .dFinish ∧
  legalInstr 0x88#8 = some .dC2b ∧ legalInstr 0x89#8 = some .dAc2b ∧
  legalInstr 0x21#8 = none ∧ legalInstr 0x41#8 = none ∧ legalInstr 0x91#8 = none ∧ legalInstr 0x07#8 = none

/-! ## A step serves one host transaction -/

/-- A step runs the decoded command: when the host presents a word that decodes to `i` and no response is pending, the
step is `exec i` with the transaction consumed and the ports sampled (30_encoding.md sections 1 and 2). That a step
serves one transaction of a list held in the state is the model's choice (log 2). -/
def Obligations.StepRunsAcceptedCommand : Prop :=
  ∀ (s : State) (c : Command) (rest : List HostOp) (i : Instr),
    s.host = .command c :: rest → s.rsp = none → decodeWord c.word = .ok i →
      step s = exec i ((s.withHost rest).withPorts c.ports)

/-- 60_exceptions.md R231 (and the response of R86): an illegal word is answered `ILLEGAL`; neither unit, nor the
status, nor `FATAL`, nor any staging or stream changes. -/
def Obligations.IllegalWordChangesNothing : Prop :=
  ∀ (s : State) (c : Command) (rest : List HostOp) (e : DecodeError),
    s.running → s.host = .command c :: rest → s.rsp = none → decodeWord c.word = .error e →
      step s = .next (((s.withHost rest).withPorts c.ports).withRsp (rspOnly .illegal))

/-- 30_encoding.md R87: while `FATAL = 1` every word, legal or not, is answered `HALTED` and changes no state; `HALTED`
takes precedence over `ILLEGAL`. The same for every command executed. -/
def Obligations.HaltedAnswersEveryWord : Prop :=
  (∀ (s : State) (c : Command) (rest : List HostOp),
    s.fatal = true → s.host = .command c :: rest → s.rsp = none →
      step s = .next (((s.withHost rest).withPorts c.ports).withRsp (rspOnly .halted))) ∧
  (∀ (i : Instr) (s : State), s.fatal = true → exec i s = .next (s.withRsp (rspOnly .halted)))

/-- 30_encoding.md section 1, the handshake: a command waits while a response is pending, and the host taking the
response makes the block ready again. That a waiting step changes nothing, that the host is one sequence, and
that taking a response while none is pending has no effect is the model's choice (log 4). -/
def Obligations.HandshakeHoldsCommands : Prop :=
  (∀ (s : State) (c : Command) (rest : List HostOp) (r : Response),
    s.host = .command c :: rest → s.rsp = some r → step s = .next s) ∧
  (∀ (s : State) (rest : List HostOp), s.host = .takeRsp :: rest →
    ∃ t, step s = .next t ∧ t.cmdReady = true ∧ t.host = rest ∧ t.enc = s.enc ∧ t.dec = s.dec ∧
      t.fatal = s.fatal ∧ t.dbits = s.dbits) ∧
  (∀ (i : Instr) (s t : State), exec i s = .next t → t.rspValid = true ∧ t.cmdReady = false)

/-! ## Encoder commands -/

/-- 70_reset_and_hazards.md R251: `E.INIT`, word 0x00, copies the staged parameters, sets every working register to its
construction value and restarts the output, whatever the staging holds; nothing else changes. -/
def Obligations.EInitConstructsEncoder : Prop :=
  decodeWord 0x00#8 = .ok .eInit ∧
  ∀ s : State, s.running →
    ∃ t, exec .eInit s = .next t ∧ t = (s.withEnc t.enc).withRsp rspDone ∧
      t.enc.mask.length = s.estg.maskLen ∧
      (∀ a, a < s.estg.maskLen → t.enc.mask[a]? = some (s.maskCell .enc a)) ∧
      t.enc.dpg = s.estg.dpg ∧ t.enc.padGroup = s.estg.round.getLsbD 0 ∧
      t.enc.padChecks = s.estg.round.getLsbD 1 ∧
      t.enc.crc = 0xFFFFFFFF#32 ∧ t.enc.latch = 0#32 ∧ t.enc.latchRem = 0#6 ∧ t.enc.cursor = 0 ∧
      t.enc.acc = 0#5 ∧ t.enc.nbits = 0#3 ∧ t.enc.remInGroup = 0#7 ∧ t.enc.checkCount = 0#32 ∧ t.enc.out = []

/-- 41_encoder.md R140 (with 40_primitives.md R100, R112, R114 to R116, R121): `E.WBIT b`, word `0x01 | (b << 4)`,
updates the check with `b` itself, invalidates the latch and emits `b` through scrambler and symbol codec. Frame: the
latch contents, the counter and the construction parameters of ENC, and everything outside ENC, are unchanged. -/
def Obligations.EWbitWritesDataBit : Prop :=
  (∀ b : Bool, decodeWord (0x01#8 ||| (if b then 0x10#8 else 0x00#8)) = .ok (.eWbit b)) ∧
  ∀ (b : Bool) (s : State), s.running →
    ∃ t, exec (.eWbit b) s = .next t ∧ t = (s.withEnc t.enc).withRsp rspDone ∧
      t.enc.crc = (if b then 0xEDB88320#32 else 0#32) ^^^ (s.enc.crc >>> 1) ∧
      t.enc.latchRem = 0#6 ∧ t.enc.latch = s.enc.latch ∧ t.enc.checkCount = s.enc.checkCount ∧
      RawBitEmitted b s.enc t.enc

/-- 41_encoder.md R142, R143: `E.WINT`, word `0x02 | (S << 5)`, is the sequence of `E.WBIT`s for the bits, most
significant first, of the clamped value less the smaller bound, in the least width that holds the span. Frame: nothing
outside ENC changes. -/
def Obligations.EWintWritesOffsetBits : Prop :=
  (∀ sg : Bool, decodeWord (0x02#8 ||| (if sg then 0x20#8 else 0x00#8)) = .ok (.eWint sg)) ∧
  ∀ (sg : Bool) (s : State), s.running →
    let lo := min (intOf s.par.intW sg s.ports.opMin) (intOf s.par.intW sg s.ports.opMax)
    let hi := max (intOf s.par.intW sg s.ports.opMin) (intOf s.par.intW sg s.ports.opMax)
    let v := max lo (min hi (intOf s.par.intW sg s.ports.opVal))
    ∃ bs t, exec (.eWint sg) s = .next t ∧ t = (s.withEnc t.enc).withRsp rspDone ∧
      t.enc = (writeBits s bs).enc ∧
      hi - lo < 2 ^ bs.length ∧ (∀ w : Nat, hi - lo < 2 ^ w → bs.length ≤ w) ∧
      (bitsValue bs : Int) = v - lo

/-- 41_encoder.md R144, first clause: equal bounds write nothing; no register of ENC changes, the latch included. -/
def Obligations.EWintEqualBoundsWriteNothing : Prop :=
  ∀ (sg : Bool) (s : State), s.running →
    intOf s.par.intW sg s.ports.opMin = intOf s.par.intW sg s.ports.opMax →
      exec (.eWint sg) s = .next (s.withRsp rspDone)

/-- 41_encoder.md R146 (with 40_primitives.md R117, R120): `E.WCHK`, word 0x03, takes a snapshot if no latch bit
remains, emits bit 0 of the latch, shifts it and counts it; the running check is not written. Frame: nothing outside ENC
changes. -/
def Obligations.EWchkEmitsLatchBit : Prop :=
  decodeWord 0x03#8 = .ok .eWchk ∧
  ∀ s : State, s.running →
    ∃ t, exec .eWchk s = .next t ∧ t = (s.withEnc t.enc).withRsp rspDone ∧
      RawBitEmitted ((if s.enc.latchRem = 0#6 then s.enc.crc else s.enc.latch).getLsbD 0) s.enc t.enc ∧
      t.enc.crc = s.enc.crc ∧ t.enc.checkCount = s.enc.checkCount + 1#32 ∧
      t.enc.latch = (if s.enc.latchRem = 0#6 then s.enc.crc else s.enc.latch) >>> 1 ∧
      t.enc.latchRem = (if s.enc.latchRem = 0#6 then 32#6 else s.enc.latchRem) - 1#6

/-- 41_encoder.md R148: `E.WCHKN n`, word 0x04, is `n` successive `E.WCHK`s and nothing more, so `n = 0` does nothing,
and `E.WCHKN n` followed by `E.WCHKN m` equals `E.WCHKN n+m`. Frame: nothing outside ENC changes. -/
def Obligations.EWchknRepeatsEWchk : Prop :=
  decodeWord 0x04#8 = .ok .eWchkn ∧
  (∀ s : State, s.running →
    ∃ t, exec .eWchkn s = .next t ∧ t = (s.withEnc t.enc).withRsp rspDone ∧
      t.enc = (issueTimes .eWchk s.ports.opN.toNat s).enc ∧
      (s.ports.opN = 0#32 → t.enc = s.enc)) ∧
  (∀ (s : State) (n m : Nat), s.running → n + m < 2 ^ 32 →
    (issue (issue s .eWchkn { s.ports with opN := BitVec.ofNat 32 n }) .eWchkn
        { s.ports with opN := BitVec.ofNat 32 m }).enc =
      (issue s .eWchkn { s.ports with opN := BitVec.ofNat 32 (n + m) }).enc)

/-- 40_primitives.md section 5 (the sentence that the k-th check bit is bit `k mod 32` of the running check, an
inference the spec marks as derived): after `k` check bits from an invalidated latch, the next one is `crc[k mod 32]`;
the check is untouched and the counter has grown by `k`. -/
def Obligations.CheckBitsRunRoundTheCheck : Prop :=
  ∀ (s : State) (k : Nat), s.running → s.enc.latchRem = 0#6 →
    let t := issueTimes .eWchk k s
    (if t.enc.latchRem = 0#6 then t.enc.crc else t.enc.latch).getLsbD 0 = s.enc.crc.getLsbD (k % 32) ∧
      t.enc.crc = s.enc.crc ∧ t.enc.checkCount = s.enc.checkCount + BitVec.ofNat 32 k

/-- 41_encoder.md R150, R151 and the pad count of section "E.RESULT": `E.RESULT`, word 0x05, appends exactly the pad
bits due, scrambled, to the wire bits; the string keeps the grouped form of 30_encoding.md R94 over the alphabet; it
ends on a symbol boundary and, if padding to a group, on a group boundary; the running check and the parameters stay,
the counter counts check-content pad bits only, and zero-content padding leaves the latch alone. Frame: nothing outside
ENC changes. The premise is the invariant of 10_state.md section 6. -/
def Obligations.EResultPadsToBoundary : Prop :=
  decodeWord 0x05#8 = .ok .eResult ∧
  ∀ s : State, s.running → s.enc.Inv s.par →
    ∃ t, exec .eResult s = .next t ∧ t = (s.withEnc t.enc).withRsp rspDone ∧
      t.enc.wireBits = s.enc.wireBits ++
        xorMask s.enc.mask s.enc.cursor ((List.range s.enc.padCount).map s.enc.padBitAt) ∧
      t.enc.nbits = 0#3 ∧ t.enc.acc = 0#5 ∧ (s.enc.padGroup = true → t.enc.remInGroup = 0#7) ∧
      t.enc.crc = s.enc.crc ∧ s.enc.sameParams t.enc ∧ t.enc.Inv s.par ∧
      t.enc.checkCount =
        (if s.enc.padChecks then s.enc.checkCount + BitVec.ofNat 32 s.enc.padCount else s.enc.checkCount) ∧
      (s.enc.padChecks = false → t.enc.latch = s.enc.latch ∧ t.enc.latchRem = s.enc.latchRem)

/-- 41_encoder.md R152, its property by construction: a second `E.RESULT` with nothing in between emits nothing and
leaves the same string. -/
def Obligations.SecondEResultEmitsNothing : Prop :=
  ∀ s t : State, s.running → s.enc.Inv s.par → exec .eResult s = .next t →
    exec .eResult t = .next (t.withRsp rspDone)

/-- 41_encoder.md R154: `E.NCHK` returns the counter and writes nothing. -/
def Obligations.ENchkReturnsCounter : Prop :=
  ∀ s : State, s.running →
    ∃ t r, exec .eNchk s = .next t ∧ t = s.withRsp r ∧ r.kind = .done ∧ r.cnt = some s.enc.checkCount

/-- 41_encoder.md R156: no encoder command can fail; each is answered `DONE`, and touches neither DEC nor `FATAL`. -/
def Obligations.EncoderCommandsNeverFail : Prop :=
  ∀ (i : Instr) (s : State), encCommand i = true → s.running →
    ∃ t r, exec i s = .next t ∧ t.rsp = some r ∧ r.kind = .done ∧ t.dec = s.dec ∧ t.fatal = false

/-! ## Decoder commands -/

/-- 70_reset_and_hazards.md R252: `D.INIT`, word 0x80, copies the staged parameters and the staged code, sets every
working register to its construction value and the status to `OKAY`, whatever the old status; nothing else changes,
`FATAL` included. No command but `D.INIT`, `D.C2B` and `D.AC2B` clears a status. -/
def Obligations.DInitConstructsDecoder : Prop :=
  decodeWord 0x80#8 = .ok .dInit ∧
  (∀ (i : Instr) (s t : State), exec i s = .next t → s.dec.status ≠ .okay → t.dec.status = .okay →
    i ∈ [.dInit, .dC2b, .dAc2b]) ∧
  ∀ s : State, s.running →
    ∃ t, exec .dInit s = .next t ∧ t = (s.withDec t.dec).withRsp rspDone ∧
      t.dec.mask.length = s.dstg.maskLen ∧
      (∀ a, a < s.dstg.maskLen → t.dec.mask[a]? = some (s.maskCell .dec a)) ∧
      t.dec.code.length = s.dstg.codeLen ∧
      (∀ a, a < s.dstg.codeLen → t.dec.code[a]? = some (s.codeCell a)) ∧
      t.dec.dpg = s.dstg.dpg ∧ t.dec.padGroup = s.dstg.round.getLsbD 0 ∧
      t.dec.padChecks = s.dstg.round.getLsbD 1 ∧
      t.dec.crc = 0xFFFFFFFF#32 ∧ t.dec.latch = 0#32 ∧ t.dec.latchRem = 0#6 ∧ t.dec.cursor = 0 ∧
      t.dec.sym = 0#5 ∧ t.dec.bitsLeft = 0#3 ∧ t.dec.remInGroup = 0#7 ∧ t.dec.pos = 0 ∧ t.dec.status = .okay

/-- 42_decoder.md R172 (with 40_primitives.md R118, R122, R124): `D.RBIT`, word 0x81. When a bit can be read it returns
the next descrambled bit, updates the check with it and invalidates the latch; a held symbol loses one bit, otherwise a
symbol is fetched and counted into its group. When none can, it records `BAD_DIGIT` if an unmappable character is in the
way, else `TOO_SHORT`, returns 0, and touches neither the check nor the latch. Frame: nothing outside DEC changes, nor
the parameters. -/
def Obligations.DRbitReturnsNextBit : Prop :=
  decodeWord 0x81#8 = .ok .dRbit ∧
  (∀ (s : State) (b : Bool) (bs : List Bool),
    s.safe → s.dec.cursor < max 1 s.dec.mask.length → s.dec.inputBits = b :: bs →
      ∃ t, exec .dRbit s = .next t ∧ t = (s.withDec t.dec).withRsp (rspDoneBit b) ∧
        t.dec.inputBits = bs ∧ t.dec.status = .okay ∧
        t.dec.crc = (if b then 0xEDB88320#32 else 0#32) ^^^ (s.dec.crc >>> 1) ∧
        t.dec.latchRem = 0#6 ∧ t.dec.latch = s.dec.latch ∧ s.dec.sameParams t.dec ∧
        t.dec.cursor = (if s.dec.mask = [] then s.dec.cursor else (s.dec.cursor + 1) % s.dec.mask.length) ∧
        (s.dec.bitsLeft ≠ 0#3 → t.dec.bitsLeft = s.dec.bitsLeft - 1#3 ∧ t.dec.sym = s.dec.sym ∧
          t.dec.pos = s.dec.pos ∧ t.dec.remInGroup = s.dec.remInGroup) ∧
        (s.dec.bitsLeft = 0#3 → t.dec.bitsLeft = 4#3 ∧ s.dec.pos < t.dec.pos ∧
          t.dec.remInGroup =
            if s.dec.dpg = 0#7 then s.dec.remInGroup
            else (if s.dec.remInGroup = 0#7 then s.dec.dpg else s.dec.remInGroup) - 1#7)) ∧
  (∀ s : State, s.safe → s.dec.inputBits = [] →
    ∃ t, exec .dRbit s = .next t ∧ t = (s.withDec t.dec).withRsp (rspDoneBit false) ∧
      t.dec.status = shortfall (s.dec.code.drop s.dec.pos) ∧
      t.dec.crc = s.dec.crc ∧ t.dec.latch = s.dec.latch ∧ t.dec.latchRem = s.dec.latchRem ∧
      t.dec.cursor = s.dec.cursor ∧ s.dec.sameParams t.dec)

/-- 42_decoder.md R174, R176: `D.RINT` reads as many data bits as the span needs; it returns the value they stand for
plus the smaller bound if that is in range, and otherwise records `OUT_OF_RANGE` and returns the larger bound. Either
way the bits are consumed, the check updated and, if there was a bit, the latch invalidated. Frame: nothing outside DEC
changes. -/
def Obligations.DRintReadsValue : Prop :=
  ∀ (sg : Bool) (s : State) (bs rest : List Bool),
    s.safe → s.dec.cursor < max 1 s.dec.mask.length → s.dec.inputBits = bs ++ rest →
    let lo := min (intOf s.par.intW sg s.ports.opMin) (intOf s.par.intW sg s.ports.opMax)
    let hi := max (intOf s.par.intW sg s.ports.opMin) (intOf s.par.intW sg s.ports.opMax)
    hi - lo < 2 ^ bs.length → (∀ w : Nat, hi - lo < 2 ^ w → bs.length ≤ w) →
      ∃ t, exec (.dRint sg) s = .next t ∧
        t = (s.withDec t.dec).withRsp
          (rspDoneInt (patOf s.par.intW (if (bitsValue bs : Int) ≤ hi - lo then bitsValue bs + lo else hi))) ∧
        t.dec.status = (if (bitsValue bs : Int) ≤ hi - lo then .okay else .outOfRange) ∧
        t.dec.inputBits = rest ∧ t.dec.crc = crcOver s.dec.crc bs ∧
        t.dec.latchRem = (if bs = [] then s.dec.latchRem else 0#6) ∧ t.dec.latch = s.dec.latch ∧
        s.dec.sameParams t.dec

/-- 42_decoder.md R178: when the input ends inside the integer, `D.RINT` records the error of the failing bit, returns
the larger bound, and the bits read before it have updated the check. -/
def Obligations.DRintEndsAtFailingBit : Prop :=
  ∀ (sg : Bool) (s : State), s.safe → s.dec.cursor < max 1 s.dec.mask.length →
    let lo := min (intOf s.par.intW sg s.ports.opMin) (intOf s.par.intW sg s.ports.opMax)
    let hi := max (intOf s.par.intW sg s.ports.opMin) (intOf s.par.intW sg s.ports.opMax)
    2 ^ s.dec.inputBits.length ≤ hi - lo →
      ∃ t, exec (.dRint sg) s = .next t ∧
        t = (s.withDec t.dec).withRsp (rspDoneInt (patOf s.par.intW hi)) ∧
        t.dec.status = shortfall (s.dec.code.drop s.dec.pos) ∧
        t.dec.crc = crcOver s.dec.crc s.dec.inputBits ∧ s.dec.sameParams t.dec

/-- 42_decoder.md R177, first clause: with equal bounds `D.RINT` reads nothing, changes no register of DEC and returns
the bound. -/
def Obligations.DRintEqualBoundsReadNothing : Prop :=
  ∀ (sg : Bool) (s : State), s.running →
    intOf s.par.intW sg s.ports.opMin = intOf s.par.intW sg s.ports.opMax →
      exec (.dRint sg) s =
        .next (s.withRsp (rspDoneInt (patOf s.par.intW (intOf s.par.intW sg s.ports.opMin))))

/-- 42_decoder.md R180 (with 40_primitives.md R120, R123): `D.RCHK`, word 0x83, takes the check bit due, reads the
actual bit, and records `BAD_CHECK_BIT` exactly if they differ; if no bit can be read it records that error instead. The
check is not updated. Frame: nothing outside DEC changes. -/
def Obligations.DRchkVerifiesBit : Prop :=
  decodeWord 0x83#8 = .ok .dRchk ∧
  (∀ (s : State) (a : Bool) (bs : List Bool),
    s.safe → s.dec.cursor < max 1 s.dec.mask.length → s.dec.inputBits = a :: bs →
      let due := (if s.dec.latchRem = 0#6 then s.dec.crc else s.dec.latch).getLsbD 0
      ∃ t, exec .dRchk s = .next t ∧ t = (s.withDec t.dec).withRsp rspDone ∧
        t.dec.status = (if a = due then .okay else .badCheckBit) ∧
        t.dec.inputBits = bs ∧ t.dec.crc = s.dec.crc ∧
        t.dec.latch = (if s.dec.latchRem = 0#6 then s.dec.crc else s.dec.latch) >>> 1 ∧
        t.dec.latchRem = (if s.dec.latchRem = 0#6 then 32#6 else s.dec.latchRem) - 1#6 ∧
        s.dec.sameParams t.dec) ∧
  (∀ s : State, s.safe → s.dec.inputBits = [] →
    ∃ t, exec .dRchk s = .next t ∧ t = (s.withDec t.dec).withRsp rspDone ∧
      t.dec.status = shortfall (s.dec.code.drop s.dec.pos) ∧ t.dec.crc = s.dec.crc ∧ s.dec.sameParams t.dec)

/-- 42_decoder.md R182: `D.RCHKN n` with the next `n` bits equal to the check bits due consumes them and leaves the
status `OKAY`; the check bits due afterwards are the ones that follow. Frame: nothing outside DEC changes, nor the
check. -/
def Obligations.DRchknVerifiesBits : Prop :=
  ∀ s : State, s.safe → s.dec.cursor < max 1 s.dec.mask.length →
    (∀ k, k < s.ports.opN.toNat →
      s.dec.inputBits[k]? = some (checkBitAt s.dec.crc s.dec.latch s.dec.latchRem k)) →
      ∃ t, exec .dRchkn s = .next t ∧ t = (s.withDec t.dec).withRsp rspDone ∧
        t.dec.status = .okay ∧ t.dec.inputBits = s.dec.inputBits.drop s.ports.opN.toNat ∧
        t.dec.crc = s.dec.crc ∧ s.dec.sameParams t.dec ∧
        (∀ k, checkBitAt t.dec.crc t.dec.latch t.dec.latchRem k =
          checkBitAt s.dec.crc s.dec.latch s.dec.latchRem (k + s.ports.opN.toNat))

/-- 42_decoder.md section D.RCHKN and 60_exceptions.md R221: the first failing bit ends `D.RCHKN`, with `BAD_CHECK_BIT`
if a bit differs and the error of the missing symbol if the input ends first; the check is untouched. -/
def Obligations.DRchknStopsAtFirstFailure : Prop :=
  ∀ (s : State) (j : Nat), s.safe → s.dec.cursor < max 1 s.dec.mask.length → j < s.ports.opN.toNat →
    (∀ k, k < j → s.dec.inputBits[k]? = some (checkBitAt s.dec.crc s.dec.latch s.dec.latchRem k)) →
    s.dec.inputBits[j]? ≠ some (checkBitAt s.dec.crc s.dec.latch s.dec.latchRem j) →
      ∃ t, exec .dRchkn s = .next t ∧ t = (s.withDec t.dec).withRsp rspDone ∧
        t.dec.status =
          (if s.dec.inputBits[j]? = none then shortfall (s.dec.code.drop s.dec.pos) else .badCheckBit) ∧
        t.dec.crc = s.dec.crc ∧ s.dec.sameParams t.dec

/-- 42_decoder.md R183, R184, R186: when the next bits are the pad bits due and no symbol follows the padding,
`D.FINISH` returns `OKAY` with the symbol and, if padding to a group, the group complete and the input at its end; the
check is not updated. The premise on `remInGroup` is part of 10_state.md section 6. Frame: nothing outside DEC changes.
-/
def Obligations.DFinishAcceptsPadding : Prop :=
  ∀ s : State, s.safe → s.dec.cursor < max 1 s.dec.mask.length → s.dec.pos ≤ s.dec.code.length →
    (s.dec.dpg = 0#7 → s.dec.remInGroup = 0#7) →
    (∀ k, k < s.dec.padCount → s.dec.inputBits[k]? = some (s.dec.padBitAt k)) →
    (symbolsOf (s.dec.code.drop s.dec.pos)).length =
      (if s.dec.padGroup then s.dec.remInGroup.toNat else 0) →
      ∃ t, exec .dFinish s = .next t ∧ t = (s.withDec t.dec).withRsp (rspDoneStatus .okay) ∧
        t.dec.status = .okay ∧ t.dec.bitsLeft = 0#3 ∧ (s.dec.padGroup = true → t.dec.remInGroup = 0#7) ∧
        t.dec.pos = s.dec.code.length ∧ t.dec.crc = s.dec.crc ∧ s.dec.sameParams t.dec

/-- 42_decoder.md section D.FINISH and 60_exceptions.md section 3, the order of errors: a wrong pad bit gives
`BAD_CHECK_BIT`; padding that ends early gives the error of the missing symbol; right padding with a symbol after it
gives `TOO_LONG`. In each case the status returned is the one recorded. -/
def Obligations.DFinishReportsFirstError : Prop :=
  ∀ s : State, s.safe → s.dec.cursor < max 1 s.dec.mask.length →
    (s.dec.dpg = 0#7 → s.dec.remInGroup = 0#7) →
    let ends (e : Status) : Prop :=
      ∃ t, exec .dFinish s = .next t ∧ t = (s.withDec t.dec).withRsp (rspDoneStatus e) ∧ t.dec.status = e ∧
        t.dec.crc = s.dec.crc ∧ s.dec.sameParams t.dec
    (∀ j, j < s.dec.padCount → (∀ k, k < j → s.dec.inputBits[k]? = some (s.dec.padBitAt k)) →
      s.dec.inputBits[j]? = some (!s.dec.padBitAt j) → ends .badCheckBit) ∧
    (s.dec.inputBits.length < s.dec.padCount →
      (∀ k, k < s.dec.inputBits.length → s.dec.inputBits[k]? = some (s.dec.padBitAt k)) →
      ends (shortfall (s.dec.code.drop s.dec.pos))) ∧
    ((∀ k, k < s.dec.padCount → s.dec.inputBits[k]? = some (s.dec.padBitAt k)) →
      (if s.dec.padGroup then s.dec.remInGroup.toNat else 0) < (symbolsOf (s.dec.code.drop s.dec.pos)).length →
      ends .tooLong)

/-- 42_decoder.md R188: after a `D.FINISH` that returned `OKAY`, a second one finds nothing to do and returns `OKAY`
again, and a `D.RBIT` raises `TOO_SHORT` and returns 0; after an error a second `D.FINISH` is gated. -/
def Obligations.AfterFinish : Prop :=
  ∀ s t : State, s.running → exec .dFinish s = .next t →
    (t.dec.status = .okay →
      exec .dFinish t = .next (t.withRsp (rspDoneStatus .okay)) ∧
      ∃ u, exec .dRbit t = .next u ∧ u.rsp = some (rspDoneBit false) ∧ u.dec.status = .tooShort) ∧
    (t.dec.status ≠ .okay → exec .dFinish t = .next (t.withRsp (rspDoneStatus t.dec.status)))

/-- 42_decoder.md R170, R171: with a status other than `OKAY` each of the five reading commands changes no register, is
answered `DONE`, and returns its default result; the gate does not apply to `D.INIT`, `D.C2B` and `D.AC2B`, whose effect
does not depend on the old instance. -/
def Obligations.GatedCommandsDoNothing : Prop :=
  (∀ (i : Instr) (s : State) (d : Dec), i ∈ [.dInit, .dC2b, .dAc2b] → s.running →
    ∃ t u, exec i s = .next t ∧ exec i (s.withDec d) = .next u ∧ t = u) ∧
  ∀ s : State, s.running → s.dec.status ≠ .okay →
    exec .dRbit s = .next (s.withRsp (rspDoneBit false)) ∧
    (∀ sg, exec (.dRint sg) s = .next (s.withRsp (rspDoneInt (patOf s.par.intW
      (max (intOf s.par.intW sg s.ports.opMin) (intOf s.par.intW sg s.ports.opMax)))))) ∧
    exec .dRchk s = .next (s.withRsp rspDone) ∧
    exec .dRchkn s = .next (s.withRsp rspDone) ∧
    exec .dFinish s = .next (s.withRsp (rspDoneStatus s.dec.status))

/-- 60_exceptions.md R223: the status of an instance in error is changed by no step but one that accepts a construction
of DEC (`D.INIT`, `D.C2B`, `D.AC2B`) or asserts hardware reset, and no other step changes any register of DEC then. -/
def Obligations.ErrorEndsOnlyByConstruction : Prop :=
  ∀ s t : State, step s = .next t → s.dec.status ≠ .okay → t.dec ≠ s.dec →
    (∃ rest, s.host = .hardReset :: rest) ∨
    (∃ c, s.presents c ∧ (c.word = 0x80#8 ∨ c.word = 0x88#8 ∨ c.word = 0x89#8))

/-- 60_exceptions.md section 1, the table of causes: each command raises only the errors listed for it, and the encoder
commands and `D.INIT` raise none. -/
def Obligations.CommandsRaiseOnlyTheirErrors : Prop :=
  ∀ (i : Instr) (s t : State), exec i s = .next t → s.dec.status = .okay → t.dec.status ≠ .okay →
    t.dec.status ∈ mayRaise i

/-! ## Composite commands and FATAL -/

/-- 43_code_to_bits.md R212: `D.C2B`, word 0x88, constructs DEC with the staged code, the empty mask, `dpg = 0` and
`ZERO_TO_DIGIT`; the other staging of DEC is ignored and left unchanged. Frame: only DEC and `DBITS` change. -/
def Obligations.DC2bUsesDefaultSettings : Prop :=
  decodeWord 0x88#8 = .ok .dC2b ∧
  ∀ s : State, s.running →
    ∃ t r, exec .dC2b s = .next t ∧ t = ((s.withDec t.dec).withDbits t.dbits).withRsp r ∧ r.kind = .done ∧
      t.dec.code = s.readCode s.dstg.codeLen ∧ t.dec.mask = [] ∧ t.dec.dpg = 0#7 ∧ t.dec.padGroup = false ∧
      t.dec.padChecks = false ∧
      (∀ (dpg : BitVec 7) (round : BitVec 2) (maskLen : Nat) (m : List (Nat × Bool)),
        ∃ u, exec .dC2b ((s.withDstg { s.dstg with dpg := dpg, round := round, maskLen := maskLen }).withDmask m) =
            .next u ∧ u.dec = t.dec ∧ u.dbits = t.dbits ∧ u.rsp = t.rsp)

/-- 43_code_to_bits.md R210, R211 (with the inference that only two errors are possible): `D.C2B` leaves in `DBITS` the
bits of the symbols before the end of the staged code or its first unmappable character, and returns `OKAY` or
`BAD_DIGIT`; the status left is `TOO_SHORT` or `BAD_DIGIT`. It is not gated by the old status. -/
def Obligations.DC2bDecodesStagedCode : Prop :=
  ∀ s : State, s.running →
    let code := s.readCode s.dstg.codeLen
    ∃ t, exec .dC2b s = .next t ∧
      t = ((s.withDec t.dec).withDbits (stringBits code)).withRsp
        (rspDoneStatus (if hasBadChar code then .badDigit else .okay)) ∧
      t.dec.status = (if hasBadChar code then .badDigit else .tooShort) ∧
      t.dec.crc = crcOver 0xFFFFFFFF#32 (stringBits code)

/-- 43_code_to_bits.md R213: `D.AC2B`, word 0x89, does what `D.C2B` does and then sets `FATAL` if the status returned is
not `OKAY`; its own response is still `DONE`, with `BAD_DIGIT` when it sets `FATAL`. Frame: only DEC, `DBITS` and
`FATAL` change. -/
def Obligations.DAc2bHaltsOnBadCode : Prop :=
  decodeWord 0x89#8 = .ok .dAc2b ∧
  ∀ s : State, s.running →
    ∃ t u st, exec .dAc2b s = .next t ∧ exec .dC2b s = .next u ∧ t = u.withFatal (st != .okay) ∧
      t = (((s.withDec t.dec).withDbits t.dbits).withFatal t.fatal).withRsp (rspDoneStatus st) ∧
      (t.fatal = true ↔ st = .badDigit)

/-- 10_state.md R39 and 60_exceptions.md R229, how `FATAL` is set: only by a step that accepts `D.AC2B`, which answers
`BAD_DIGIT` and leaves that status. -/
def Obligations.FatalSetOnlyByAc2b : Prop :=
  ∀ s t : State, step s = .next t → s.fatal = false → t.fatal = true →
    (∃ c, s.presents c ∧ c.word = 0x89#8) ∧ t.dec.status = .badDigit ∧
      t.rsp = some (rspDoneStatus .badDigit)

/-- 60_exceptions.md R229, how `FATAL` is cleared: only by hardware reset; and while it is set no other step changes
either unit. -/
def Obligations.FatalClearedOnlyByReset : Prop :=
  ∀ s t : State, step s = .next t → s.fatal = true → (∀ rest, s.host ≠ .hardReset :: rest) →
    t.fatal = true ∧ t.enc = s.enc ∧ t.dec = s.dec ∧ t.dbits = s.dbits

/-- 20_memory.md section 4 (an inference the spec marks as derived): a command of one unit answers the same, and leaves
the same unit, whatever the other unit and its staging hold, and does not touch the other unit. -/
def Obligations.UnitsDoNotInteract : Prop :=
  (∀ (i : Instr) (s u : State), encCommand i = true →
    s.par = u.par → s.fatal = u.fatal → s.ports = u.ports → s.epoch = u.epoch →
    s.enc = u.enc → s.estg = u.estg → s.emask = u.emask →
      ∃ t v, exec i s = .next t ∧ exec i u = .next v ∧ t.enc = v.enc ∧ t.rsp = v.rsp ∧ t.fatal = v.fatal ∧
        t.dec = s.dec ∧ v.dec = u.dec ∧ t.dbits = s.dbits) ∧
  (∀ (i : Instr) (s u : State), encCommand i = false →
    s.par = u.par → s.fatal = u.fatal → s.ports = u.ports → s.epoch = u.epoch →
    s.dec = u.dec → s.dstg = u.dstg → s.dmask = u.dmask → s.dcode = u.dcode → s.dbits = u.dbits →
      ∃ t v, exec i s = .next t ∧ exec i u = .next v ∧ t.dec = v.dec ∧ t.rsp = v.rsp ∧ t.fatal = v.fatal ∧
        t.dbits = v.dbits ∧ t.enc = s.enc ∧ v.enc = u.enc)

/-! ## Staging, registers, reset -/

/-- 10_state.md R42, its first sentence: writes to staging registers and staging memories never change a running
instance, nor `FATAL`, the streams or a pending response. -/
def Obligations.StagingWritesSpareInstances : Prop :=
  ∀ (s t : State) (w : StagingWrite) (rest : List HostOp), s.host = .write w :: rest → step s = .next t →
    t.enc = s.enc ∧ t.dec = s.dec ∧ t.fatal = s.fatal ∧ t.dbits = s.dbits ∧ t.rsp = s.rsp ∧ t.host = rest

/-- 10_state.md R40: each number of the table reads the register the table names; a write of a read-write register,
which a step serves, keeps the bits of its width and reads back; it changes no other register and nothing outside
staging; a register number outside the table reads 0 and ignores writes. That a write of a read-only register is ignored
is read from the access column (log 18). -/
def Obligations.RegistersReadBack : Prop :=
  (∀ s : State,
    s.regRead 0x00 = s.estg.dpg.toNat ∧ s.regRead 0x01 = s.estg.round.toNat ∧ s.regRead 0x02 = s.estg.maskLen ∧
    s.regRead 0x03 = s.enc.checkCount.toNat ∧
    s.regRead 0x10 = s.dstg.dpg.toNat ∧ s.regRead 0x11 = s.dstg.round.toNat ∧ s.regRead 0x12 = s.dstg.maskLen ∧
    s.regRead 0x13 = s.dstg.codeLen ∧
    s.regRead 0x14 = (statusCode s.dec.status).toNat ∧ s.regRead 0x1F = if s.fatal then 1 else 0) ∧
  (∀ (s : State) (num data : Nat) (rest : List HostOp), s.host = .write (.reg num data) :: rest →
    step s = .next ((s.withHost rest).regWrite num data)) ∧
  ∀ (s : State) (num data : Nat),
    (∃ e d, s.regWrite num data = (s.withEstg e).withDstg d) ∧
    (num = 0x00 ∨ num = 0x10 → (s.regWrite num data).regRead num = data % 2 ^ 7) ∧
    (num = 0x01 ∨ num = 0x11 → (s.regWrite num data).regRead num = data % 2 ^ 2) ∧
    (num = 0x02 ∨ num = 0x12 → (s.regWrite num data).regRead num = data % 2 ^ s.par.mlenW) ∧
    (num = 0x13 → (s.regWrite num data).regRead num = data % 2 ^ s.par.clenW) ∧
    (num ∉ [0x00, 0x01, 0x02, 0x10, 0x11, 0x12, 0x13] → s.regWrite num data = s) ∧
    (num ∉ [0x00, 0x01, 0x02, 0x03, 0x10, 0x11, 0x12, 0x13, 0x14, 0x1F] → s.regRead num = 0) ∧
    (∀ m, m ≠ num → (s.regWrite num data).regRead m = s.regRead m)

/-- 10_state.md R43: the three windows return what the last command left, with the codes of 60_exceptions.md section 1; a
read puts the register on the host's own read data and changes nothing else, a host write leaves the windows as they
were, `E.NCHK` returns what `E_CHECK_COUNT` reads, and `D.FINISH` returns what `D_STATUS` reads after it. No other
working register is readable. -/
def Obligations.WindowsShowWorkingState : Prop :=
  (∀ (s : State) (num : Nat) (rest : List HostOp), s.host = .readReg num :: rest →
    ∃ t, step s = .next t ∧ t = (s.withHost rest).withRdata t.rdata ∧ t.rdata = s.regRead num ∧
      (num = 0x03 → t.rdata = s.enc.checkCount.toNat) ∧
      (num = 0x14 → t.rdata = (statusCode s.dec.status).toNat) ∧
      (num = 0x1F → t.rdata = if s.fatal then 1 else 0)) ∧
  (∀ (s t : State) (w : StagingWrite) (rest : List HostOp), s.host = .write w :: rest → step s = .next t →
    ∀ num ∈ [0x03, 0x14, 0x1F], t.regRead num = s.regRead num) ∧
  (statusCode .okay = 0#3 ∧ statusCode .badDigit = 1#3 ∧ statusCode .badCheckBit = 2#3 ∧ statusCode .tooShort = 3#3 ∧
    statusCode .tooLong = 4#3 ∧ statusCode .outOfRange = 5#3) ∧
  (∀ s t : State, s.running → exec .eNchk s = .next t →
    t.pinCnt.toNat = s.regRead 0x03) ∧
  (∀ s t : State, s.running → exec .dFinish s = .next t → t.pinStatus.toNat = t.regRead 0x14) ∧
  (∀ (s u : State) (num : Nat), s.estg = u.estg → s.dstg = u.dstg → s.enc.checkCount = u.enc.checkCount →
    s.dec.status = u.dec.status → s.fatal = u.fatal → s.regRead num = u.regRead num)

/-- 20_memory.md R60, the staging cells a host can reach: a written cell reads back what was written, every other cell
of every space reads as before, and a read puts the cell on the bus. That an unwritten cell holds a free value is log 8.
-/
def Obligations.StagingCellsReadBack : Prop :=
  (∀ (s : State) (u : Side) (a : Nat) (b : Bool) (rest : List HostOp),
    a < s.par.maskMax → s.host = .write (.mask u a b) :: rest →
      ∃ t, step s = .next t ∧ t.maskCell u a = b ∧
        (∀ u' a', (u', a') ≠ (u, a) → t.maskCell u' a' = s.maskCell u' a') ∧ (∀ a', t.codeCell a' = s.codeCell a')) ∧
  (∀ (s : State) (a : Nat) (c : Chr) (rest : List HostOp),
    a < s.par.codeMax → s.host = .write (.code a c) :: rest →
      ∃ t, step s = .next t ∧ t.codeCell a = c ∧ (∀ a', a' ≠ a → t.codeCell a' = s.codeCell a') ∧
        (∀ u a', t.maskCell u a' = s.maskCell u a')) ∧
  (∀ (s : State) (u : Side) (a : Nat) (rest : List HostOp),
    a < s.par.maskMax → s.host = .readMask u a :: rest →
      step s = .next ((s.withHost rest).withRdata (if s.maskCell u a then 1 else 0))) ∧
  (∀ (s : State) (a : Nat) (rest : List HostOp),
    a < s.par.codeMax → s.host = .readCode a :: rest →
      step s = .next ((s.withHost rest).withRdata (s.codeCell a).toNat))

/-- The model's choice (log 9): a host access to a staging cell outside the addresses of 20_memory.md section 1 faults.
-/
def Obligations.MissingCellsFault : Prop :=
  (∀ (s : State) (u : Side) (a : Nat) (rest : List HostOp), s.par.maskMax ≤ a →
    (s.host = .readMask u a :: rest ∨ ∃ b, s.host = .write (.mask u a b) :: rest) →
      step s = .fault .noSuchMaskCell) ∧
  (∀ (s : State) (a : Nat) (rest : List HostOp), s.par.codeMax ≤ a →
    (s.host = .readCode a :: rest ∨ ∃ c, s.host = .write (.code a c) :: rest) →
      step s = .fault .noSuchCodeCell)

/-- The model's choice (log 10), after 20_memory.md section 4 and 93_implementation_defined.md U6: a write of a staging
register or of a staging cell that overlaps a construction command is refused; one that overlaps any other command has its
effect, and the command runs in that state, which it cannot disturb; a write of any other register number is ignored,
whatever it overlaps, and a construction then runs; a write of a cell that does not exist faults; a word answered
`HALTED` or `ILLEGAL` lets the write have its effect. -/
def Obligations.OverlapRefusedOnlyForConstruction : Prop :=
  (∀ (s : State) (c : Command) (w : StagingWrite) (rest : List HostOp) (i : Instr),
    s.running → s.rsp = none → s.host = .overlapped c w :: rest → decodeWord c.word = .ok i →
    i ∈ [.eInit, .dInit, .dC2b, .dAc2b] →
    ((∃ num data, w = .reg num data ∧ num ∈ [0x00, 0x01, 0x02, 0x10, 0x11, 0x12, 0x13]) ∨
     (∃ u a b, w = .mask u a b ∧ a < s.par.maskMax) ∨ (∃ a ch, w = .code a ch ∧ a < s.par.codeMax)) →
      step s = .refused .stagingOverlap) ∧
  (∀ (s : State) (c : Command) (num data : Nat) (rest : List HostOp) (i : Instr),
    s.rsp = none → s.host = .overlapped c (.reg num data) :: rest → decodeWord c.word = .ok i →
    num ∉ [0x00, 0x01, 0x02, 0x10, 0x11, 0x12, 0x13] →
      step s = exec i ((s.withHost rest).withPorts c.ports)) ∧
  (∀ (s : State) (c : Command) (num data : Nat) (rest : List HostOp) (i : Instr),
    s.rsp = none → s.host = .overlapped c (.reg num data) :: rest → decodeWord c.word = .ok i →
    i ∉ [.eInit, .dInit, .dC2b, .dAc2b] →
      step s = exec i (((s.withHost rest).withPorts c.ports).regWrite num data)) ∧
  (∀ (s : State) (c : Command) (u : Side) (a : Nat) (b : Bool) (rest : List HostOp) (i : Instr),
    s.rsp = none → s.host = .overlapped c (.mask u a b) :: rest → decodeWord c.word = .ok i →
    i ∉ [.eInit, .dInit, .dC2b, .dAc2b] → a < s.par.maskMax →
      step s = exec i (((s.withHost rest).withPorts c.ports).writeMaskCell u a b)) ∧
  (∀ (s : State) (c : Command) (a : Nat) (ch : Chr) (rest : List HostOp) (i : Instr),
    s.rsp = none → s.host = .overlapped c (.code a ch) :: rest → decodeWord c.word = .ok i →
    i ∉ [.eInit, .dInit, .dC2b, .dAc2b] → a < s.par.codeMax →
      step s = exec i (((s.withHost rest).withPorts c.ports).writeCodeCell a ch)) ∧
  (∀ (s : State) (c : Command) (w : StagingWrite) (rest : List HostOp),
    s.rsp = none → s.host = .overlapped c w :: rest →
      ((∃ u a b, w = .mask u a b ∧ s.par.maskMax ≤ a) → step s = .fault .noSuchMaskCell) ∧
      ((∃ a ch, w = .code a ch ∧ s.par.codeMax ≤ a) → step s = .fault .noSuchCodeCell)) ∧
  (∀ (s t : State) (c : Command) (w : StagingWrite) (rest : List HostOp),
    s.rsp = none → s.host = .overlapped c w :: rest →
    ((s.withHost rest).withPorts c.ports).stagingWrite w = .next t →
      (s.fatal = true → step s = .next (t.withRsp (rspOnly .halted))) ∧
      (s.fatal = false → legalInstr c.word = none → step s = .next (t.withRsp (rspOnly .illegal))))

/-- 70_reset_and_hazards.md R253: hardware reset clears the staging registers and `FATAL`, empties `DBITS`, and leaves
both units as `E.INIT` and `D.INIT` with all-zero staging do; after it `E.RESULT` returns the empty string, `D.FINISH`
returns `OKAY`, and `D.RBIT` raises `TOO_SHORT`. Frame: the parameters and the transactions to come. -/
def Obligations.HardResetConstructsBoth : Prop :=
  ∀ (s : State) (rest : List HostOp), s.host = .hardReset :: rest →
    ∃ t, step s = .next t ∧ t.host = rest ∧ t.par = s.par ∧ t.fatal = false ∧ t.dbits = [] ∧
      t.estg = { dpg := 0#7, round := 0#2, maskLen := 0 } ∧
      t.dstg = { dpg := 0#7, round := 0#2, maskLen := 0, codeLen := 0 } ∧
      t.enc = (issue t .eInit t.ports).enc ∧ t.dec = (issue t .dInit t.ports).dec ∧
      (∃ u, exec .eResult t = .next u ∧ u.enc.out = []) ∧
      (∃ u, exec .dFinish t = .next u ∧ u.rsp = some (rspDoneStatus .okay)) ∧
      (∃ u, exec .dRbit t = .next u ∧ u.dec.status = .tooShort)

/-- 10_state.md R46, the column of values after hardware reset: what every register, flag and stream the table names
holds in the reset state, every register read through its number among them. -/
def Obligations.ResetValues : Prop :=
  State.reset.enc.crc = 0xFFFFFFFF#32 ∧ State.reset.dec.crc = 0xFFFFFFFF#32 ∧
  State.reset.enc.latchRem = 0#6 ∧ State.reset.dec.latchRem = 0#6 ∧
  State.reset.enc.latch = 0#32 ∧ State.reset.dec.latch = 0#32 ∧
  State.reset.enc.cursor = 0 ∧ State.reset.dec.cursor = 0 ∧
  State.reset.enc.acc = 0#5 ∧ State.reset.enc.nbits = 0#3 ∧
  State.reset.dec.sym = 0#5 ∧ State.reset.dec.bitsLeft = 0#3 ∧
  State.reset.enc.remInGroup = 0#7 ∧ State.reset.dec.remInGroup = 0#7 ∧
  State.reset.enc.out = [] ∧ State.reset.enc.checkCount = 0#32 ∧
  State.reset.dec.pos = 0 ∧ State.reset.dec.status = .okay ∧
  State.reset.enc.mask = [] ∧ State.reset.dec.mask = [] ∧ State.reset.dec.code = [] ∧
  State.reset.enc.dpg = 0#7 ∧ State.reset.dec.dpg = 0#7 ∧
  State.reset.enc.padGroup = false ∧ State.reset.enc.padChecks = false ∧
  State.reset.dec.padGroup = false ∧ State.reset.dec.padChecks = false ∧
  (∀ num, State.reset.regRead num = 0) ∧ State.reset.fatal = false ∧ State.reset.dbits = []

/-! ## The invariant, and the round trip -/

/-- 10_state.md section 6: the invariant holds after reset. -/
def Obligations.ResetMeetsInvariant : Prop := State.reset.Inv

/-- 10_state.md section 6 (what holds between commands, an inference the spec marks as derived), with the widths of the
registers, the strict form of 30_encoding.md section 6 and the canonical form of the staging memories (log 8): every
step keeps it. -/
def Obligations.StepKeepsInvariant : Prop := ∀ s t : State, s.Inv → step s = .next t → t.Inv

/-- 42_decoder.md section "Properties of the pair", the round trip (an inference the spec marks as derived): construct
an encoder, write any message, and finalise; construct a decoder with the same mask, grouping and round mode on the
string written, and issue the mirror sequence: every response is the value written, and `D.FINISH` returns `OKAY`. -/
def Obligations.MirrorSequenceRoundTrips : Prop :=
  ∀ (s u : State) (ms : List Msg), s.running → u.running → u.par = s.par →
    let e := issue (writeAll (issue s .eInit s.ports) ms) .eResult s.ports
    u.dstg.dpg = s.estg.dpg → u.dstg.round = s.estg.round →
    u.readMask .dec u.dstg.maskLen = s.readMask .enc s.estg.maskLen →
    u.readCode u.dstg.codeLen = e.enc.out →
      let d := issue u .dInit u.ports
      readReplies d ms = ms.map (fun m => some (m.reply s.par.intW)) ∧
        ∃ t, exec .dFinish (readAll d ms) = .next t ∧ t.rsp = some (rspDoneStatus .okay)

/-! ## Primitives -/

/-- 40_primitives.md section 4, the closed form (an inference the spec marks as derived): the running check over a list
of data bits from the construction value. -/
def Obligations.CrcClosedForm : Prop := ∀ bs : List Bool, crcOver 0xFFFFFFFF#32 bs = crcClosed bs

/-- 40_primitives.md section 4 and 70_reset_and_hazards.md section 3 (inferences the spec marks as derived): the running
check depends on the last 32 data bits only. -/
def Obligations.CrcForgetsOldBits : Prop :=
  ∀ (s : Word32) (old bs : List Bool), 32 ≤ bs.length → crcOver s (old ++ bs) = crcOver 0#32 bs

/-- 40_primitives.md sections 1 and 2 (the two tables in full, whose order, aliases and separator are the spec's own
decisions D9, D10, D11 and D12, and the properties it marks as derived): the symbol of each value; the value of each
character, letters in either case, the six digits of the alphabet, the aliases of 0, 1 and 5, and none elsewhere; the
space is the one separator; every symbol decodes to its own value, no symbol is an excluded character or a separator, the
aliases agree with their letters, '4' is invalid, and 195 of the 256 characters are invalid. -/
def Obligations.SymbolTablesAgree : Prop :=
  (∀ v : SymVal, v.toNat < 26 → symOfVal v = BitVec.ofNat 8 (0x41 + v.toNat)) ∧
  (symOfVal 26#5 = 0x32#8 ∧ symOfVal 27#5 = 0x33#8 ∧ symOfVal 28#5 = 0x36#8 ∧ symOfVal 29#5 = 0x37#8 ∧
    symOfVal 30#5 = 0x38#8 ∧ symOfVal 31#5 = 0x39#8) ∧
  (∀ c : Chr, valOfChar c =
    if 0x41 ≤ c.toNat ∧ c.toNat ≤ 0x5A then some (BitVec.ofNat 5 (c.toNat - 0x41))
    else if 0x61 ≤ c.toNat ∧ c.toNat ≤ 0x7A then some (BitVec.ofNat 5 (c.toNat - 0x61))
    else [(0x30#8, 14#5), (0x31#8, 8#5), (0x32#8, 26#5), (0x33#8, 27#5), (0x35#8, 18#5), (0x36#8, 28#5), (0x37#8, 29#5),
      (0x38#8, 30#5), (0x39#8, 31#5)].lookup c) ∧
  (∀ c : Chr, isSeparator c = true ↔ c = 0x20#8) ∧
  (∀ v : SymVal, valOfChar (symOfVal v) = some v ∧ isSeparator (symOfVal v) = false ∧
    symOfVal v ∉ [0x30#8, 0x31#8, 0x34#8, 0x35#8]) ∧
  (∀ c : Chr, 0x41 ≤ c.toNat → c.toNat ≤ 0x5A → valOfChar (c + 0x20#8) = valOfChar c) ∧
  valOfChar 0x30#8 = valOfChar 0x4F#8 ∧ valOfChar 0x31#8 = valOfChar 0x49#8 ∧ valOfChar 0x35#8 = valOfChar 0x53#8 ∧
  valOfChar 0x34#8 = none ∧
  ((List.range 256).filter fun n => (valOfChar (BitVec.ofNat 8 n)).isNone).length = 195

/-- 40_primitives.md R127: `width(span)` is the least `w` with `2^w > span`, so it is 0 for 0 and at most `INT_W` for
spans that fit. -/
def Obligations.WidthIsLeast : Prop :=
  ∀ span : Nat, span < 2 ^ widthOf span ∧ (∀ w, span < 2 ^ w → widthOf span ≤ w) ∧ widthOf 0 = 0

/-- 00_scope.md R10, the integers of patterns: `int_S` is in the stated range and `pat` undoes it, for every width of at
least 1. -/
def Obligations.PatternsStandForIntegers : Prop :=
  ∀ (w v : Nat) (sg : Bool), 1 ≤ w → v < 2 ^ w →
    patOf w (intOf w sg v) = v ∧
    (sg = false → 0 ≤ intOf w sg v ∧ intOf w sg v < 2 ^ w) ∧
    (sg = true → -(2 ^ (w - 1) : Int) ≤ intOf w sg v ∧ intOf w sg v < 2 ^ (w - 1))
end

