-- ==== Sys2Proof/Laws/State.lean ====
section
/-! SUPPORT. What each named update of State leaves in each field, one lemma per field per update, true by rfl. -/

namespace Sys2Proof.Machine

/-! ## withEnc -/

@[simp] theorem State.withEnc_par (s : State) (e : Enc) : (s.withEnc e).par = s.par := rfl
@[simp] theorem State.withEnc_enc (s : State) (e : Enc) : (s.withEnc e).enc = e := rfl
@[simp] theorem State.withEnc_dec (s : State) (e : Enc) : (s.withEnc e).dec = s.dec := rfl
@[simp] theorem State.withEnc_fatal (s : State) (e : Enc) : (s.withEnc e).fatal = s.fatal := rfl
@[simp] theorem State.withEnc_estg (s : State) (e : Enc) : (s.withEnc e).estg = s.estg := rfl
@[simp] theorem State.withEnc_dstg (s : State) (e : Enc) : (s.withEnc e).dstg = s.dstg := rfl
@[simp] theorem State.withEnc_emask (s : State) (e : Enc) : (s.withEnc e).emask = s.emask := rfl
@[simp] theorem State.withEnc_dmask (s : State) (e : Enc) : (s.withEnc e).dmask = s.dmask := rfl
@[simp] theorem State.withEnc_dcode (s : State) (e : Enc) : (s.withEnc e).dcode = s.dcode := rfl
@[simp] theorem State.withEnc_dbits (s : State) (e : Enc) : (s.withEnc e).dbits = s.dbits := rfl
@[simp] theorem State.withEnc_ports (s : State) (e : Enc) : (s.withEnc e).ports = s.ports := rfl
@[simp] theorem State.withEnc_rsp (s : State) (e : Enc) : (s.withEnc e).rsp = s.rsp := rfl
@[simp] theorem State.withEnc_rspNo (s : State) (e : Enc) : (s.withEnc e).rspNo = s.rspNo := rfl
@[simp] theorem State.withEnc_rdata (s : State) (e : Enc) : (s.withEnc e).rdata = s.rdata := rfl
@[simp] theorem State.withEnc_host (s : State) (e : Enc) : (s.withEnc e).host = s.host := rfl
@[simp] theorem State.withEnc_epoch (s : State) (e : Enc) : (s.withEnc e).epoch = s.epoch := rfl

/-! ## withDec -/

@[simp] theorem State.withDec_par (s : State) (d : Dec) : (s.withDec d).par = s.par := rfl
@[simp] theorem State.withDec_enc (s : State) (d : Dec) : (s.withDec d).enc = s.enc := rfl
@[simp] theorem State.withDec_dec (s : State) (d : Dec) : (s.withDec d).dec = d := rfl
@[simp] theorem State.withDec_fatal (s : State) (d : Dec) : (s.withDec d).fatal = s.fatal := rfl
@[simp] theorem State.withDec_estg (s : State) (d : Dec) : (s.withDec d).estg = s.estg := rfl
@[simp] theorem State.withDec_dstg (s : State) (d : Dec) : (s.withDec d).dstg = s.dstg := rfl
@[simp] theorem State.withDec_emask (s : State) (d : Dec) : (s.withDec d).emask = s.emask := rfl
@[simp] theorem State.withDec_dmask (s : State) (d : Dec) : (s.withDec d).dmask = s.dmask := rfl
@[simp] theorem State.withDec_dcode (s : State) (d : Dec) : (s.withDec d).dcode = s.dcode := rfl
@[simp] theorem State.withDec_dbits (s : State) (d : Dec) : (s.withDec d).dbits = s.dbits := rfl
@[simp] theorem State.withDec_ports (s : State) (d : Dec) : (s.withDec d).ports = s.ports := rfl
@[simp] theorem State.withDec_rsp (s : State) (d : Dec) : (s.withDec d).rsp = s.rsp := rfl
@[simp] theorem State.withDec_rspNo (s : State) (d : Dec) : (s.withDec d).rspNo = s.rspNo := rfl
@[simp] theorem State.withDec_rdata (s : State) (d : Dec) : (s.withDec d).rdata = s.rdata := rfl
@[simp] theorem State.withDec_host (s : State) (d : Dec) : (s.withDec d).host = s.host := rfl
@[simp] theorem State.withDec_epoch (s : State) (d : Dec) : (s.withDec d).epoch = s.epoch := rfl

/-! ## withFatal -/

@[simp] theorem State.withFatal_par (s : State) (b : Bool) : (s.withFatal b).par = s.par := rfl
@[simp] theorem State.withFatal_enc (s : State) (b : Bool) : (s.withFatal b).enc = s.enc := rfl
@[simp] theorem State.withFatal_dec (s : State) (b : Bool) : (s.withFatal b).dec = s.dec := rfl
@[simp] theorem State.withFatal_fatal (s : State) (b : Bool) : (s.withFatal b).fatal = b := rfl
@[simp] theorem State.withFatal_estg (s : State) (b : Bool) : (s.withFatal b).estg = s.estg := rfl
@[simp] theorem State.withFatal_dstg (s : State) (b : Bool) : (s.withFatal b).dstg = s.dstg := rfl
@[simp] theorem State.withFatal_emask (s : State) (b : Bool) : (s.withFatal b).emask = s.emask := rfl
@[simp] theorem State.withFatal_dmask (s : State) (b : Bool) : (s.withFatal b).dmask = s.dmask := rfl
@[simp] theorem State.withFatal_dcode (s : State) (b : Bool) : (s.withFatal b).dcode = s.dcode := rfl
@[simp] theorem State.withFatal_dbits (s : State) (b : Bool) : (s.withFatal b).dbits = s.dbits := rfl
@[simp] theorem State.withFatal_ports (s : State) (b : Bool) : (s.withFatal b).ports = s.ports := rfl
@[simp] theorem State.withFatal_rsp (s : State) (b : Bool) : (s.withFatal b).rsp = s.rsp := rfl
@[simp] theorem State.withFatal_rspNo (s : State) (b : Bool) : (s.withFatal b).rspNo = s.rspNo := rfl
@[simp] theorem State.withFatal_rdata (s : State) (b : Bool) : (s.withFatal b).rdata = s.rdata := rfl
@[simp] theorem State.withFatal_host (s : State) (b : Bool) : (s.withFatal b).host = s.host := rfl
@[simp] theorem State.withFatal_epoch (s : State) (b : Bool) : (s.withFatal b).epoch = s.epoch := rfl

/-! ## withEstg -/

@[simp] theorem State.withEstg_par (s : State) (r : EncStaging) : (s.withEstg r).par = s.par := rfl
@[simp] theorem State.withEstg_enc (s : State) (r : EncStaging) : (s.withEstg r).enc = s.enc := rfl
@[simp] theorem State.withEstg_dec (s : State) (r : EncStaging) : (s.withEstg r).dec = s.dec := rfl
@[simp] theorem State.withEstg_fatal (s : State) (r : EncStaging) : (s.withEstg r).fatal = s.fatal := rfl
@[simp] theorem State.withEstg_estg (s : State) (r : EncStaging) : (s.withEstg r).estg = r := rfl
@[simp] theorem State.withEstg_dstg (s : State) (r : EncStaging) : (s.withEstg r).dstg = s.dstg := rfl
@[simp] theorem State.withEstg_emask (s : State) (r : EncStaging) : (s.withEstg r).emask = s.emask := rfl
@[simp] theorem State.withEstg_dmask (s : State) (r : EncStaging) : (s.withEstg r).dmask = s.dmask := rfl
@[simp] theorem State.withEstg_dcode (s : State) (r : EncStaging) : (s.withEstg r).dcode = s.dcode := rfl
@[simp] theorem State.withEstg_dbits (s : State) (r : EncStaging) : (s.withEstg r).dbits = s.dbits := rfl
@[simp] theorem State.withEstg_ports (s : State) (r : EncStaging) : (s.withEstg r).ports = s.ports := rfl
@[simp] theorem State.withEstg_rsp (s : State) (r : EncStaging) : (s.withEstg r).rsp = s.rsp := rfl
@[simp] theorem State.withEstg_rspNo (s : State) (r : EncStaging) : (s.withEstg r).rspNo = s.rspNo := rfl
@[simp] theorem State.withEstg_rdata (s : State) (r : EncStaging) : (s.withEstg r).rdata = s.rdata := rfl
@[simp] theorem State.withEstg_host (s : State) (r : EncStaging) : (s.withEstg r).host = s.host := rfl
@[simp] theorem State.withEstg_epoch (s : State) (r : EncStaging) : (s.withEstg r).epoch = s.epoch := rfl

/-! ## withDstg -/

@[simp] theorem State.withDstg_par (s : State) (r : DecStaging) : (s.withDstg r).par = s.par := rfl
@[simp] theorem State.withDstg_enc (s : State) (r : DecStaging) : (s.withDstg r).enc = s.enc := rfl
@[simp] theorem State.withDstg_dec (s : State) (r : DecStaging) : (s.withDstg r).dec = s.dec := rfl
@[simp] theorem State.withDstg_fatal (s : State) (r : DecStaging) : (s.withDstg r).fatal = s.fatal := rfl
@[simp] theorem State.withDstg_estg (s : State) (r : DecStaging) : (s.withDstg r).estg = s.estg := rfl
@[simp] theorem State.withDstg_dstg (s : State) (r : DecStaging) : (s.withDstg r).dstg = r := rfl
@[simp] theorem State.withDstg_emask (s : State) (r : DecStaging) : (s.withDstg r).emask = s.emask := rfl
@[simp] theorem State.withDstg_dmask (s : State) (r : DecStaging) : (s.withDstg r).dmask = s.dmask := rfl
@[simp] theorem State.withDstg_dcode (s : State) (r : DecStaging) : (s.withDstg r).dcode = s.dcode := rfl
@[simp] theorem State.withDstg_dbits (s : State) (r : DecStaging) : (s.withDstg r).dbits = s.dbits := rfl
@[simp] theorem State.withDstg_ports (s : State) (r : DecStaging) : (s.withDstg r).ports = s.ports := rfl
@[simp] theorem State.withDstg_rsp (s : State) (r : DecStaging) : (s.withDstg r).rsp = s.rsp := rfl
@[simp] theorem State.withDstg_rspNo (s : State) (r : DecStaging) : (s.withDstg r).rspNo = s.rspNo := rfl
@[simp] theorem State.withDstg_rdata (s : State) (r : DecStaging) : (s.withDstg r).rdata = s.rdata := rfl
@[simp] theorem State.withDstg_host (s : State) (r : DecStaging) : (s.withDstg r).host = s.host := rfl
@[simp] theorem State.withDstg_epoch (s : State) (r : DecStaging) : (s.withDstg r).epoch = s.epoch := rfl

/-! ## withEmask -/

@[simp] theorem State.withEmask_par (s : State) (m : List (Nat × Bool)) : (s.withEmask m).par = s.par := rfl
@[simp] theorem State.withEmask_enc (s : State) (m : List (Nat × Bool)) : (s.withEmask m).enc = s.enc := rfl
@[simp] theorem State.withEmask_dec (s : State) (m : List (Nat × Bool)) : (s.withEmask m).dec = s.dec := rfl
@[simp] theorem State.withEmask_fatal (s : State) (m : List (Nat × Bool)) : (s.withEmask m).fatal = s.fatal := rfl
@[simp] theorem State.withEmask_estg (s : State) (m : List (Nat × Bool)) : (s.withEmask m).estg = s.estg := rfl
@[simp] theorem State.withEmask_dstg (s : State) (m : List (Nat × Bool)) : (s.withEmask m).dstg = s.dstg := rfl
@[simp] theorem State.withEmask_emask (s : State) (m : List (Nat × Bool)) : (s.withEmask m).emask = m := rfl
@[simp] theorem State.withEmask_dmask (s : State) (m : List (Nat × Bool)) : (s.withEmask m).dmask = s.dmask := rfl
@[simp] theorem State.withEmask_dcode (s : State) (m : List (Nat × Bool)) : (s.withEmask m).dcode = s.dcode := rfl
@[simp] theorem State.withEmask_dbits (s : State) (m : List (Nat × Bool)) : (s.withEmask m).dbits = s.dbits := rfl
@[simp] theorem State.withEmask_ports (s : State) (m : List (Nat × Bool)) : (s.withEmask m).ports = s.ports := rfl
@[simp] theorem State.withEmask_rsp (s : State) (m : List (Nat × Bool)) : (s.withEmask m).rsp = s.rsp := rfl
@[simp] theorem State.withEmask_rspNo (s : State) (m : List (Nat × Bool)) : (s.withEmask m).rspNo = s.rspNo := rfl
@[simp] theorem State.withEmask_rdata (s : State) (m : List (Nat × Bool)) : (s.withEmask m).rdata = s.rdata := rfl
@[simp] theorem State.withEmask_host (s : State) (m : List (Nat × Bool)) : (s.withEmask m).host = s.host := rfl
@[simp] theorem State.withEmask_epoch (s : State) (m : List (Nat × Bool)) : (s.withEmask m).epoch = s.epoch := rfl

/-! ## withDmask -/

@[simp] theorem State.withDmask_par (s : State) (m : List (Nat × Bool)) : (s.withDmask m).par = s.par := rfl
@[simp] theorem State.withDmask_enc (s : State) (m : List (Nat × Bool)) : (s.withDmask m).enc = s.enc := rfl
@[simp] theorem State.withDmask_dec (s : State) (m : List (Nat × Bool)) : (s.withDmask m).dec = s.dec := rfl
@[simp] theorem State.withDmask_fatal (s : State) (m : List (Nat × Bool)) : (s.withDmask m).fatal = s.fatal := rfl
@[simp] theorem State.withDmask_estg (s : State) (m : List (Nat × Bool)) : (s.withDmask m).estg = s.estg := rfl
@[simp] theorem State.withDmask_dstg (s : State) (m : List (Nat × Bool)) : (s.withDmask m).dstg = s.dstg := rfl
@[simp] theorem State.withDmask_emask (s : State) (m : List (Nat × Bool)) : (s.withDmask m).emask = s.emask := rfl
@[simp] theorem State.withDmask_dmask (s : State) (m : List (Nat × Bool)) : (s.withDmask m).dmask = m := rfl
@[simp] theorem State.withDmask_dcode (s : State) (m : List (Nat × Bool)) : (s.withDmask m).dcode = s.dcode := rfl
@[simp] theorem State.withDmask_dbits (s : State) (m : List (Nat × Bool)) : (s.withDmask m).dbits = s.dbits := rfl
@[simp] theorem State.withDmask_ports (s : State) (m : List (Nat × Bool)) : (s.withDmask m).ports = s.ports := rfl
@[simp] theorem State.withDmask_rsp (s : State) (m : List (Nat × Bool)) : (s.withDmask m).rsp = s.rsp := rfl
@[simp] theorem State.withDmask_rspNo (s : State) (m : List (Nat × Bool)) : (s.withDmask m).rspNo = s.rspNo := rfl
@[simp] theorem State.withDmask_rdata (s : State) (m : List (Nat × Bool)) : (s.withDmask m).rdata = s.rdata := rfl
@[simp] theorem State.withDmask_host (s : State) (m : List (Nat × Bool)) : (s.withDmask m).host = s.host := rfl
@[simp] theorem State.withDmask_epoch (s : State) (m : List (Nat × Bool)) : (s.withDmask m).epoch = s.epoch := rfl

/-! ## withDcode -/

@[simp] theorem State.withDcode_par (s : State) (m : List Host.Cell) : (s.withDcode m).par = s.par := rfl
@[simp] theorem State.withDcode_enc (s : State) (m : List Host.Cell) : (s.withDcode m).enc = s.enc := rfl
@[simp] theorem State.withDcode_dec (s : State) (m : List Host.Cell) : (s.withDcode m).dec = s.dec := rfl
@[simp] theorem State.withDcode_fatal (s : State) (m : List Host.Cell) : (s.withDcode m).fatal = s.fatal := rfl
@[simp] theorem State.withDcode_estg (s : State) (m : List Host.Cell) : (s.withDcode m).estg = s.estg := rfl
@[simp] theorem State.withDcode_dstg (s : State) (m : List Host.Cell) : (s.withDcode m).dstg = s.dstg := rfl
@[simp] theorem State.withDcode_emask (s : State) (m : List Host.Cell) : (s.withDcode m).emask = s.emask := rfl
@[simp] theorem State.withDcode_dmask (s : State) (m : List Host.Cell) : (s.withDcode m).dmask = s.dmask := rfl
@[simp] theorem State.withDcode_dcode (s : State) (m : List Host.Cell) : (s.withDcode m).dcode = m := rfl
@[simp] theorem State.withDcode_dbits (s : State) (m : List Host.Cell) : (s.withDcode m).dbits = s.dbits := rfl
@[simp] theorem State.withDcode_ports (s : State) (m : List Host.Cell) : (s.withDcode m).ports = s.ports := rfl
@[simp] theorem State.withDcode_rsp (s : State) (m : List Host.Cell) : (s.withDcode m).rsp = s.rsp := rfl
@[simp] theorem State.withDcode_rspNo (s : State) (m : List Host.Cell) : (s.withDcode m).rspNo = s.rspNo := rfl
@[simp] theorem State.withDcode_rdata (s : State) (m : List Host.Cell) : (s.withDcode m).rdata = s.rdata := rfl
@[simp] theorem State.withDcode_host (s : State) (m : List Host.Cell) : (s.withDcode m).host = s.host := rfl
@[simp] theorem State.withDcode_epoch (s : State) (m : List Host.Cell) : (s.withDcode m).epoch = s.epoch := rfl

/-! ## withDbits -/

@[simp] theorem State.withDbits_par (s : State) (bs : List Bool) : (s.withDbits bs).par = s.par := rfl
@[simp] theorem State.withDbits_enc (s : State) (bs : List Bool) : (s.withDbits bs).enc = s.enc := rfl
@[simp] theorem State.withDbits_dec (s : State) (bs : List Bool) : (s.withDbits bs).dec = s.dec := rfl
@[simp] theorem State.withDbits_fatal (s : State) (bs : List Bool) : (s.withDbits bs).fatal = s.fatal := rfl
@[simp] theorem State.withDbits_estg (s : State) (bs : List Bool) : (s.withDbits bs).estg = s.estg := rfl
@[simp] theorem State.withDbits_dstg (s : State) (bs : List Bool) : (s.withDbits bs).dstg = s.dstg := rfl
@[simp] theorem State.withDbits_emask (s : State) (bs : List Bool) : (s.withDbits bs).emask = s.emask := rfl
@[simp] theorem State.withDbits_dmask (s : State) (bs : List Bool) : (s.withDbits bs).dmask = s.dmask := rfl
@[simp] theorem State.withDbits_dcode (s : State) (bs : List Bool) : (s.withDbits bs).dcode = s.dcode := rfl
@[simp] theorem State.withDbits_dbits (s : State) (bs : List Bool) : (s.withDbits bs).dbits = bs := rfl
@[simp] theorem State.withDbits_ports (s : State) (bs : List Bool) : (s.withDbits bs).ports = s.ports := rfl
@[simp] theorem State.withDbits_rsp (s : State) (bs : List Bool) : (s.withDbits bs).rsp = s.rsp := rfl
@[simp] theorem State.withDbits_rspNo (s : State) (bs : List Bool) : (s.withDbits bs).rspNo = s.rspNo := rfl
@[simp] theorem State.withDbits_rdata (s : State) (bs : List Bool) : (s.withDbits bs).rdata = s.rdata := rfl
@[simp] theorem State.withDbits_host (s : State) (bs : List Bool) : (s.withDbits bs).host = s.host := rfl
@[simp] theorem State.withDbits_epoch (s : State) (bs : List Bool) : (s.withDbits bs).epoch = s.epoch := rfl

/-! ## withPorts -/

@[simp] theorem State.withPorts_par (s : State) (q : Ports) : (s.withPorts q).par = s.par := rfl
@[simp] theorem State.withPorts_enc (s : State) (q : Ports) : (s.withPorts q).enc = s.enc := rfl
@[simp] theorem State.withPorts_dec (s : State) (q : Ports) : (s.withPorts q).dec = s.dec := rfl
@[simp] theorem State.withPorts_fatal (s : State) (q : Ports) : (s.withPorts q).fatal = s.fatal := rfl
@[simp] theorem State.withPorts_estg (s : State) (q : Ports) : (s.withPorts q).estg = s.estg := rfl
@[simp] theorem State.withPorts_dstg (s : State) (q : Ports) : (s.withPorts q).dstg = s.dstg := rfl
@[simp] theorem State.withPorts_emask (s : State) (q : Ports) : (s.withPorts q).emask = s.emask := rfl
@[simp] theorem State.withPorts_dmask (s : State) (q : Ports) : (s.withPorts q).dmask = s.dmask := rfl
@[simp] theorem State.withPorts_dcode (s : State) (q : Ports) : (s.withPorts q).dcode = s.dcode := rfl
@[simp] theorem State.withPorts_dbits (s : State) (q : Ports) : (s.withPorts q).dbits = s.dbits := rfl
@[simp] theorem State.withPorts_ports (s : State) (q : Ports) : (s.withPorts q).ports = q := rfl
@[simp] theorem State.withPorts_rsp (s : State) (q : Ports) : (s.withPorts q).rsp = s.rsp := rfl
@[simp] theorem State.withPorts_rspNo (s : State) (q : Ports) : (s.withPorts q).rspNo = s.rspNo := rfl
@[simp] theorem State.withPorts_rdata (s : State) (q : Ports) : (s.withPorts q).rdata = s.rdata := rfl
@[simp] theorem State.withPorts_host (s : State) (q : Ports) : (s.withPorts q).host = s.host := rfl
@[simp] theorem State.withPorts_epoch (s : State) (q : Ports) : (s.withPorts q).epoch = s.epoch := rfl

/-! ## withRsp -/

@[simp] theorem State.withRsp_par (s : State) (r : Response) : (s.withRsp r).par = s.par := rfl
@[simp] theorem State.withRsp_enc (s : State) (r : Response) : (s.withRsp r).enc = s.enc := rfl
@[simp] theorem State.withRsp_dec (s : State) (r : Response) : (s.withRsp r).dec = s.dec := rfl
@[simp] theorem State.withRsp_fatal (s : State) (r : Response) : (s.withRsp r).fatal = s.fatal := rfl
@[simp] theorem State.withRsp_estg (s : State) (r : Response) : (s.withRsp r).estg = s.estg := rfl
@[simp] theorem State.withRsp_dstg (s : State) (r : Response) : (s.withRsp r).dstg = s.dstg := rfl
@[simp] theorem State.withRsp_emask (s : State) (r : Response) : (s.withRsp r).emask = s.emask := rfl
@[simp] theorem State.withRsp_dmask (s : State) (r : Response) : (s.withRsp r).dmask = s.dmask := rfl
@[simp] theorem State.withRsp_dcode (s : State) (r : Response) : (s.withRsp r).dcode = s.dcode := rfl
@[simp] theorem State.withRsp_dbits (s : State) (r : Response) : (s.withRsp r).dbits = s.dbits := rfl
@[simp] theorem State.withRsp_ports (s : State) (r : Response) : (s.withRsp r).ports = s.ports := rfl
@[simp] theorem State.withRsp_rsp (s : State) (r : Response) : (s.withRsp r).rsp = some r := rfl
@[simp] theorem State.withRsp_rspNo (s : State) (r : Response) : (s.withRsp r).rspNo = s.rspNo + 1 := rfl
@[simp] theorem State.withRsp_rdata (s : State) (r : Response) : (s.withRsp r).rdata = s.rdata := rfl
@[simp] theorem State.withRsp_host (s : State) (r : Response) : (s.withRsp r).host = s.host := rfl
@[simp] theorem State.withRsp_epoch (s : State) (r : Response) : (s.withRsp r).epoch = s.epoch := rfl

/-! ## withoutRsp -/

@[simp] theorem State.withoutRsp_par (s : State) : (s.withoutRsp).par = s.par := rfl
@[simp] theorem State.withoutRsp_enc (s : State) : (s.withoutRsp).enc = s.enc := rfl
@[simp] theorem State.withoutRsp_dec (s : State) : (s.withoutRsp).dec = s.dec := rfl
@[simp] theorem State.withoutRsp_fatal (s : State) : (s.withoutRsp).fatal = s.fatal := rfl
@[simp] theorem State.withoutRsp_estg (s : State) : (s.withoutRsp).estg = s.estg := rfl
@[simp] theorem State.withoutRsp_dstg (s : State) : (s.withoutRsp).dstg = s.dstg := rfl
@[simp] theorem State.withoutRsp_emask (s : State) : (s.withoutRsp).emask = s.emask := rfl
@[simp] theorem State.withoutRsp_dmask (s : State) : (s.withoutRsp).dmask = s.dmask := rfl
@[simp] theorem State.withoutRsp_dcode (s : State) : (s.withoutRsp).dcode = s.dcode := rfl
@[simp] theorem State.withoutRsp_dbits (s : State) : (s.withoutRsp).dbits = s.dbits := rfl
@[simp] theorem State.withoutRsp_ports (s : State) : (s.withoutRsp).ports = s.ports := rfl
@[simp] theorem State.withoutRsp_rsp (s : State) : (s.withoutRsp).rsp = none := rfl
@[simp] theorem State.withoutRsp_rspNo (s : State) : (s.withoutRsp).rspNo = s.rspNo := rfl
@[simp] theorem State.withoutRsp_rdata (s : State) : (s.withoutRsp).rdata = s.rdata := rfl
@[simp] theorem State.withoutRsp_host (s : State) : (s.withoutRsp).host = s.host := rfl
@[simp] theorem State.withoutRsp_epoch (s : State) : (s.withoutRsp).epoch = s.epoch := rfl

/-! ## withRdata -/

@[simp] theorem State.withRdata_par (s : State) (v : Nat) : (s.withRdata v).par = s.par := rfl
@[simp] theorem State.withRdata_enc (s : State) (v : Nat) : (s.withRdata v).enc = s.enc := rfl
@[simp] theorem State.withRdata_dec (s : State) (v : Nat) : (s.withRdata v).dec = s.dec := rfl
@[simp] theorem State.withRdata_fatal (s : State) (v : Nat) : (s.withRdata v).fatal = s.fatal := rfl
@[simp] theorem State.withRdata_estg (s : State) (v : Nat) : (s.withRdata v).estg = s.estg := rfl
@[simp] theorem State.withRdata_dstg (s : State) (v : Nat) : (s.withRdata v).dstg = s.dstg := rfl
@[simp] theorem State.withRdata_emask (s : State) (v : Nat) : (s.withRdata v).emask = s.emask := rfl
@[simp] theorem State.withRdata_dmask (s : State) (v : Nat) : (s.withRdata v).dmask = s.dmask := rfl
@[simp] theorem State.withRdata_dcode (s : State) (v : Nat) : (s.withRdata v).dcode = s.dcode := rfl
@[simp] theorem State.withRdata_dbits (s : State) (v : Nat) : (s.withRdata v).dbits = s.dbits := rfl
@[simp] theorem State.withRdata_ports (s : State) (v : Nat) : (s.withRdata v).ports = s.ports := rfl
@[simp] theorem State.withRdata_rsp (s : State) (v : Nat) : (s.withRdata v).rsp = s.rsp := rfl
@[simp] theorem State.withRdata_rspNo (s : State) (v : Nat) : (s.withRdata v).rspNo = s.rspNo := rfl
@[simp] theorem State.withRdata_rdata (s : State) (v : Nat) : (s.withRdata v).rdata = v := rfl
@[simp] theorem State.withRdata_host (s : State) (v : Nat) : (s.withRdata v).host = s.host := rfl
@[simp] theorem State.withRdata_epoch (s : State) (v : Nat) : (s.withRdata v).epoch = s.epoch := rfl

/-! ## withHost -/

@[simp] theorem State.withHost_par (s : State) (h : List HostOp) : (s.withHost h).par = s.par := rfl
@[simp] theorem State.withHost_enc (s : State) (h : List HostOp) : (s.withHost h).enc = s.enc := rfl
@[simp] theorem State.withHost_dec (s : State) (h : List HostOp) : (s.withHost h).dec = s.dec := rfl
@[simp] theorem State.withHost_fatal (s : State) (h : List HostOp) : (s.withHost h).fatal = s.fatal := rfl
@[simp] theorem State.withHost_estg (s : State) (h : List HostOp) : (s.withHost h).estg = s.estg := rfl
@[simp] theorem State.withHost_dstg (s : State) (h : List HostOp) : (s.withHost h).dstg = s.dstg := rfl
@[simp] theorem State.withHost_emask (s : State) (h : List HostOp) : (s.withHost h).emask = s.emask := rfl
@[simp] theorem State.withHost_dmask (s : State) (h : List HostOp) : (s.withHost h).dmask = s.dmask := rfl
@[simp] theorem State.withHost_dcode (s : State) (h : List HostOp) : (s.withHost h).dcode = s.dcode := rfl
@[simp] theorem State.withHost_dbits (s : State) (h : List HostOp) : (s.withHost h).dbits = s.dbits := rfl
@[simp] theorem State.withHost_ports (s : State) (h : List HostOp) : (s.withHost h).ports = s.ports := rfl
@[simp] theorem State.withHost_rsp (s : State) (h : List HostOp) : (s.withHost h).rsp = s.rsp := rfl
@[simp] theorem State.withHost_rspNo (s : State) (h : List HostOp) : (s.withHost h).rspNo = s.rspNo := rfl
@[simp] theorem State.withHost_rdata (s : State) (h : List HostOp) : (s.withHost h).rdata = s.rdata := rfl
@[simp] theorem State.withHost_host (s : State) (h : List HostOp) : (s.withHost h).host = h := rfl
@[simp] theorem State.withHost_epoch (s : State) (h : List HostOp) : (s.withHost h).epoch = s.epoch := rfl

end Sys2Proof.Machine
end

