-- ==== Sys2Proof/Laws/Memory.lean ====
section
/-! SUPPORT. The laws of the staging memories: a read after a write, the frame of a write, and the canonical form, which
every memory operation keeps. -/

namespace Sys2Proof.Machine

variable {α : Type}

theorem cellGet_cellSet_same (m : List (Nat × α)) (a : Nat) (v : α) : cellGet (cellSet m a v) a = some v := by
  induction m with
  | nil => simp [cellSet, cellGet]
  | cons p r ih =>
    unfold cellSet
    split
    · simp [cellGet]
    · split
      · simp [cellGet]
      · next h =>
        have h' : p.1 ≠ a := fun e => h e.symm
        simp [cellGet, ih, h']

theorem cellGet_cellSet_other (m : List (Nat × α)) (a b : Nat) (v : α) (h : b ≠ a) :
    cellGet (cellSet m a v) b = cellGet m b := by
  induction m with
  | nil => simp [cellSet, cellGet, Ne.symm h]
  | cons p r ih =>
    unfold cellSet
    split
    · simp [cellGet, Ne.symm h]
    · split
      · next h2 => simp [cellGet, Ne.symm h, ← h2]
      · simp [cellGet, ih]

/-- The canonical form with its first address above a bound. -/
theorem Memory.wf_cons (p : Nat × α) (m : List (Nat × α)) :
    Memory.wf (p :: m) = true ↔ (∀ q ∈ m.head?, p.1 < q.1) ∧ Memory.wf m = true := by
  cases m with
  | nil => simp [Memory.wf]
  | cons q r => simp [Memory.wf]

theorem cellSet_head (m : List (Nat × α)) (a b : Nat) (v : α) (hb : b < a) (h : ∀ q ∈ m.head?, b < q.1) :
    ∀ q ∈ (cellSet m a v).head?, b < q.1 := by
  cases m with
  | nil => simpa [cellSet] using hb
  | cons p r =>
    unfold cellSet
    split
    · simpa using hb
    · split
      · simpa using hb
      · simpa using h

/-- A write keeps the canonical form (log 8). -/
theorem cellSet_wf (m : List (Nat × α)) (a : Nat) (v : α) (h : Memory.wf m = true) :
    Memory.wf (cellSet m a v) = true := by
  induction m with
  | nil => rfl
  | cons p r ih =>
    have hp := (Memory.wf_cons p r).1 h
    unfold cellSet
    split
    · next h1 => exact (Memory.wf_cons _ _).2 ⟨by simpa using h1, h⟩
    · split
      · next h2 => exact (Memory.wf_cons _ _).2 ⟨by simpa [h2] using hp.1, hp.2⟩
      · next h1 h2 => exact (Memory.wf_cons _ _).2 ⟨cellSet_head r a p.1 v (by omega) hp.1, ih hp.2⟩

/-- A write lists no address but the old ones and its own. -/
theorem cellSet_addr (m : List (Nat × α)) (a bound : Nat) (v : α) (ha : a < bound) (h : ∀ c ∈ m, c.1 < bound) :
    ∀ c ∈ cellSet m a v, c.1 < bound := by
  induction m with
  | nil => simpa [cellSet] using ha
  | cons p r ih =>
    have hr : ∀ c ∈ r, c.1 < bound := fun c hc => h c (List.mem_cons_of_mem _ hc)
    have hp : p.1 < bound := h p List.mem_cons_self
    unfold cellSet
    split
    · intro c hc
      rcases List.mem_cons.1 hc with rfl | hc
      · exact ha
      · exact h c hc
    · split
      · intro c hc
        rcases List.mem_cons.1 hc with rfl | hc
        · exact ha
        · exact hr c hc
      · intro c hc
        rcases List.mem_cons.1 hc with rfl | hc
        · exact hp
        · exact ih hr c hc

/-- All three staging memories are in canonical form. -/
abbrev State.memoriesWf (s : State) : Prop :=
  Memory.wf s.emask = true ∧ Memory.wf s.dmask = true ∧ Memory.wf s.dcode = true

/-- Writing a mask cell keeps the canonical form. -/
theorem writeMaskCell_wf (s : State) (u : Side) (a : Nat) (b : Bool) (h : s.memoriesWf) :
    (s.writeMaskCell u a b).memoriesWf := by
  obtain ⟨h1, h2, h3⟩ := h
  cases u
  · exact ⟨cellSet_wf _ _ _ h1, h2, h3⟩
  · exact ⟨h1, cellSet_wf _ _ _ h2, h3⟩

/-- Writing a code cell keeps the canonical form. -/
theorem writeCodeCell_wf (s : State) (a : Nat) (c : Chr) (h : s.memoriesWf) : (s.writeCodeCell a c).memoriesWf :=
  ⟨h.1, h.2.1, cellSet_wf _ _ _ h.2.2⟩

/-- Hardware reset leaves memories in canonical form. -/
theorem hardReset_wf (s : State) : s.hardReset.memoriesWf := ⟨rfl, rfl, rfl⟩

/-- The memories after reset are in canonical form. -/
theorem reset_wf : State.reset.memoriesWf := ⟨rfl, rfl, rfl⟩

theorem readMask_length (s : State) (u : Side) (n : Nat) : (s.readMask u n).length = n := by
  simp [State.readMask]

theorem readCode_length (s : State) (n : Nat) : (s.readCode n).length = n := by simp [State.readCode]

theorem readMask_getElem? (s : State) (u : Side) (n a : Nat) (h : a < n) :
    (s.readMask u n)[a]? = some (s.maskCell u a) := by
  simp [State.readMask, h]

theorem readCode_getElem? (s : State) (n a : Nat) (h : a < n) : (s.readCode n)[a]? = some (s.codeCell a) := by
  simp [State.readCode, h]

/-- A register write does not touch the memories or either unit. -/
theorem regWrite_frame (s : State) (num data : Nat) :
    s.regWrite num data = { s with estg := (s.regWrite num data).estg, dstg := (s.regWrite num data).dstg } := by
  unfold State.regWrite
  split <;> rfl

/-- A write of a read-only or reserved register number is ignored (10_state.md R40; log 18). -/
theorem regWrite_ignored (s : State) (num data : Nat) (h : stagingRegister num = false) : s.regWrite num data = s := by
  unfold State.regWrite
  split <;> first | rfl | simp [stagingRegister] at h

/-- A host write that answers a next state and does not land in staging changes nothing (10_state.md R40). -/
theorem stagingWrite_ignored (s t : State) (w : StagingWrite) (h : s.stagingWrite w = .next t)
    (hw : s.landsInStaging w = false) : t = s := by
  cases w with
  | reg num data =>
    have ht : s.regWrite num data = t := by simpa [State.stagingWrite] using h
    rw [← ht, regWrite_ignored s num data hw]
  | mask u a b =>
    have ha : s.maskCellExists a = false := hw
    simp [State.stagingWrite, ha] at h
  | code a c =>
    have ha : s.codeCellExists a = false := hw
    simp [State.stagingWrite, ha] at h

/-- What a staging write answers when it answers a next state. -/
theorem stagingWrite_next (s t : State) (w : StagingWrite) (h : s.stagingWrite w = .next t) :
    (∃ num data, w = .reg num data ∧ t = s.regWrite num data) ∨
    (∃ u a b, w = .mask u a b ∧ a < s.par.maskMax ∧ t = s.writeMaskCell u a b) ∨
    (∃ a c, w = .code a c ∧ a < s.par.codeMax ∧ t = s.writeCodeCell a c) := by
  cases w with
  | reg num data => exact .inl ⟨num, data, rfl, by simpa [State.stagingWrite] using h.symm⟩
  | mask u a b =>
    simp only [State.stagingWrite, State.maskCellExists, decide_eq_true_eq] at h
    split at h
    · next ha => exact .inr (.inl ⟨u, a, b, rfl, ha, by simpa using h.symm⟩)
    · cases h
  | code a c =>
    simp only [State.stagingWrite, State.codeCellExists, decide_eq_true_eq] at h
    split at h
    · next ha => exact .inr (.inr ⟨a, c, rfl, ha, by simpa using h.symm⟩)
    · cases h

/-- A staging write changes staging only. -/
theorem stagingWrite_frame (s t : State) (w : StagingWrite) (h : s.stagingWrite w = .next t) :
    t = { s with estg := t.estg, dstg := t.dstg, emask := t.emask, dmask := t.dmask, dcode := t.dcode } := by
  rcases stagingWrite_next s t w h with ⟨n, d, -, rfl⟩ | ⟨u, a, b, -, -, rfl⟩ | ⟨a, c, -, -, rfl⟩
  · unfold State.regWrite; split <;> rfl
  · cases u <;> rfl
  · rfl

/-- A staging write keeps the canonical form. -/
theorem stagingWrite_wf (s t : State) (w : StagingWrite) (h : s.stagingWrite w = .next t) (hs : s.memoriesWf) :
    t.memoriesWf := by
  rcases stagingWrite_next s t w h with ⟨n, d, -, rfl⟩ | ⟨u, a, b, -, -, rfl⟩ | ⟨a, c, -, -, rfl⟩
  · rw [regWrite_frame]; exact hs
  · exact writeMaskCell_wf s u a b hs
  · exact writeCodeCell_wf s a c hs

end Sys2Proof.Machine
end

