-- ==== Sys2Proof/Laws/Streams.lean ====
section
/-! SUPPORT. Lemmas about the vocabulary of Sys2Proof.Safety: bit lists, the mask, strings and their bits. -/

namespace Sys2Proof.Machine

@[simp] theorem bitsMsb_zero (d : Nat) : bitsMsb 0 d = [] := rfl

theorem bitsMsb_succ (w d : Nat) : bitsMsb (w + 1) d = d.testBit w :: bitsMsb w d := rfl

@[simp] theorem bitsMsb_length (w d : Nat) : (bitsMsb w d).length = w := by
  induction w with
  | zero => rfl
  | succ w ih => simp [bitsMsb_succ, ih]

@[simp] theorem xorMask_nil (m : List Bool) (k : Nat) : xorMask m k [] = [] := rfl

theorem xorMask_cons (m : List Bool) (k : Nat) (b : Bool) (bs : List Bool) :
    xorMask m k (b :: bs) = (b ^^ maskBit m k) :: xorMask m (k + 1) bs := rfl

@[simp] theorem xorMask_length (m : List Bool) (k : Nat) (bs : List Bool) : (xorMask m k bs).length = bs.length := by
  induction bs generalizing k with
  | nil => rfl
  | cons b bs ih => simp [xorMask_cons, ih]

theorem xorMask_append (m : List Bool) (k : Nat) (bs cs : List Bool) :
    xorMask m k (bs ++ cs) = xorMask m k bs ++ xorMask m (k + bs.length) cs := by
  induction bs generalizing k with
  | nil => simp
  | cons b bs ih => simp [xorMask_cons, ih, Nat.add_comm, Nat.add_left_comm]

/-- The mask undoes itself (40_primitives.md R113). -/
theorem xorMask_xorMask (m : List Bool) (k : Nat) (bs : List Bool) : xorMask m k (xorMask m k bs) = bs := by
  induction bs generalizing k with
  | nil => rfl
  | cons b bs ih => simp [xorMask_cons, ih]

@[simp] theorem maskBit_nil (k : Nat) : maskBit [] k = false := by simp [maskBit]

theorem maskBit_mod (m : List Bool) (k : Nat) : maskBit m (k % m.length) = maskBit m k := by
  simp [maskBit]

/-- Two cursors that agree modulo the length of the mask meet the same elements. -/
theorem xorMask_congr (m : List Bool) (j k : Nat) (h : j % m.length = k % m.length) (bs : List Bool) :
    xorMask m j bs = xorMask m k bs := by
  induction bs generalizing j k with
  | nil => rfl
  | cons b bs ih =>
    rw [xorMask_cons, xorMask_cons, ih (j + 1) (k + 1) (by rw [Nat.add_mod, h, ← Nat.add_mod])]
    rw [← maskBit_mod m j, h, maskBit_mod]

/-- A cursor in its range meets the element it points at. -/
theorem scrambleBit_eq (m : List Bool) (k : Nat) (x : Bool) (h : k < max 1 m.length) :
    scrambleBit m k x = (x ^^ maskBit m k) := by
  unfold scrambleBit maskBit
  rcases m with _ | ⟨b, m⟩
  · simp
  · rw [Nat.mod_eq_of_lt (by simpa using h)]

theorem nextCursor_lt (m : List Bool) (k : Nat) (h : k < max 1 m.length) : nextCursor m k < max 1 m.length := by
  unfold nextCursor
  rcases m with _ | ⟨b, m⟩
  · simpa using h
  · simp only [List.isEmpty_cons, Bool.false_eq_true, ↓reduceIte]
    exact lt_of_lt_of_le (Nat.mod_lt _ (by simp)) (Nat.le_max_right _ _)

/-- The elements met after `scramble` are those after the cursor. -/
theorem xorMask_nextCursor (m : List Bool) (k : Nat) (h : k < max 1 m.length) (bs : List Bool) :
    xorMask m (nextCursor m k) bs = xorMask m (k + 1) bs := by
  unfold nextCursor
  rcases m with _ | ⟨b, m⟩
  · have : k = 0 := by simpa using h
    subst this
    induction bs with
    | nil => rfl
    | cons c cs ih =>
      simp only [List.isEmpty_nil, ↓reduceIte, xorMask_cons, maskBit_nil]
      congr 1
      exact xorMask_congr_nil 1 2 cs
  · exact xorMask_congr _ _ _ (by simp) bs
where
  xorMask_congr_nil (j k : Nat) (bs : List Bool) : xorMask [] j bs = xorMask [] k bs := by
    induction bs generalizing j k with
    | nil => rfl
    | cons b bs ih => rw [xorMask_cons, xorMask_cons, maskBit_nil, maskBit_nil, ih (j + 1) (k + 1)]

theorem stringBits_nil : stringBits [] = [] := rfl

theorem stringBits_sep (c : Chr) (cs : List Chr) (h : isSeparator c = true) :
    stringBits (c :: cs) = stringBits cs := by
  simp [stringBits, h]

theorem stringBits_bad (c : Chr) (cs : List Chr) (h : isSeparator c = false) (hv : valOfChar c = none) :
    stringBits (c :: cs) = [] := by
  simp [stringBits, h, hv]

theorem stringBits_sym (c : Chr) (cs : List Chr) (v : SymVal) (h : isSeparator c = false)
    (hv : valOfChar c = some v) : stringBits (c :: cs) = symBits v ++ stringBits cs := by
  simp [stringBits, h, hv]

/-- The separator has no value (40_primitives.md R109). -/
theorem valOfChar_sep (c : Chr) (h : isSeparator c = true) : valOfChar c = none := by
  have : c = 0x20 := by simpa [isSeparator] using h
  subst this
  decide

theorem isSeparator_of_val (c : Chr) (v : SymVal) (h : valOfChar c = some v) : isSeparator c = false := by
  by_contra hs
  simp [valOfChar_sep c (by simpa using hs)] at h

/-- What stands at and after the position reached by skipping separators. -/
theorem drop_skipSeparators (code : List Chr) (pos : Nat) :
    code.drop (skipSeparators code pos) = (code.drop pos).dropWhile isSeparator := by
  unfold skipSeparators
  rw [← List.drop_drop]
  generalize code.drop pos = cs
  induction cs with
  | nil => rfl
  | cons c cs ih =>
    by_cases h : isSeparator c = true
    · simp [h, ih]
    · simp [h]

theorem stringBits_dropWhile (cs : List Chr) : stringBits (cs.dropWhile isSeparator) = stringBits cs := by
  induction cs with
  | nil => rfl
  | cons c cs ih =>
    by_cases h : isSeparator c = true
    · simp [h, ih, stringBits_sep]
    · simp [h]

/-- The character at the position reached by skipping separators is no separator. -/
theorem skipSeparators_not_sep (code : List Chr) (pos : Nat) (c : Chr)
    (h : code[skipSeparators code pos]? = some c) : isSeparator c = false := by
  have hd : (code.drop (skipSeparators code pos)).head? = some c := by simpa [List.head?_drop] using h
  rw [drop_skipSeparators] at hd
  have := List.head?_dropWhile_not isSeparator (code.drop pos)
  rw [hd] at this
  simpa using this

theorem skipSeparators_ge (code : List Chr) (pos : Nat) : pos ≤ skipSeparators code pos := Nat.le_add_right _ _

theorem skipSeparators_le (code : List Chr) (pos : Nat) (h : pos ≤ code.length) :
    skipSeparators code pos ≤ code.length := by
  have := (List.takeWhile_prefix (p := isSeparator) (l := code.drop pos)).length_le
  simp only [List.length_drop] at this
  unfold skipSeparators
  omega

/-- The characters skipped are separators. -/
theorem skipSeparators_skipped (code : List Chr) (pos : Nat) :
    ∀ c ∈ (code.drop pos).take (skipSeparators code pos - pos), isSeparator c = true := by
  intro c hc
  have : (code.drop pos).take (skipSeparators code pos - pos) = (code.drop pos).takeWhile isSeparator := by
    unfold skipSeparators
    rw [Nat.add_sub_cancel_left]
    exact (List.prefix_iff_eq_take.1 (List.takeWhile_prefix (p := isSeparator))).symm
  rw [this] at hc
  exact List.mem_takeWhile_imp hc

theorem symBits_length (v : SymVal) : (symBits v).length = 5 := by simp [symBits]

@[simp] theorem symbolsOf_append (as bs : List Chr) : symbolsOf (as ++ bs) = symbolsOf as ++ symbolsOf bs := by
  simp [symbolsOf]

theorem bitsValue_foldl (bs : List Bool) (a : Nat) :
    bs.foldl (fun v b => 2 * v + b.toNat) a = a * 2 ^ bs.length + bitsValue bs := by
  unfold bitsValue
  induction bs generalizing a with
  | nil => simp
  | cons b bs ih =>
    rw [List.foldl_cons, ih, List.foldl_cons, ih (2 * 0 + b.toNat), List.length_cons, Nat.pow_succ]
    ring

/-- The bits of a number, most significant first, stand for it modulo `2^w` (20_memory.md R66). -/
theorem bitsValue_bitsMsb (w d : Nat) : bitsValue (bitsMsb w d) = d % 2 ^ w := by
  induction w with
  | zero => simp [bitsValue, Nat.mod_one]
  | succ w ih =>
    have h : bitsValue (bitsMsb (w + 1) d) = (d.testBit w).toNat * 2 ^ w + bitsValue (bitsMsb w d) := by
      have := bitsValue_foldl (bitsMsb w d) (2 * 0 + (d.testBit w).toNat)
      rw [bitsMsb_length] at this
      rw [bitsMsb_succ]
      simpa [bitsValue] using this
    rw [h, ih, Nat.mod_pow_succ, Nat.testBit_eq_decide_div_mod_eq]
    rcases Nat.mod_two_eq_zero_or_one (d / 2 ^ w) with h2 | h2 <;> simp [h2, Nat.add_comm]

end Sys2Proof.Machine
end

