-- ==== Sys2Proof/Laws/Ops.lean ====
section
/-! SUPPORT. For each shared operation, what it can do, said once. -/

namespace Sys2Proof.Machine

/-! ## Check-bit latch -/

/-- The check bit taken is the one due (40_primitives.md R119, R120). -/
theorem loadLatch_bit (crc latch : Word32) (rem : BitVec 6) :
    (loadLatch crc latch rem).bit = checkBitAt crc latch rem 0 := by
  unfold loadLatch LatchPair.bit checkBitAt
  by_cases h : rem = 0#6
  · simp [h]
  · have : 0 < rem.toNat := by
      rcases Nat.eq_zero_or_pos rem.toNat with h0 | h0
      · exact absurd (BitVec.eq_of_toNat_eq (by simpa using h0)) h
      · exact h0
    simp [h, this]

/-- What a loaded and shifted latch holds for the bits that follow. -/
theorem loadLatch_shifted (crc latch : Word32) (rem : BitVec 6) (k : Nat) :
    checkBitAt crc (loadLatch crc latch rem).shifted.snap (loadLatch crc latch rem).shifted.rem k =
      checkBitAt crc latch rem (k + 1) := by
  unfold loadLatch LatchPair.shifted checkBitAt
  by_cases h : rem = 0#6
  · subst h
    have h31 : (32#6 - 1#6).toNat = 31 := by decide
    simp only [↓reduceIte, h31, BitVec.toNat_ofNat, Nat.zero_mod, Nat.not_lt_zero, Nat.sub_zero]
    by_cases hk : k < 31
    · simp [hk, BitVec.getLsbD_ushiftRight, Nat.mod_eq_of_lt (show k + 1 < 32 by omega), Nat.add_comm]
    · simp only [hk, ↓reduceIte]
      congr 1
      omega
  · have hpos : 0 < rem.toNat := by
      rcases Nat.eq_zero_or_pos rem.toNat with h0 | h0
      · exact absurd (BitVec.eq_of_toNat_eq (by simpa using h0)) h
      · exact h0
    have hsub : (rem - 1#6).toNat = rem.toNat - 1 := by bv_omega
    simp only [h, ↓reduceIte, hsub]
    by_cases hk : k < rem.toNat - 1
    · simp [hk, show k + 1 < rem.toNat by omega, BitVec.getLsbD_ushiftRight, Nat.add_comm]
    · simp only [hk, ↓reduceIte, show ¬ k + 1 < rem.toNat by omega]
      congr 2
      omega

theorem loadLatch_rem_le (crc latch : Word32) (rem : BitVec 6) (h : rem.toNat ≤ 32) :
    (loadLatch crc latch rem).shifted.rem.toNat ≤ 32 := by
  unfold loadLatch LatchPair.shifted
  by_cases h0 : rem = 0#6
  · simp [h0]
  · simp only [h0, ↓reduceIte]
    bv_omega

/-- The group countdown over one symbol, as a number (10_state.md R25, R33, R44). -/
theorem countSymbol_eq (dpg rem : BitVec 7) (n : Nat) (h : rem.toNat = groupRem dpg.toNat n) :
    (countSymbol dpg rem).toNat = groupRem dpg.toNat (n + 1) := by
  unfold countSymbol
  by_cases hd : dpg = 0#7
  · subst hd
    simpa [groupRem] using h
  · have hg : 0 < dpg.toNat := by
      rcases Nat.eq_zero_or_pos dpg.toNat with h0 | h0
      · exact absurd (BitVec.eq_of_toNat_eq (by simpa using h0)) hd
      · exact h0
    have hlt : n % dpg.toNat < dpg.toNat := Nat.mod_lt _ hg
    simp only [hd, ↓reduceIte]
    simp only [groupRem, show dpg.toNat ≠ 0 by omega, ↓reduceIte] at h ⊢
    rcases Nat.eq_zero_or_pos (n % dpg.toNat) with hn | hn
    · have hr : rem = 0#7 := BitVec.eq_of_toNat_eq (by simpa [hn] using h)
      have h1 : (n + 1) % dpg.toNat = 1 % dpg.toNat := by rw [Nat.add_mod, hn]; simp
      have h2 : (dpg - 1#7).toNat = dpg.toNat - 1 := by bv_omega
      rw [if_pos hr, h1, h2]
      rcases Nat.lt_or_ge 1 dpg.toNat with h1d | h1d
      · rw [Nat.mod_eq_of_lt h1d, Nat.mod_eq_of_lt (by omega)]
      · have : dpg.toNat = 1 := by omega
        simp [this]
    · rw [Nat.mod_eq_of_lt (a := dpg.toNat - n % dpg.toNat) (by omega)] at h
      have hr : rem ≠ 0#7 := by
        rintro rfl
        simp at h
        omega
      have h2 : (rem - 1#7).toNat = rem.toNat - 1 := by bv_omega
      rw [if_neg hr, h2, h]
      rcases Nat.lt_or_ge (n % dpg.toNat + 1) dpg.toNat with hlt1 | hge
      · have h1 : (n + 1) % dpg.toNat = n % dpg.toNat + 1 := by
          rw [Nat.add_mod, Nat.mod_eq_of_lt (show 1 < dpg.toNat by omega), Nat.mod_eq_of_lt hlt1]
        rw [h1, Nat.mod_eq_of_lt (a := dpg.toNat - (n % dpg.toNat + 1)) (by omega)]
        omega
      · have hn1 : n % dpg.toNat + 1 = dpg.toNat := by omega
        have h1 : (n + 1) % dpg.toNat = 0 := by
          rcases Nat.lt_or_ge 1 dpg.toNat with h1d | h1d
          · rw [Nat.add_mod, Nat.mod_eq_of_lt h1d, hn1, Nat.mod_self]
          · have : dpg.toNat = 1 := by omega
            simp [this, Nat.mod_one]
        rw [h1]
        simp
        omega

theorem countSymbol_le (dpg rem : BitVec 7) (h : rem.toNat ≤ dpg.toNat) :
    (countSymbol dpg rem).toNat ≤ dpg.toNat := by
  unfold countSymbol
  split
  · exact h
  · split <;> bv_omega

/-! ## Loops -/

/-- What a loop body keeps, the loop keeps. -/
theorem whileDo_keeps {σ : Type} {P : σ → Prop} {cond : σ → Bool} {body : σ → σ}
    (h : ∀ x, P x → P (body x)) (n : Nat) (x : σ) (hx : P x) : P (whileDo cond body n x) := by
  induction n generalizing x with
  | zero => exact hx
  | succ n ih =>
    unfold whileDo
    split
    · exact ih _ (h _ hx)
    · exact hx

/-- A loop with enough rounds ends because its condition is false. -/
theorem whileDo_ends {σ : Type} {cond : σ → Bool} {body : σ → σ} {P : σ → Prop} (m : σ → Nat)
    (hP : ∀ x, P x → cond x = true → P (body x)) (hm : ∀ x, P x → cond x = true → m (body x) < m x)
    (n : Nat) (x : σ) (hx : P x) (hn : m x ≤ n) : cond (whileDo cond body n x) = false := by
  induction n generalizing x with
  | zero =>
    unfold whileDo
    by_contra hc
    have := hm x hx (by simpa using hc)
    omega
  | succ n ih =>
    unfold whileDo
    split
    · next hc => exact ih _ (hP x hx hc) (by have := hm x hx hc; omega)
    · next hc => simpa using hc

theorem repeatDo_add {σ : Type} (body : σ → σ) (m n : Nat) (x : σ) :
    repeatDo body (m + n) x = repeatDo body n (repeatDo body m x) := by
  induction m generalizing x with
  | zero => simp [repeatDo]
  | succ m ih => simp [repeatDo, Nat.succ_add, ih]

/-- What a body keeps, its repetition keeps. -/
theorem repeatDo_keeps {σ : Type} {P : σ → Prop} {body : σ → σ} (h : ∀ x, P x → P (body x)) (n : Nat) (x : σ)
    (hx : P x) : P (repeatDo body n x) := by
  induction n generalizing x with
  | zero => exact hx
  | succ n ih => exact ih _ (h _ hx)

/-! ## Encoder -/

/-- A raw bit that does not complete a symbol (40_primitives.md R114). -/
theorem encRawBit_pending (x : Bool) (e : Enc) (h : e.nbits ≠ 4#3) :
    encRawBit x e =
      { e with
        cursor := nextCursor e.mask e.cursor
        acc := shiftIn e.acc (scrambleBit e.mask e.cursor x)
        nbits := e.nbits + 1#3 } := by
  have h5 : e.nbits + 1#3 ≠ 5#3 := by
    intro hc
    exact h (by bv_omega)
  simp only [encRawBit, encPushBit, h5, ↓reduceIte]

/-- A raw bit that completes a symbol (40_primitives.md R114, R116). -/
theorem encRawBit_emits (x : Bool) (e : Enc) (h : e.nbits = 4#3) :
    encRawBit x e =
      { e with
        cursor := nextCursor e.mask e.cursor
        acc := 0#5
        nbits := 0#3
        remInGroup := countSymbol e.dpg e.remInGroup
        out := e.out ++ (if e.dpg ≠ 0#7 ∧ e.remInGroup = 0#7 ∧ e.out ≠ [] then [sepOut] else []) ++
          [symOfVal (shiftIn e.acc (scrambleBit e.mask e.cursor x))] } := by
  have h5 : e.nbits + 1#3 = 5#3 := by rw [h]; decide
  simp only [encRawBit, encPushBit, h5, ↓reduceIte, encFlushSymbol, encEmitSymbol]

/-- What a raw bit leaves alone: the running check, the latch, the counter and the construction parameters. -/
theorem encRawBit_frame (x : Bool) (e : Enc) :
    encRawBit x e =
      { e with
        cursor := nextCursor e.mask e.cursor
        acc := (encRawBit x e).acc
        nbits := (encRawBit x e).nbits
        remInGroup := (encRawBit x e).remInGroup
        out := (encRawBit x e).out } := by
  by_cases h : e.nbits = 4#3
  · rw [encRawBit_emits x e h]
  · rw [encRawBit_pending x e h]

@[simp] theorem encRawBit_crc (x : Bool) (e : Enc) : (encRawBit x e).crc = e.crc := by rw [encRawBit_frame]
@[simp] theorem encRawBit_latch (x : Bool) (e : Enc) : (encRawBit x e).latch = e.latch := by rw [encRawBit_frame]
@[simp] theorem encRawBit_latchRem (x : Bool) (e : Enc) : (encRawBit x e).latchRem = e.latchRem := by
  rw [encRawBit_frame]
@[simp] theorem encRawBit_cursor (x : Bool) (e : Enc) : (encRawBit x e).cursor = nextCursor e.mask e.cursor := by
  rw [encRawBit_frame]
@[simp] theorem encRawBit_checkCount (x : Bool) (e : Enc) : (encRawBit x e).checkCount = e.checkCount := by
  rw [encRawBit_frame]
@[simp] theorem encRawBit_mask (x : Bool) (e : Enc) : (encRawBit x e).mask = e.mask := by rw [encRawBit_frame]
@[simp] theorem encRawBit_dpg (x : Bool) (e : Enc) : (encRawBit x e).dpg = e.dpg := by rw [encRawBit_frame]
@[simp] theorem encRawBit_padChecks (x : Bool) (e : Enc) : (encRawBit x e).padChecks = e.padChecks := by
  rw [encRawBit_frame]
@[simp] theorem encRawBit_padGroup (x : Bool) (e : Enc) : (encRawBit x e).padGroup = e.padGroup := by
  rw [encRawBit_frame]

theorem Enc.sameParams_refl (e : Enc) : e.sameParams e := ⟨rfl, rfl, rfl, rfl⟩

theorem Enc.sameParams_trans {e f g : Enc} (h : e.sameParams f) (k : f.sameParams g) : e.sameParams g :=
  ⟨k.1.trans h.1, k.2.1.trans h.2.1, k.2.2.1.trans h.2.2.1, k.2.2.2.trans h.2.2.2⟩

theorem encRawBit_sameParams (x : Bool) (e : Enc) : e.sameParams (encRawBit x e) := by
  simp [Enc.sameParams]

theorem encDataBit_sameParams (b : Bool) (e : Enc) : e.sameParams (encDataBit b e) := by
  simp [Enc.sameParams, encDataBit]

theorem encCheckBit_sameParams (e : Enc) : e.sameParams (encCheckBit e) := by
  simp [Enc.sameParams, encCheckBit]

theorem encPadBit_sameParams (e : Enc) : e.sameParams (encPadBit e) := by
  unfold encPadBit
  split
  · exact encCheckBit_sameParams e
  · exact encRawBit_sameParams false e

@[simp] theorem encDataBit_crc (b : Bool) (e : Enc) : (encDataBit b e).crc = crcUpdate e.crc b := by simp [encDataBit]
@[simp] theorem encDataBit_latchRem (b : Bool) (e : Enc) : (encDataBit b e).latchRem = 0#6 := by simp [encDataBit]
@[simp] theorem encDataBit_latch (b : Bool) (e : Enc) : (encDataBit b e).latch = e.latch := by simp [encDataBit]
@[simp] theorem encDataBit_checkCount (b : Bool) (e : Enc) : (encDataBit b e).checkCount = e.checkCount := by
  simp [encDataBit]
@[simp] theorem encDataBit_cursor (b : Bool) (e : Enc) : (encDataBit b e).cursor = nextCursor e.mask e.cursor := by
  simp [encDataBit]

@[simp] theorem encCheckBit_crc (e : Enc) : (encCheckBit e).crc = e.crc := by simp [encCheckBit]
@[simp] theorem encCheckBit_checkCount (e : Enc) : (encCheckBit e).checkCount = e.checkCount + 1#32 := by
  simp [encCheckBit]
@[simp] theorem encCheckBit_cursor (e : Enc) : (encCheckBit e).cursor = nextCursor e.mask e.cursor := by
  simp [encCheckBit]
@[simp] theorem encCheckBit_latch (e : Enc) :
    (encCheckBit e).latch = (loadLatch e.crc e.latch e.latchRem).shifted.snap := by simp [encCheckBit]
@[simp] theorem encCheckBit_latchRem (e : Enc) :
    (encCheckBit e).latchRem = (loadLatch e.crc e.latch e.latchRem).shifted.rem := by simp [encCheckBit]

theorem encDataBits_sameParams (bs : List Bool) (e : Enc) : e.sameParams (encDataBits bs e) := by
  induction bs generalizing e with
  | nil => exact Enc.sameParams_refl e
  | cons b bs ih => exact Enc.sameParams_trans (encDataBit_sameParams b e) (ih _)

theorem encFinalise_sameParams (e : Enc) : e.sameParams (encFinalise e) := by
  have h1 : e.sameParams (encPadSymbol e) :=
    whileDo_keeps (P := fun x : Enc => e.sameParams x) (fun x hx => Enc.sameParams_trans hx (encPadBit_sameParams x)) 8 e
      e.sameParams_refl
  unfold encFinalise
  simp only
  split
  · exact whileDo_keeps (P := fun x : Enc => e.sameParams x)
      (fun x hx => Enc.sameParams_trans hx (encPadBit_sameParams x)) 635 _ h1
  · exact h1

/-- No pad bit touches the running check (40_primitives.md R101). -/
@[simp] theorem encPadBit_crc (e : Enc) : (encPadBit e).crc = e.crc := by
  unfold encPadBit
  split <;> simp

theorem encFinalise_crc (e : Enc) : (encFinalise e).crc = e.crc := by
  have h1 : (encPadSymbol e).crc = e.crc :=
    whileDo_keeps (P := fun x : Enc => x.crc = e.crc) (fun x hx => by simpa using hx) 8 e rfl
  unfold encFinalise
  simp only
  split
  · exact whileDo_keeps (P := fun x : Enc => x.crc = e.crc) (fun x hx => by simpa using hx) 635 _ h1
  · exact h1

/-! ## Runs of decoder procedures -/

@[simp] theorem Run.bind_ok {α β : Type} (d : Dec) (v : α) (f : Dec → α → Run β) : (Run.ok d v).bind f = f d v := rfl

@[simp] theorem Run.bind_raised {α β : Type} (d : Dec) (f : Dec → α → Run β) :
    (Run.raised d : Run α).bind f = .raised d := rfl

theorem Run.bind_eq_ok {α β : Type} {r : Run α} {f : Dec → α → Run β} {d : Dec} {v : β} :
    r.bind f = .ok d v ↔ ∃ d1 a, r = .ok d1 a ∧ f d1 a = .ok d v := by
  cases r <;> simp [Run.bind]

theorem Run.bind_eq_raised {α β : Type} {r : Run α} {f : Dec → α → Run β} {d : Dec} :
    r.bind f = .raised d ↔ r = .raised d ∨ ∃ d1 a, r = .ok d1 a ∧ f d1 a = .raised d := by
  cases r <;> simp [Run.bind]

/-- The error is recorded, and nothing else changes (60_exceptions.md R222). -/
theorem raiseError_okay {α : Type} (e : Status) (d : Dec) (h : d.status = .okay) :
    (raiseError e d : Run α) = .raised { d with status := e } := by
  simp [raiseError, h]

theorem Dec.sameParams_refl (d : Dec) : d.sameParams d := ⟨rfl, rfl, rfl, rfl, rfl⟩

theorem Dec.sameParams_trans {d e f : Dec} (h : d.sameParams e) (k : e.sameParams f) : d.sameParams f :=
  ⟨k.1.trans h.1, k.2.1.trans h.2.1, k.2.2.1.trans h.2.2.1, k.2.2.2.1.trans h.2.2.2.1,
    k.2.2.2.2.trans h.2.2.2.2⟩

/-- What a symbol fetch does, from a status of OKAY (40_primitives.md R118): the input is exhausted, the next character is
unmappable, or a symbol is loaded. -/
theorem decFetchSymbol_cases (d : Dec) (h : d.status = .okay) :
    (d.code[skipSeparators d.code d.pos]? = none ∧
      decFetchSymbol d = .raised { d with pos := skipSeparators d.code d.pos, status := .tooShort }) ∨
    (∃ c, d.code[skipSeparators d.code d.pos]? = some c ∧ valOfChar c = none ∧
      decFetchSymbol d = .raised { d with pos := skipSeparators d.code d.pos + 1, status := .badDigit }) ∨
    (∃ c v, d.code[skipSeparators d.code d.pos]? = some c ∧ valOfChar c = some v ∧
      decFetchSymbol d =
        .ok { d with pos := skipSeparators d.code d.pos + 1, sym := v, bitsLeft := 5#3,
                     remInGroup := countSymbol d.dpg d.remInGroup } ()) := by
  unfold decFetchSymbol
  cases hc : d.code[skipSeparators d.code d.pos]? with
  | none => exact .inl ⟨rfl, by simp [raiseError, h, hc]⟩
  | some c =>
    cases hv : valOfChar c with
    | none => exact .inr (.inl ⟨c, rfl, hv, by simp [raiseError, h, hc, hv]⟩)
    | some v => exact .inr (.inr ⟨c, v, rfl, hv, by simp [hc, hv]⟩)

/-- What a raw bit does, from a status of OKAY (40_primitives.md R122). -/
theorem decRawBit_cases (d : Dec) (h : d.status = .okay) :
    (d.bitsLeft ≠ 0#3 ∧ decRawBit d = decTakeBit d) ∨
    (d.bitsLeft = 0#3 ∧ d.code[skipSeparators d.code d.pos]? = none ∧
      decRawBit d = .raised { d with pos := skipSeparators d.code d.pos, status := .tooShort }) ∨
    (d.bitsLeft = 0#3 ∧ ∃ c, d.code[skipSeparators d.code d.pos]? = some c ∧ valOfChar c = none ∧
      decRawBit d = .raised { d with pos := skipSeparators d.code d.pos + 1, status := .badDigit }) ∨
    (d.bitsLeft = 0#3 ∧ ∃ c v, d.code[skipSeparators d.code d.pos]? = some c ∧ valOfChar c = some v ∧
      decRawBit d =
        decTakeBit { d with pos := skipSeparators d.code d.pos + 1, sym := v, bitsLeft := 5#3,
                            remInGroup := countSymbol d.dpg d.remInGroup }) := by
  by_cases hb : d.bitsLeft = 0#3
  · rcases decFetchSymbol_cases d h with ⟨hc, hf⟩ | ⟨c, hc, hv, hf⟩ | ⟨c, v, hc, hv, hf⟩
    · exact .inr (.inl ⟨hb, hc, by simp [decRawBit, hb, hf]⟩)
    · exact .inr (.inr (.inl ⟨hb, c, hc, hv, by simp [decRawBit, hb, hf]⟩))
    · exact .inr (.inr (.inr ⟨hb, c, v, hc, hv, by simp [decRawBit, hb, hf]⟩))
  · exact .inl ⟨hb, by simp [decRawBit, hb]⟩

/-- A held symbol gives the first of its bits, descrambled (40_primitives.md R122). -/
theorem decTakeBit_inputBits (d : Dec) (hb : d.bitsLeft ≠ 0#3) (hc : d.cursor < max 1 d.mask.length) :
    ∃ b e, decTakeBit d = .ok e b ∧ d.inputBits = b :: e.inputBits ∧
      e = { d with bitsLeft := d.bitsLeft - 1#3, cursor := nextCursor d.mask d.cursor } := by
  refine ⟨_, _, rfl, ?_, rfl⟩
  obtain ⟨m, hm⟩ : ∃ m, d.bitsLeft.toNat = m + 1 := by
    rcases Nat.exists_eq_succ_of_ne_zero (n := d.bitsLeft.toNat)
      (fun h0 => hb (BitVec.eq_of_toNat_eq (by simpa using h0))) with ⟨m, hm⟩
    exact ⟨m, hm⟩
  have hm1 : (d.bitsLeft - 1#3).toNat = m := by bv_omega
  simp only [Dec.inputBits, hm, hm1, bitsMsb_succ, List.cons_append, xorMask_cons, Nat.add_sub_cancel]
  rw [xorMask_nextCursor _ _ hc, scrambleBit_eq _ _ _ hc]
  simp [BitVec.getLsbD]

/-- The stream of a decoder that has just fetched a symbol is the one it had. -/
theorem inputBits_fetch (d : Dec) (c : Chr) (v : SymVal) (hb : d.bitsLeft = 0#3)
    (hc : d.code[skipSeparators d.code d.pos]? = some c) (hv : valOfChar c = some v) :
    Dec.inputBits { d with pos := skipSeparators d.code d.pos + 1, sym := v, bitsLeft := 5#3,
                           remInGroup := countSymbol d.dpg d.remInGroup } = d.inputBits := by
  have hs : isSeparator c = false := isSeparator_of_val c v hv
  obtain ⟨hlt, hget⟩ := List.getElem?_eq_some_iff.1 hc
  have hd : d.code.drop (skipSeparators d.code d.pos) = c :: d.code.drop (skipSeparators d.code d.pos + 1) := by
    rw [← hget]
    exact (List.drop_eq_getElem_cons hlt)
  have hbits : stringBits (d.code.drop d.pos) = symBits v ++ stringBits (d.code.drop (skipSeparators d.code d.pos + 1)) := by
    rw [← stringBits_dropWhile, ← drop_skipSeparators, hd, stringBits_sym c _ v hs hv]
  simp [Dec.inputBits, hb, hbits, symBits]

/-- The stream of a decoder that holds no symbol is empty when the input is exhausted or the next character is
unmappable. -/
theorem inputBits_stop (d : Dec) (hb : d.bitsLeft = 0#3)
    (hc : ∀ c, d.code[skipSeparators d.code d.pos]? = some c → valOfChar c = none) : d.inputBits = [] := by
  have hbits : stringBits (d.code.drop d.pos) = [] := by
    rw [← stringBits_dropWhile, ← drop_skipSeparators]
    cases hg : d.code[skipSeparators d.code d.pos]? with
    | none => simp [List.drop_eq_nil_of_le (List.getElem?_eq_none_iff.1 hg), stringBits]
    | some c =>
      obtain ⟨hlt, hget⟩ := List.getElem?_eq_some_iff.1 hg
      rw [List.drop_eq_getElem_cons hlt, hget]
      exact stringBits_bad c _ (skipSeparators_not_sep _ _ _ hg) (hc c hg)
  simp [Dec.inputBits, hb, hbits]

/-- A raw bit is the first bit of the input stream (40_primitives.md R122). -/
theorem decRawBit_inputBits (d : Dec) (b : Bool) (bs : List Bool) (h : d.status = .okay)
    (hc : d.cursor < max 1 d.mask.length) (hi : d.inputBits = b :: bs) :
    ∃ e, decRawBit d = .ok e b ∧ e.inputBits = bs ∧ e.status = .okay ∧ e.crc = d.crc ∧ e.latch = d.latch ∧
      e.latchRem = d.latchRem ∧ e.cursor = nextCursor d.mask d.cursor ∧ d.sameParams e := by
  rcases decRawBit_cases d h with ⟨hb, hr⟩ | ⟨hb, hn, -⟩ | ⟨hb, c, hn, hv, -⟩ | ⟨hb, c, v, hn, hv, hr⟩
  · obtain ⟨b', e, he, hi', rfl⟩ := decTakeBit_inputBits d hb hc
    rw [hi] at hi'
    obtain ⟨rfl, rfl⟩ := List.cons.inj hi'
    exact ⟨_, hr.trans he, rfl, h, rfl, rfl, rfl, rfl, Dec.sameParams_refl d⟩
  · exact absurd (inputBits_stop d hb (by simp [hn])) (by simp [hi])
  · exact absurd (inputBits_stop d hb (by rw [hn]; rintro _ ⟨⟩; exact hv)) (by simp [hi])
  · have hf := inputBits_fetch d c v hb hn hv
    obtain ⟨b', e, he, hi', rfl⟩ := decTakeBit_inputBits
      { d with pos := skipSeparators d.code d.pos + 1, sym := v, bitsLeft := 5#3,
               remInGroup := countSymbol d.dpg d.remInGroup } (by decide : 5#3 ≠ 0#3) hc
    rw [hf, hi] at hi'
    obtain ⟨rfl, rfl⟩ := List.cons.inj hi'
    exact ⟨_, hr.trans he, rfl, h, rfl, rfl, rfl, rfl, Dec.sameParams_refl d⟩

/-- With no bit left to read, a raw bit raises, and the running check, the latch and the cursor stay
(40_primitives.md R118, R122). -/
theorem decRawBit_exhausted (d : Dec) (h : d.status = .okay) (hi : d.inputBits = []) :
    ∃ e, decRawBit d = .raised e ∧ (e.status = .tooShort ∨ e.status = .badDigit) ∧ e.crc = d.crc ∧
      e.latch = d.latch ∧ e.latchRem = d.latchRem ∧ e.cursor = d.cursor ∧ d.sameParams e := by
  rcases decRawBit_cases d h with ⟨hb, hr⟩ | ⟨hb, hn, hr⟩ | ⟨hb, c, hn, hv, hr⟩ | ⟨hb, c, v, hn, hv, hr⟩
  · exfalso
    have hl : d.inputBits.length ≠ 0 := by
      have : d.bitsLeft.toNat ≠ 0 := fun h0 => hb (BitVec.eq_of_toNat_eq (by simpa using h0))
      simp only [Dec.inputBits, xorMask_length, List.length_append, bitsMsb_length]
      omega
    exact hl (by simp [hi])
  · exact ⟨_, hr, .inl rfl, rfl, rfl, rfl, rfl, Dec.sameParams_refl d⟩
  · exact ⟨_, hr, .inr rfl, rfl, rfl, rfl, rfl, Dec.sameParams_refl d⟩
  · exfalso
    have hf := inputBits_fetch d c v hb hn hv
    rw [hi] at hf
    simpa [Dec.inputBits, bitsMsb] using congrArg List.length hf

/-! ## Answers -/

/-- While `FATAL = 1` a command is answered `HALTED` (30_encoding.md R87). -/
theorem answer_halted (s : State) (body : State → Answer) (h : s.fatal = true) :
    answer s body = .next (s.withRsp (rspOnly .halted)) := by
  simp [answer, h]

/-- A command that runs answers with its effect and its response (30_encoding.md R84). -/
theorem answer_running (s : State) (body : State → Answer) (h : s.fatal = false) :
    answer s body = .next ((body s).state.withRsp (body s).rsp) := by
  simp [answer, h]

/-- Every command answers a next state (41_encoder.md R156, 42_decoder.md R170, 60_exceptions.md R222). -/
theorem answer_next (s : State) (body : State → Answer) : ∃ t, answer s body = .next t := by
  cases h : s.fatal
  · exact ⟨_, answer_running s body h⟩
  · exact ⟨_, answer_halted s body h⟩

/-- What an encoder command without a result field answers. -/
theorem encAnswer_running (s : State) (f : Enc → Enc) (h : s.fatal = false) :
    encAnswer s f = .next ((s.withEnc (f s.enc)).withRsp rspDone) := answer_running s _ h

/-- A gated decoder command does nothing and gives its default result (42_decoder.md R170, R171). -/
theorem decAnswer_gated (s : State) (dflt : Dec → Response) (body : Dec → Run Response) (h : s.fatal = false)
    (hg : s.dec.status ≠ .okay) : decAnswer s dflt body = .next (s.withRsp (dflt s.dec)) := by
  have : s.dec.gated = true := by simpa [Dec.gated] using hg
  simp [decAnswer, answer_running s _ h, this]

/-- A decoder command that runs to its end. -/
theorem decAnswer_ok (s : State) (dflt : Dec → Response) (body : Dec → Run Response) (h : s.fatal = false)
    (hs : s.dec.status = .okay) (d : Dec) (r : Response) (hb : body s.dec = .ok d r) :
    decAnswer s dflt body = .next ((s.withDec d).withRsp r) := by
  have : s.dec.gated = false := by simp [Dec.gated, hs]
  simp [decAnswer, answer_running s _ h, this, hb]

/-- A decoder command that a raise ends (60_exceptions.md R222). -/
theorem decAnswer_raised (s : State) (dflt : Dec → Response) (body : Dec → Run Response) (h : s.fatal = false)
    (hs : s.dec.status = .okay) (d : Dec) (hb : body s.dec = .raised d) :
    decAnswer s dflt body = .next ((s.withDec d).withRsp (dflt d)) := by
  have : s.dec.gated = false := by simp [Dec.gated, hs]
  simp [decAnswer, answer_running s _ h, this, hb]

/-! ## Construction -/

@[simp] theorem constructEnc_eq (s : State) :
    s.constructEnc =
      s.withEnc (encConstruct (s.readMask .enc s.estg.maskLen) s.estg.dpg (roundPadGroup s.estg.round)
        (roundPadChecks s.estg.round)) := rfl

@[simp] theorem constructDec_eq (s : State) :
    s.constructDec =
      s.withDec (decConstruct (s.readMask .dec s.dstg.maskLen) (s.readCode s.dstg.codeLen) s.dstg.dpg
        (roundPadGroup s.dstg.round) (roundPadChecks s.dstg.round)) := rfl

/-- The composite command changes DEC and `DBITS` only (43_code_to_bits.md R215). -/
theorem codeToBits_frame (s : State) : s.codeToBits = (s.withDec s.codeToBits.dec).withDbits s.codeToBits.dbits := rfl

end Sys2Proof.Machine
end

