-- ==== Sys2Proof/Laws/Decoder.lean ====
section
/-! SUPPORT. What the procedures of DEC that verify and collect bits can do, said once for each in terms of the bits the
decoder can still read (`Dec.inputBits`) and the check and pad bits due. -/

namespace Sys2Proof.Machine

/-- A decoder that differs only in its latch reads the same bits. -/
@[simp] theorem inputBits_latch (d : Dec) (l : Word32) (r : BitVec 6) :
    Dec.inputBits { d with latch := l, latchRem := r } = d.inputBits := rfl

@[simp] theorem inputBits_crc_latchRem (d : Dec) (c : Word32) (r : BitVec 6) :
    Dec.inputBits { d with crc := c, latchRem := r } = d.inputBits := rfl

/-! ## Which error a missing bit gives -/

theorem hasBadChar_dropWhile (cs : List Chr) : hasBadChar (cs.dropWhile isSeparator) = hasBadChar cs := by
  induction cs with
  | nil => rfl
  | cons c cs ih =>
    by_cases h : isSeparator c = true
    · simp [hasBadChar, h] at ih ⊢
      exact ih
    · simp [h]

/-- The bad characters ahead are those from the next character that is no separator. -/
theorem hasBadChar_skip (d : Dec) :
    hasBadChar (d.code.drop d.pos) = hasBadChar (d.code.drop (skipSeparators d.code d.pos)) := by
  rw [drop_skipSeparators, hasBadChar_dropWhile]

/-- The error of a raw bit that cannot be read (60_exceptions.md R221, R224). -/
theorem decRawBit_exhausted_status (d e : Dec) (h : d.status = .okay) (hr : decRawBit d = .raised e) :
    e.status = shortfall (d.code.drop d.pos) := by
  unfold shortfall
  rw [hasBadChar_skip]
  rcases decRawBit_cases d h with ⟨-, he⟩ | ⟨-, hn, he⟩ | ⟨-, c, hn, hv, he⟩ | ⟨-, c, v, -, -, he⟩
  · rw [he] at hr; cases hr
  · rw [he] at hr; cases hr
    simp [List.drop_eq_nil_of_le (List.getElem?_eq_none_iff.1 hn), hasBadChar]
  · rw [he] at hr; cases hr
    obtain ⟨hlt, hget⟩ := List.getElem?_eq_some_iff.1 hn
    rw [List.drop_eq_getElem_cons hlt, hget]
    simp [hasBadChar, skipSeparators_not_sep _ _ _ hn, hv]
  · rw [he] at hr; cases hr

/-- A raw bit that is read leaves the error of a missing bit as it was. -/
theorem decRawBit_shortfall (d e : Dec) (b : Bool) (h : d.status = .okay) (hr : decRawBit d = .ok e b) :
    shortfall (e.code.drop e.pos) = shortfall (d.code.drop d.pos) := by
  unfold shortfall
  rcases decRawBit_cases d h with ⟨-, he⟩ | ⟨-, hn, he⟩ | ⟨-, c, hn, hv, he⟩ | ⟨-, c, v, hn, hv, he⟩
  · rw [he] at hr; cases hr; rfl
  · rw [he] at hr; cases hr
  · rw [he] at hr; cases hr
  · rw [he] at hr; cases hr
    rw [hasBadChar_skip d]
    obtain ⟨hlt, hget⟩ := List.getElem?_eq_some_iff.1 hn
    rw [List.drop_eq_getElem_cons hlt, hget]
    simp [hasBadChar, hv]

/-! ## One bit of each kind -/

/-- A data bit is the first bit of the input stream; the check sees it and the latch is invalidated
(40_primitives.md R124). -/
theorem decDataBit_inputBits (d : Dec) (b : Bool) (bs : List Bool) (h : d.status = .okay)
    (hc : d.cursor < max 1 d.mask.length) (hi : d.inputBits = b :: bs) :
    ∃ e, decDataBit d = .ok e b ∧ e.inputBits = bs ∧ e.status = .okay ∧ e.crc = crcUpdate d.crc b ∧
      e.latch = d.latch ∧ e.latchRem = 0#6 ∧ e.cursor = nextCursor d.mask d.cursor ∧ d.sameParams e := by
  obtain ⟨e, he, h1, h2, h3, h4, -, h6, h7⟩ := decRawBit_inputBits d b bs h hc hi
  exact ⟨{ e with crc := crcUpdate e.crc b, latchRem := 0#6 }, by rw [decDataBit, he]; rfl, h1, h2, by rw [← h3], h4, rfl,
    h6, h7⟩

/-- With no bit left a data bit raises, before the check or the latch is touched (40_primitives.md R124). -/
theorem decDataBit_exhausted (d : Dec) (h : d.status = .okay) (hi : d.inputBits = []) :
    ∃ e, decDataBit d = .raised e ∧ (e.status = .tooShort ∨ e.status = .badDigit) ∧ e.crc = d.crc ∧
      e.latch = d.latch ∧ e.latchRem = d.latchRem ∧ e.cursor = d.cursor ∧ d.sameParams e := by
  obtain ⟨e, he, hr⟩ := decRawBit_exhausted d h hi
  exact ⟨e, by rw [decDataBit, he]; rfl, hr⟩

/-- A check bit passes exactly if the next bit is the one due; the check bits due after it are those that follow
(40_primitives.md R119, R123). -/
theorem decCheckBit_inputBits (d : Dec) (a : Bool) (bs : List Bool) (h : d.status = .okay)
    (hc : d.cursor < max 1 d.mask.length) (hi : d.inputBits = a :: bs) :
    ∃ e, e.inputBits = bs ∧ e.status = .okay ∧ e.crc = d.crc ∧
      e.latch = (loadLatch d.crc d.latch d.latchRem).shifted.snap ∧
      e.latchRem = (loadLatch d.crc d.latch d.latchRem).shifted.rem ∧ e.cursor = nextCursor d.mask d.cursor ∧
      d.sameParams e ∧
      decCheckBit d =
        if a = checkBitAt d.crc d.latch d.latchRem 0 then .ok e () else .raised { e with status := .badCheckBit } := by
  obtain ⟨e, he, h1, h2, h3, h4, h5, h6, h7⟩ :=
    decRawBit_inputBits
      { d with latch := (loadLatch d.crc d.latch d.latchRem).shifted.snap,
               latchRem := (loadLatch d.crc d.latch d.latchRem).shifted.rem } a bs h hc hi
  refine ⟨e, h1, h2, h3, h4, h5, h6, h7, ?_⟩
  rw [decCheckBit, he, Run.bind_ok, loadLatch_bit]
  split
  · rfl
  · exact raiseError_okay .badCheckBit e h2

/-- With no bit left a check bit raises the error of the missing symbol (40_primitives.md R123). -/
theorem decCheckBit_exhausted (d : Dec) (h : d.status = .okay) (hi : d.inputBits = []) :
    ∃ e, decCheckBit d = .raised e ∧ (e.status = .tooShort ∨ e.status = .badDigit) ∧ e.crc = d.crc ∧ d.sameParams e := by
  obtain ⟨e, he, h1, h2, -, -, -, h6⟩ :=
    decRawBit_exhausted
      { d with latch := (loadLatch d.crc d.latch d.latchRem).shifted.snap,
               latchRem := (loadLatch d.crc d.latch d.latchRem).shifted.rem } h hi
  exact ⟨e, by rw [decCheckBit, he]; rfl, h1, h2, h6⟩

/-- A zero pad bit passes exactly if the next bit is 0 (40_primitives.md R125). -/
theorem decZeroPadBit_inputBits (d : Dec) (a : Bool) (bs : List Bool) (h : d.status = .okay)
    (hc : d.cursor < max 1 d.mask.length) (hi : d.inputBits = a :: bs) :
    ∃ e, e.inputBits = bs ∧ e.status = .okay ∧ e.crc = d.crc ∧ e.latch = d.latch ∧ e.latchRem = d.latchRem ∧
      e.cursor = nextCursor d.mask d.cursor ∧ d.sameParams e ∧
      decZeroPadBit d = if a = false then .ok e () else .raised { e with status := .badCheckBit } := by
  obtain ⟨e, he, h1, h2, h3, h4, h5, h6, h7⟩ := decRawBit_inputBits d a bs h hc hi
  refine ⟨e, h1, h2, h3, h4, h5, h6, h7, ?_⟩
  rw [decZeroPadBit, he, Run.bind_ok]
  cases a
  · rfl
  · exact raiseError_okay .badCheckBit e h2

/-- A pad bit passes exactly if the next bit is the pad bit due; the pad bits due after it are those that follow
(42_decoder.md R183). -/
theorem decPadBit_inputBits (d : Dec) (a : Bool) (bs : List Bool) (h : d.status = .okay)
    (hc : d.cursor < max 1 d.mask.length) (hi : d.inputBits = a :: bs) :
    ∃ e, e.inputBits = bs ∧ e.status = .okay ∧ e.crc = d.crc ∧ e.cursor = nextCursor d.mask d.cursor ∧
      d.sameParams e ∧ (∀ k, e.padBitAt k = d.padBitAt (k + 1)) ∧
      decPadBit d = if a = d.padBitAt 0 then .ok e () else .raised { e with status := .badCheckBit } := by
  unfold decPadBit
  cases hp : d.padChecks
  · obtain ⟨e, h1, h2, h3, -, -, h6, h7, h8⟩ := decZeroPadBit_inputBits d a bs h hc hi
    refine ⟨e, h1, h2, h3, h6, h7, fun k => ?_, by simp [h8, Dec.padBitAt, hp]⟩
    simp [Dec.padBitAt, h7.2.2.2.1, hp]
  · obtain ⟨e, h1, h2, h3, h4, h5, h6, h7, h8⟩ := decCheckBit_inputBits d a bs h hc hi
    refine ⟨e, h1, h2, h3, h6, h7, fun k => ?_, by simp [h8, Dec.padBitAt, hp]⟩
    simp [Dec.padBitAt, h7.2.2.2.1, hp, h3, h4, h5, loadLatch_shifted]

/-- The trailing scan passes, at the end of the input, exactly if only separators remain (42_decoder.md R186). -/
theorem trailingScan_cases (d : Dec) (h : d.status = .okay) (hp : d.pos ≤ d.code.length) :
    (symbolsOf (d.code.drop d.pos) = [] ∧ trailingScan d = .ok { d with pos := d.code.length } ()) ∨
    (symbolsOf (d.code.drop d.pos) ≠ [] ∧
      trailingScan d = .raised { d with pos := skipSeparators d.code d.pos, status := .tooLong }) := by
  unfold trailingScan
  cases hc : d.code[skipSeparators d.code d.pos]? with
  | none =>
    refine .inl ⟨?_, ?_⟩
    · have hd := drop_skipSeparators d.code d.pos
      rw [List.drop_eq_nil_of_le (List.getElem?_eq_none_iff.1 hc)] at hd
      have := List.dropWhile_eq_nil_iff.1 hd.symm
      rw [symbolsOf, List.filter_eq_nil_iff]
      intro c hm
      simp [this c hm]
    · have h1 := List.getElem?_eq_none_iff.1 hc
      have h2 := skipSeparators_le d.code d.pos hp
      simp [show skipSeparators d.code d.pos = d.code.length by omega]
  | some c =>
    refine .inr ⟨?_, by simp only [hc]; exact raiseError_okay .tooLong _ h⟩
    have hs := skipSeparators_not_sep _ _ _ hc
    have hm : c ∈ d.code.drop d.pos := by
      have h1 : c ∈ d.code.drop (skipSeparators d.code d.pos) := by
        refine List.mem_of_getElem? (i := 0) ?_
        simpa using hc
      rw [drop_skipSeparators] at h1
      exact (List.dropWhile_sublist _).mem h1
    intro hn
    have := List.filter_eq_nil_iff.1 hn c hm
    simp [hs] at this

/-- Repetition over a sum. -/
theorem repeatRun_add (body : Dec → Run Unit) (m n : Nat) (d : Dec) :
    repeatRun body (m + n) d = (repeatRun body m d).bind fun e _ => repeatRun body n e := by
  induction m generalizing d with
  | zero => simp [repeatRun]
  | succ m ih =>
    rw [Nat.succ_add, repeatRun, repeatRun]
    cases body d with
    | ok e v => simp [ih]
    | raised e => rfl

/-- The loop of `D.C2B` collects every bit that can be read, and ends because the next one cannot
(43_code_to_bits.md R210). -/
theorem codeBitsLoop_inputBits (n : Nat) (d : Dec) (bs : List Bool) (h : d.status = .okay)
    (hc : d.cursor < max 1 d.mask.length) (hn : d.inputBits.length < n) :
    (codeBitsLoop n d bs).2 = bs ++ d.inputBits ∧
      ((codeBitsLoop n d bs).1.status = .tooShort ∨ (codeBitsLoop n d bs).1.status = .badDigit) ∧
      (codeBitsLoop n d bs).1.crc = crcOver d.crc d.inputBits ∧ d.sameParams (codeBitsLoop n d bs).1 := by
  induction n generalizing d bs with
  | zero => omega
  | succ n ih =>
    unfold codeBitsLoop
    cases hi : d.inputBits with
    | nil =>
      obtain ⟨e, he, h1, h2, -, -, -, h6⟩ := decDataBit_exhausted d h hi
      rw [he]
      exact ⟨by simp, h1, by simp [crcOver, h2], h6⟩
    | cons b cs =>
      obtain ⟨e, he, h1, h2, h3, -, -, h6, h7⟩ := decDataBit_inputBits d b cs h hc hi
      rw [he]
      rw [hi] at hn
      obtain ⟨k1, k2, k3, k4⟩ :=
        ih e (bs ++ [b]) h2 (by rw [h6, h7.2.1]; exact nextCursor_lt _ _ hc) (by rw [h1]; simpa using hn)
      refine ⟨by rw [k1, h1]; simp, k2, by rw [k3, h1, h3]; rfl, Dec.sameParams_trans h7 k4⟩

end Sys2Proof.Machine
end

