-- ==== Sys2Proof/Laws/Exec.lean ====
section
/-! SUPPORT. What each arm of exec answers while the block runs and while it is halted, and what a step can be. -/

namespace Sys2Proof.Machine

/-! ## One arm each -/

theorem exec_eInit (s : State) (h : s.fatal = false) : exec .eInit s = .next (s.constructEnc.withRsp rspDone) := by
  rw [exec, execEInit, answer_running s _ h]

theorem exec_eWbit (b : Bool) (s : State) (h : s.fatal = false) :
    exec (.eWbit b) s = .next ((s.withEnc (encDataBit b s.enc)).withRsp rspDone) := encAnswer_running s _ h

theorem exec_eWint (sg : Bool) (s : State) (h : s.fatal = false) :
    exec (.eWint sg) s =
      .next ((s.withEnc (encDataBits (wintBits s.par.intW sg s.ports) s.enc)).withRsp rspDone) :=
  encAnswer_running s _ h

theorem exec_eWchk (s : State) (h : s.fatal = false) :
    exec .eWchk s = .next ((s.withEnc (encCheckBit s.enc)).withRsp rspDone) := encAnswer_running s _ h

theorem exec_eWchkn (s : State) (h : s.fatal = false) :
    exec .eWchkn s = .next ((s.withEnc (repeatDo encCheckBit s.ports.opN.toNat s.enc)).withRsp rspDone) :=
  encAnswer_running s _ h

theorem exec_eResult (s : State) (h : s.fatal = false) :
    exec .eResult s = .next ((s.withEnc (encFinalise s.enc)).withRsp rspDone) := encAnswer_running s _ h

theorem exec_eNchk (s : State) (h : s.fatal = false) :
    exec .eNchk s = .next (s.withRsp (rspDoneCnt s.enc.checkCount)) := by
  rw [exec, execENchk, answer_running s _ h]

theorem exec_dInit (s : State) (h : s.fatal = false) : exec .dInit s = .next (s.constructDec.withRsp rspDone) := by
  rw [exec, execDInit, answer_running s _ h]

theorem exec_dC2b (s : State) (h : s.fatal = false) :
    exec .dC2b s = .next (s.codeToBits.withRsp (rspDoneStatus (cleanEnd s.codeToBits.dec.status))) := by
  rw [exec, execDC2b, answer_running s _ h]

theorem exec_dAc2b (s : State) (h : s.fatal = false) :
    exec .dAc2b s =
      .next ((if cleanEnd s.codeToBits.dec.status = .okay then s.codeToBits
        else s.codeToBits.withFatal true).withRsp (rspDoneStatus (cleanEnd s.codeToBits.dec.status))) := by
  rw [exec, execDAc2b, answer_running s _ h]

/-- Every command answers `HALTED` while `FATAL = 1` (30_encoding.md R87). -/
theorem exec_fatal (i : Instr) (s : State) (h : s.fatal = true) :
    exec i s = .next (s.withRsp (rspOnly .halted)) := by
  cases i <;>
    simp only [exec, execEInit, execEWbit, execEWint, execEWchk, execEWchkn, execEResult, execENchk, execDInit, execDRbit,
      execDRint, execDRchk, execDRchkn, execDFinish, execDC2b, execDAc2b, encAnswer, decAnswer, answer_halted s _ h]

/-! ## Steps -/

/-- What a step can be: an accepted command, legal or not, that finds a state sampled from the one before it; or a
transaction served without one. -/
theorem step_eq (s : State) :
    (∃ r, fetch s = .served r ∧ step s = r) ∨
    (∃ w t i, fetch s = .accepted w t ∧ legalInstr w = some i ∧ step s = exec i t) ∨
    (∃ w t, fetch s = .accepted w t ∧ legalInstr w = none ∧ step s = answerIllegal t) := by
  unfold step
  cases hf : fetch s with
  | served r => exact .inl ⟨r, rfl, rfl⟩
  | accepted w t =>
    cases hl : legalInstr w with
    | none => exact .inr (.inr ⟨w, t, rfl, hl, by simp only [hl]⟩)
    | some i => exact .inr (.inl ⟨w, t, i, rfl, hl, by simp only [hl]⟩)

/-- A write that lands in staging and overlaps a construction command that runs is refused (20_memory.md R72). -/
theorem acceptOverlapped_refused (s : State) (c : Command) (w : StagingWrite) (rest : List HostOp)
    (hf : s.fatal = false) (hc : constructionWord c.word = true) (hw : s.landsInStaging w = true) :
    s.acceptOverlapped c w rest = .served (.refused .stagingOverlap) := by
  simp [State.acceptOverlapped, hf, hc, hw]

/-- Any other write that overlaps a command is made first, and the command is accepted after it (log 10). -/
theorem acceptOverlapped_accepted (s t : State) (c : Command) (w : StagingWrite) (rest : List HostOp)
    (h : s.fatal = true ∨ constructionWord c.word = false ∨ s.landsInStaging w = false)
    (ht : (s.sampled c rest).stagingWrite w = .next t) :
    s.acceptOverlapped c w rest = .accepted c.word t := by
  have hb : (!s.fatal && constructionWord c.word && s.landsInStaging w) = false := by
    rcases h with h | h | h <;> simp [h]
  simp [State.acceptOverlapped, hb, ht]

/-- The state an accepted command runs in differs from the state before it in the transactions to come, the sampled
ports, and what an overlapping staging write changed (30_encoding.md R81, R83; log 10). -/
theorem fetch_accepted (s t : State) (w : CmdWord) (h : fetch s = .accepted w t) :
    s.rsp = none ∧ ∃ c rest, c.word = w ∧
      ((s.host = .command c :: rest ∧ t = s.sampled c rest) ∨
       ∃ wr, s.host = .overlapped c wr :: rest ∧ (s.fatal = false → constructionWord w = true → s.landsInStaging wr = false) ∧
         (s.sampled c rest).stagingWrite wr = .next t) := by
  unfold fetch at h
  split at h
  · cases h
  · next c rest hh =>
    split at h
    · next hr =>
      cases h
      exact ⟨by simpa [State.cmdReady] using hr, c, rest, rfl, .inl ⟨hh, rfl⟩⟩
    · cases h
  · next c wr rest hh =>
    split at h
    · next hr =>
      unfold State.acceptOverlapped at h
      split at h
      · cases h
      · next hc =>
        split at h
        · next t' ht =>
          cases h
          refine ⟨by simpa [State.cmdReady] using hr, c, rest, rfl, .inr ⟨wr, hh, ?_, ht⟩⟩
          intro hf hw
          simpa [hf, hw] using hc
        · cases h
        · cases h
    · cases h
  all_goals cases h

/-- A command placed by `withFetchWord` is what the next step accepts (log 2). -/
theorem fetch_withFetchWord (s : State) (nbits w : Nat) :
    fetch (s.withFetchWord nbits w) =
      .accepted (BitVec.ofNat 8 (w % 2 ^ nbits)) s.withoutRsp := rfl

end Sys2Proof.Machine
end

