-- ==== Sys2Proof/Laws/PerInstr.lean ====
section
/-! SUPPORT. Statements made of every command, one lemma per constructor of Instr. -/

namespace Sys2Proof.Laws.TableRow

/-- The word of a command selects the row of the opcode table that has its mnemonic, and no other row
(30_encoding.md R85). -/
def Statement (i : Instr) : Prop :=
  ((opcodeTable.filter fun r => r.selects (encode i)).map fun r => r.mnemonic) = [i.mnemonic]

theorem eInit : Statement .eInit := by
  unfold Statement
  decide

theorem eWbit (b : Bool) : Statement (.eWbit b) := by
  unfold Statement
  cases b <;> decide

theorem eWint (s : Bool) : Statement (.eWint s) := by
  unfold Statement
  cases s <;> decide

theorem eWchk : Statement .eWchk := by
  unfold Statement
  decide

theorem eWchkn : Statement .eWchkn := by
  unfold Statement
  decide

theorem eResult : Statement .eResult := by
  unfold Statement
  decide

theorem eNchk : Statement .eNchk := by
  unfold Statement
  decide

theorem dInit : Statement .dInit := by
  unfold Statement
  decide

theorem dRbit : Statement .dRbit := by
  unfold Statement
  decide

theorem dRint (s : Bool) : Statement (.dRint s) := by
  unfold Statement
  cases s <;> decide

theorem dRchk : Statement .dRchk := by
  unfold Statement
  decide

theorem dRchkn : Statement .dRchkn := by
  unfold Statement
  decide

theorem dFinish : Statement .dFinish := by
  unfold Statement
  decide

theorem dC2b : Statement .dC2b := by
  unfold Statement
  decide

theorem dAc2b : Statement .dAc2b := by
  unfold Statement
  decide

end Sys2Proof.Laws.TableRow
end

