-- ==== Sys2Proof/Machine/Assembler.lean ====
section
/-! DEFINITION. The assembler lines of 30_encoding.md R91 and the pseudo-instructions of R92, expanded to transactions of
the host. None is a command of the block; they say how a host program is made of commands and bus writes. -/

namespace Sys2Proof.Machine

/-- The names of the four round modes (10_state.md R41). -/
inductive RoundName where
  /-- `ZERO_TO_DIGIT`. -/
  | zeroToDigit
  /-- `ZERO_TO_GROUP`. -/
  | zeroToGroup
  /-- `CHECK_TO_DIGIT`. -/
  | checkToDigit
  /-- `CHECK_TO_GROUP`. -/
  | checkToGroup
deriving DecidableEq, Repr

/-- The value of a round mode in a round register (10_state.md R41). -/
def RoundName.value : RoundName → BitVec 2
  | .zeroToDigit => 0b00#2
  | .zeroToGroup => 0b01#2
  | .checkToDigit => 0b10#2
  | .checkToGroup => 0b11#2

/-- One line of a host program (30_encoding.md R91, R92). Integer operands are integers, as they are written. -/
inductive AsmLine where
  | eInit
  | eWbit (b : Bool)
  /-- `E.WINT.U` and `E.WINT.S`. -/
  | eWint (signed : Bool) (lo hi value : Int)
  | eWchk
  | eWchkn (n : Nat)
  | eResult
  | eNchk
  | dInit
  | dRbit
  /-- `D.RINT.U` and `D.RINT.S`. -/
  | dRint (signed : Bool) (lo hi : Int)
  | dRchk
  | dRchkn (n : Nat)
  | dFinish
  | dC2b
  | dAc2b
  /-- `E.WBITS` (R92). -/
  | eWbits (bs : List Bool)
  /-- `D.RBITS` (R92). -/
  | dRbits (k : Nat)
  /-- `E.SETUP` (R92). -/
  | eSetup (mask : List Bool) (dpg : Nat) (round : RoundName)
  /-- `D.SETUP` (R92). -/
  | dSetup (mask : List Bool) (dpg : Nat) (round : RoundName) (code : List Chr)
  /-- `D.LOAD` (R92). -/
  | dLoad (code : List Chr)
deriving DecidableEq, Repr

/-- Ports that name no operand; a command that names none ignores them (30_encoding.md R83). -/
def noPorts : Ports := { opMin := 0, opMax := 0, opVal := 0, opN := 0#32 }

/-- The host issues a command and takes its response (30_encoding.md R81). -/
def issueOps (i : Instr) (q : Ports) : List HostOp := [.command { word := encode i, ports := q }, .takeRsp]

/-- The bus writes of a mask: `MASK[i] <- m_i` for each `i`, then its length (30_encoding.md R92). -/
def maskOps (u : Side) (lenReg : Nat) (mask : List Bool) : List HostOp :=
  (mask.zipIdx.map fun b => HostOp.write (.mask u b.2 b.1)) ++ [.write (.reg lenReg mask.length)]

/-- The bus writes of a code: `DCODE[i] <-` character `i`, then its length (30_encoding.md R92). -/
def codeOps (code : List Chr) : List HostOp :=
  (code.zipIdx.map fun c => HostOp.write (.code c.2 c.1)) ++ [.write (.reg 0x13 code.length)]

/-- An integer operand that a port of `INT_W` bits can hold; a negative one only with `.S` (30_encoding.md R91,
00_scope.md R10). -/
def intFits (p : Params) (signed : Bool) (v : Int) : Bool :=
  if signed then decide (-(2 ^ (p.intW - 1) : Int) ≤ v ∧ v < 2 ^ (p.intW - 1)) else decide (0 ≤ v ∧ v < 2 ^ p.intW)

/-- A count that `op_n` can hold (30_encoding.md R83). -/
def countFits (n : Nat) : Bool := decide (n < 2 ^ 32)

/-- A mask and a group size that the staging registers can hold (10_state.md R40, 00_scope.md R8). -/
def setupFits (p : Params) (mask : List Bool) (dpg : Nat) : Bool :=
  decide (mask.length ≤ p.maskMax) && decide (dpg < 2 ^ 7)

/-- A code that `DCODE` can hold (20_memory.md R60, 00_scope.md R8). -/
def codeFits (p : Params) (code : List Chr) : Bool := decide (code.length ≤ p.codeMax)

/-- Can the registers and ports express a line (30_encoding.md R91, R92, 93_implementation_defined.md U15)? -/
def AsmLine.expressible (p : Params) : AsmLine → Bool
  | .eWint sg lo hi v => intFits p sg lo && intFits p sg hi && intFits p sg v
  | .dRint sg lo hi => intFits p sg lo && intFits p sg hi
  | .eWchkn n | .dRchkn n => countFits n
  | .eSetup mask dpg _ => setupFits p mask dpg
  | .dSetup mask dpg _ code => setupFits p mask dpg && codeFits p code
  | .dLoad code => codeFits p code
  | .eInit | .eWbit _ | .eWchk | .eResult | .eNchk | .eWbits _ => true
  | .dInit | .dRbit | .dRchk | .dFinish | .dC2b | .dAc2b | .dRbits _ => true

/-- The transactions a line stands for (30_encoding.md R91, R92), if it is `AsmLine.expressible`. DESIGN CHOICE: a line
that is not is no program of the block (93_implementation_defined.md U15); `assemble` refuses it, and what this function
gives for it alone, each operand modulo the width of its port, is never used (log 20). -/
def AsmLine.expand (p : Params) : AsmLine → List HostOp
  | .eInit => issueOps .eInit noPorts
  | .eWbit b => issueOps (.eWbit b) noPorts
  | .eWint sg lo hi v =>
    issueOps (.eWint sg) { opMin := patOf p.intW lo, opMax := patOf p.intW hi, opVal := patOf p.intW v, opN := 0#32 }
  | .eWchk => issueOps .eWchk noPorts
  | .eWchkn n => issueOps .eWchkn { noPorts with opN := BitVec.ofNat 32 n }
  | .eResult => issueOps .eResult noPorts
  | .eNchk => issueOps .eNchk noPorts
  | .dInit => issueOps .dInit noPorts
  | .dRbit => issueOps .dRbit noPorts
  | .dRint sg lo hi => issueOps (.dRint sg) { noPorts with opMin := patOf p.intW lo, opMax := patOf p.intW hi }
  | .dRchk => issueOps .dRchk noPorts
  | .dRchkn n => issueOps .dRchkn { noPorts with opN := BitVec.ofNat 32 n }
  | .dFinish => issueOps .dFinish noPorts
  | .dC2b => issueOps .dC2b noPorts
  | .dAc2b => issueOps .dAc2b noPorts
  | .eWbits bs => bs.flatMap fun b => issueOps (.eWbit b) noPorts
  | .dRbits k => (List.replicate k (issueOps .dRbit noPorts)).flatten
  | .eSetup mask dpg round =>
    maskOps .enc 0x02 mask ++ [.write (.reg 0x00 dpg), .write (.reg 0x01 round.value.toNat)] ++ issueOps .eInit noPorts
  | .dSetup mask dpg round code =>
    maskOps .dec 0x12 mask ++ [.write (.reg 0x10 dpg), .write (.reg 0x11 round.value.toNat)] ++ codeOps code ++
      issueOps .dInit noPorts
  | .dLoad code => codeOps code

/-- A host program, line by line; `none` for a program with a line that the registers and ports cannot express. DESIGN
CHOICE: of the two ways 93_implementation_defined.md U15 gives for such an operand, the model refuses (log 20). -/
def assemble (p : Params) (lines : List AsmLine) : Option (List HostOp) :=
  if lines.all (AsmLine.expressible p) then some (lines.flatMap (AsmLine.expand p)) else none

end Sys2Proof.Machine
end

