-- ==== Sys2Proof/Tests/Slice0.lean ====
section
/-! SUPPORT. The model's own tests: each check of WellFormed on an ill-formed term, the words of every command written out
from 30_encoding.md R85, one or two steps of every command against the spec's examples, and a state that meets the
hypotheses of each statement. -/

namespace Sys2Proof.Tests

open Sys2Proof Sys2Proof.Machine

/-! ## Ill-formed terms are refused -/

theorem test_wf_intW_zero : Params.wf { intW := 0, mlenW := 16, clenW := 16 } = false := by decide

theorem test_wf_suggested : Params.suggested.wf = true := by decide

/-- Ports of the given bounds and value. -/
def intPorts (lo hi v : Nat) : Ports := { opMin := lo, opMax := hi, opVal := v, opN := 0#32 }

/-- Ports of the given count. -/
def nPorts (n : Nat) : Ports := { opMin := 0, opMax := 0, opVal := 0, opN := BitVec.ofNat 32 n }

theorem test_wf_ports : (intPorts 0xFFFFFFFF 0 5).wf Params.suggested = true := by decide

theorem test_wf_opMin_wide : (intPorts 0x100000000 0 0).wf Params.suggested = false := by decide

theorem test_wf_opMax_wide : (intPorts 0 0x100000000 0).wf Params.suggested = false := by decide

theorem test_wf_opVal_wide : (intPorts 0 0 0x100000000).wf Params.suggested = false := by decide

theorem test_wf_mask_addr : StagingWrite.wf Params.suggested (.mask .enc 65535 true) = false := by decide

theorem test_wf_code_addr : StagingWrite.wf Params.suggested (.code 65535 0x41#8) = false := by decide

theorem test_wf_last_cells : StagingWrite.wf Params.suggested (.mask .dec 65534 true) = true ∧
    StagingWrite.wf Params.suggested (.code 65534 0x41#8) = true := by decide

theorem test_wf_op_command :
    HostOp.wf Params.suggested (.command { word := 0x02#8, ports := intPorts 0x100000000 0 0 }) = false := by
  decide

theorem test_wf_op_overlapped_ports :
    HostOp.wf Params.suggested (.overlapped { word := 0x02#8, ports := intPorts 0 0x100000000 0 } (.reg 0 0)) = false := by
  decide

theorem test_wf_op_overlapped_write :
    HostOp.wf Params.suggested (.overlapped { word := 0x02#8, ports := intPorts 0 0 0 }
      (.mask .dec 65535 true)) = false := by
  decide

theorem test_wf_op_write : HostOp.wf Params.suggested (.write (.code 70000 0x41#8)) = false := by decide

theorem test_wf_op_readMask : HostOp.wf Params.suggested (.readMask .enc 65535) = false := by decide

theorem test_wf_op_readCode : HostOp.wf Params.suggested (.readCode 65535) = false := by decide

theorem test_wf_memory_order : Memory.wf [(3, true), (3, false)] = false ∧ Memory.wf [(4, true), (3, false)] = false := by
  decide

/-! ## Words written out from 30_encoding.md R82 and R85: U Z S B OP -/

theorem test_word_eInit : decodeWord 0b00000000#8 = .ok .eInit := by rfl

theorem test_word_eWbit0 : decodeWord 0b00000001#8 = .ok (.eWbit false) := by rfl

theorem test_word_eWbit1 : decodeWord 0b00010001#8 = .ok (.eWbit true) := by rfl

theorem test_word_eWintU : decodeWord 0b00000010#8 = .ok (.eWint false) := by rfl

theorem test_word_eWintS : decodeWord 0b00100010#8 = .ok (.eWint true) := by rfl

theorem test_word_eWchk : decodeWord 0b00000011#8 = .ok .eWchk := by rfl

theorem test_word_eWchkn : decodeWord 0b00000100#8 = .ok .eWchkn := by rfl

theorem test_word_eResult : decodeWord 0b00000101#8 = .ok .eResult := by rfl

theorem test_word_eNchk : decodeWord 0b00000110#8 = .ok .eNchk := by rfl

theorem test_word_dInit : decodeWord 0b10000000#8 = .ok .dInit := by rfl

theorem test_word_dRbit : decodeWord 0b10000001#8 = .ok .dRbit := by rfl

theorem test_word_dRintU : decodeWord 0b10000010#8 = .ok (.dRint false) := by rfl

theorem test_word_dRintS : decodeWord 0b10100010#8 = .ok (.dRint true) := by rfl

theorem test_word_dRchk : decodeWord 0b10000011#8 = .ok .dRchk := by rfl

theorem test_word_dRchkn : decodeWord 0b10000100#8 = .ok .dRchkn := by rfl

theorem test_word_dFinish : decodeWord 0b10000101#8 = .ok .dFinish := by rfl

theorem test_word_dC2b : decodeWord 0b10001000#8 = .ok .dC2b := by rfl

theorem test_word_dAc2b : decodeWord 0b10001001#8 = .ok .dAc2b := by rfl

theorem test_word_reserved : decodeWord 0b01000001#8 = .error .reservedBit := by rfl

theorem test_word_unassigned : decodeWord 0b00000111#8 = .error .unassignedOp ∧
    decodeWord 0b10000110#8 = .error .unassignedOp := ⟨rfl, rfl⟩

theorem test_word_strayB : decodeWord 0b10010001#8 = .error .strayB := by rfl

theorem test_word_strayS : decodeWord 0b00100001#8 = .error .strayS := by rfl

theorem test_table_words : decodeTableWord 8 0x89 = some .dAc2b ∧ decodeTableWord 8 0x42 = none := ⟨rfl, rfl⟩

/-! ## Small states -/

/-- The reset state with an encoder. -/
def encState (e : Enc) : State := State.reset.withEnc e

/-- A fresh encoder. -/
def freshEnc : Enc := encConstruct [] 0#7 false false

/-- The reset state with a decoder on a code, no mask and no groups. -/
def decState (code : List Chr) : State := State.reset.withDec (decConstruct [] code 0#7 false false)

/-- The reset state with a code staged in `DCODE`. -/
def stagedState (code : List Chr) : State :=
  (State.reset.withDcode ((List.range code.length).zip code)).withDstg
    { dpg := 3#7, round := 3#2, maskLen := 0, codeLen := code.length }

/-- The encoder after the data bits 1,0,1,1,0,0,1 (95_test_vectors.md 2.5): "W" out, two bits held. -/
def encWI (padChecks : Bool) : Enc :=
  { freshEnc with crc := 0xFC9D0685#32, acc := 0b01#5, nbits := 2#3, out := [0x57#8], padChecks := padChecks }

/-- The decoder on a code that begins "WI" after seven `D.RBIT` (42_decoder.md R184, example). -/
def decWI (rest : List Chr) : Dec :=
  { decConstruct [] ([0x57#8, 0x49#8] ++ rest) 0#7 false false with
    crc := 0xFC9D0685#32, sym := 8#5, bitsLeft := 3#3, pos := 2 }

/-- What a field of the next state holds, if there is a next state. -/
def after {α : Type} (r : Result) (f : State → α) : Option α := (stateAfter r).map f

/-! ## One or two steps of every command -/

/-- 70_reset_and_hazards.md R251, example. -/
theorem test_eInit :
    after (exec .eInit ((State.reset.withEmask [(0, true), (1, false), (2, true)]).withEstg
        { dpg := 4#7, round := 3#2, maskLen := 3 }))
      (fun t => (t.enc.mask, t.enc.dpg, t.enc.padGroup, t.enc.padChecks)) =
      some ([true, false, true], 4#7, true, true) := by decide

/-- 41_encoder.md R140, example. -/
theorem test_eWbit_fresh :
    after (exec (.eWbit true) State.reset) (fun t => (t.enc.crc, t.enc.acc, t.enc.nbits, t.enc.out)) =
      some (0x92477CDF#32, 1#5, 1#3, []) := by decide

/-- 40_primitives.md R114 and R116, examples: the fifth bit emits 'W', after a separator when a group is complete. -/
theorem test_eWbit_emits :
    after (exec (.eWbit false) (encState
        { freshEnc with acc := 0b01011#5, nbits := 4#3, out := [0x41#8, 0x42#8, 0x43#8], dpg := 3#7 }))
      (fun t => (t.enc.out, t.enc.acc, t.enc.nbits, t.enc.remInGroup)) =
      some ([0x41#8, 0x42#8, 0x43#8, 0x20#8, 0x57#8], 0#5, 0#3, 2#7) := by decide

/-- 41_encoder.md R142, example: writes bits 1, 0. -/
theorem test_eWint_unsigned :
    after (exec (.eWint false) (State.reset.withPorts (intPorts 10 13 12))) (fun t => (t.enc.acc, t.enc.nbits)) =
      some (0b10#5, 2#3) := by decide

/-- 41_encoder.md R143, example: `E.WINT.S −3, 4, −8` writes 0, 0, 0. -/
theorem test_eWint_clamped :
    after (exec (.eWint true) (State.reset.withPorts (intPorts 0xFFFFFFFD 4 0xFFFFFFF8)))
      (fun t => (t.enc.acc, t.enc.nbits, t.enc.crc)) = some (0#5, 3#3, 0x1FFFFFFF#32) := by decide

/-- 95_test_vectors.md 2.4, first row. -/
theorem test_eWchk :
    after (exec .eWchk State.reset) (fun t => (t.enc.latch, t.enc.latchRem, t.enc.acc, t.enc.checkCount, t.enc.crc)) =
      some (0x7FFFFFFF#32, 31#6, 1#5, 1#32, 0xFFFFFFFF#32) := by decide

/-- 95_test_vectors.md 2.4, third row. -/
theorem test_eWchkn :
    after (exec .eWchkn (State.reset.withPorts (nPorts 5)))
      (fun t => (t.enc.latch, t.enc.latchRem, t.enc.out, t.enc.checkCount)) =
      some (0x07FFFFFF#32, 27#6, [0x39#8], 5#32) := by decide

/-- 41_encoder.md R150, example: "WI". -/
theorem test_eResult_zero :
    after (exec .eResult (encState (encWI false))) (fun t => (t.enc.out, t.enc.checkCount, t.enc.nbits)) =
      some ([0x57#8, 0x49#8], 0#32, 0#3) := by decide

/-- 41_encoder.md R150, example: "WN" with check bits. -/
theorem test_eResult_checks :
    after (exec .eResult (encState (encWI true))) (fun t => (t.enc.out, t.enc.checkCount)) =
      some ([0x57#8, 0x4E#8], 3#32) := by decide

/-- 41_encoder.md R154, example. -/
theorem test_eNchk :
    after (exec .eNchk (encState { freshEnc with checkCount := 9#32 })) (fun t => t.rsp) =
      some (some (rspDoneCnt 9#32)) := by decide

/-- 70_reset_and_hazards.md R252: the old status is cleared and the code is copied, not examined. -/
theorem test_dInit :
    after (exec .dInit ((stagedState [0x34#8]).withDec { decConstruct [] [] 0#7 false false with status := .tooLong }))
      (fun t => (t.dec.status, t.dec.code, t.dec.dpg, t.dec.padGroup)) = some (.okay, [0x34#8], 3#7, true) := by decide

/-- 42_decoder.md R172, example: the first bit of "W". -/
theorem test_dRbit :
    after (exec .dRbit (decState [0x57#8])) (fun t => (t.rsp, t.dec.crc, t.dec.bitsLeft, t.dec.sym, t.dec.pos)) =
      some (some (rspDoneBit true), 0x92477CDF#32, 4#3, 22#5, 1) := by decide

/-- 95_test_vectors.md 2.6: "4" is `BAD_DIGIT`. -/
theorem test_dRbit_bad :
    after (exec .dRbit (decState [0x34#8])) (fun t => (t.rsp, t.dec.crc, t.dec.status)) =
      some (some (rspDoneBit false), 0xFFFFFFFF#32, .badDigit) := by decide

/-- 42_decoder.md R174, example: 12. -/
theorem test_dRint :
    after (exec (.dRint false) ((decState [0x57#8]).withPorts (intPorts 10 13 0))) (fun t => (t.rsp, t.dec.status)) =
      some (some (rspDoneInt 12), .okay) := by decide

/-- 95_test_vectors.md 1.6: `D.RINT.U 0, 5` on "9" is `OUT_OF_RANGE` and returns 5. -/
theorem test_dRint_range :
    after (exec (.dRint false) ((decState [0x39#8]).withPorts (intPorts 0 5 0)))
      (fun t => (t.rsp, t.dec.status, t.dec.crc, t.dec.bitsLeft)) =
      some (some (rspDoneInt 5), .outOfRange, 0xBFF51D87#32, 2#3) := by decide

/-- 42_decoder.md R180: on a fresh instance the expected bit is 1. -/
theorem test_dRchk_pass :
    after (exec .dRchk (decState [0x39#8])) (fun t => (t.dec.status, t.dec.crc, t.dec.latchRem)) =
      some (.okay, 0xFFFFFFFF#32, 31#6) := by decide

theorem test_dRchk_fail : after (exec .dRchk (decState [0x41#8])) (fun t => t.dec.status) = some .badCheckBit := by decide

/-- 42_decoder.md R182, example: the 7th bit of "9S" mismatches. -/
theorem test_dRchkn :
    after (exec .dRchkn ((decState [0x39#8, 0x53#8]).withPorts (nPorts 8))) (fun t => (t.dec.status, t.dec.bitsLeft)) =
      some (.badCheckBit, 3#3) := by decide

/-- 42_decoder.md R184, example: "WI" after seven bits. -/
theorem test_dFinish :
    after (exec .dFinish (State.reset.withDec (decWI []))) (fun t => (t.rsp, t.dec.status)) =
      some (some (rspDoneStatus .okay), .okay) := by decide

/-- 42_decoder.md R186, example: "WI X". -/
theorem test_dFinish_long :
    after (exec .dFinish (State.reset.withDec (decWI [0x20#8, 0x58#8]))) (fun t => (t.rsp, t.dec.status, t.dec.pos)) =
      some (some (rspDoneStatus .tooLong), .tooLong, 3) := by decide

/-- 43_code_to_bits.md R210, example: "w i". -/
theorem test_dC2b :
    after (exec .dC2b (stagedState [0x77#8, 0x20#8, 0x69#8])) (fun t => (t.rsp, t.dbits, t.dec.status)) =
      some (some (rspDoneStatus .okay),
        [true, false, true, true, false, false, true, false, false, false], .tooShort) := by
  decide

/-- 43_code_to_bits.md R213, example: "AB4". -/
theorem test_dAc2b :
    after (exec .dAc2b (stagedState [0x41#8, 0x42#8, 0x34#8])) (fun t => (t.rsp, t.dbits, t.fatal)) =
      some (some (rspDoneStatus .badDigit),
        [false, false, false, false, false, false, false, false, false, true], true) := by
  decide

/-- A step from reset runs the command that is placed for it (log 2). -/
theorem test_step_withFetchWord :
    after (step (State.reset.withFetchWord 8 0x11)) (fun t => (t.enc.crc, t.host)) = some (0x92477CDF#32, []) := by decide

/-- 30_encoding.md R86 and R87. -/
theorem test_step_illegal_and_halted :
    after (step (State.reset.withFetchWord 8 0x41)) (fun t => t.rsp) = some (some (rspOnly .illegal)) ∧
    after (step ((State.reset.withFatal true).withFetchWord 8 0x41)) (fun t => t.rsp) = some (some (rspOnly .halted)) := by
  decide

/-! ## A state and operands that meet the hypotheses of each statement

The name says the statement. Where a statement has clauses, each has its witness, at a boundary where its range has
one. -/

/-- A command word presented with ports. -/
def present (w : CmdWord) (q : Ports) : HostOp := .command { word := w, ports := q }

/-- The reset state with one transaction to come. -/
def hostState (op : HostOp) : State := State.reset.withHost [op]

/-- A command with zero ports, overlapped by a host write. -/
def overlap (w : CmdWord) (sw : StagingWrite) : HostOp := .overlapped { word := w, ports := intPorts 0 0 0 } sw

/-- The decoder state with a status that is an error. -/
def erredState : State := State.reset.withDec { decConstruct [] [] 0#7 false false with status := .tooShort }

theorem witness_IllegalWordsAsListed :
    opcodeTable[1]? = some { mnemonic := "E.WBIT", pattern := 0x01#8, mask := 0xEF#8 } ∧ 0x11#8 &&& 0xEF#8 = 0x01#8 := by
  decide

theorem witness_StepRunsAcceptedCommand :
    (hostState (present 0x22#8 (intPorts 7 0 3))).host = [.command { word := 0x22#8, ports := intPorts 7 0 3 }] ∧
    (hostState (present 0x22#8 (intPorts 7 0 3))).rsp = none ∧ decodeWord 0x22#8 = .ok (.eWint true) := ⟨rfl, rfl, rfl⟩

theorem witness_IllegalWordChangesNothing :
    (hostState (present 0x07#8 (intPorts 0 0 0))).running ∧
    (hostState (present 0x07#8 (intPorts 0 0 0))).host = [.command { word := 0x07#8, ports := intPorts 0 0 0 }] ∧
    (hostState (present 0x07#8 (intPorts 0 0 0))).rsp = none ∧ decodeWord 0x07#8 = .error .unassignedOp :=
  ⟨rfl, rfl, rfl, rfl⟩

theorem witness_HaltedAnswersEveryWord :
    ((hostState (present 0x41#8 (intPorts 0 0 0))).withFatal true).fatal = true ∧
    ((hostState (present 0x41#8 (intPorts 0 0 0))).withFatal true).host =
      [.command { word := 0x41#8, ports := intPorts 0 0 0 }] ∧
    ((hostState (present 0x41#8 (intPorts 0 0 0))).withFatal true).rsp = none := ⟨rfl, rfl, rfl⟩

theorem witness_HandshakeHoldsCommands :
    ((hostState (present 0x00#8 (intPorts 0 0 0))).withRsp rspDone).host =
      [.command { word := 0x00#8, ports := intPorts 0 0 0 }] ∧
    ((hostState (present 0x00#8 (intPorts 0 0 0))).withRsp rspDone).rsp = some rspDone ∧
    (hostState .takeRsp).host = [.takeRsp] ∧
    exec .eNchk State.reset = .next (State.reset.withRsp (rspDoneCnt 0#32)) := ⟨rfl, rfl, rfl, rfl⟩

/-- For the statements whose only premise is that `FATAL = 0`: EInitConstructsEncoder, EWbitWritesDataBit,
EWintWritesOffsetBits, EWchkEmitsLatchBit, ENchkReturnsCounter, DC2bUsesDefaultSettings,
DC2bDecodesStagedCode, DAc2bHaltsOnBadCode. -/
theorem witness_running : (encState (encWI true)).running ∧ (stagedState [0x41#8, 0x34#8]).running := ⟨rfl, rfl⟩

theorem witness_EInitConstructsEncoder :
    (State.reset.withEstg { dpg := 4#7, round := 3#2, maskLen := 3 }).running ∧
    2 < (State.reset.withEstg { dpg := 4#7, round := 3#2, maskLen := 3 }).estg.maskLen := ⟨rfl, by decide⟩

theorem witness_EWintEqualBoundsWriteNothing :
    (State.reset.withPorts (intPorts 5 5 99)).running ∧
    intOf 32 false (intPorts 5 5 99).opMin = intOf 32 false (intPorts 5 5 99).opMax := ⟨rfl, rfl⟩

/-- Both clauses, the second at the largest sum; and the case `n = 0` of the first. -/
theorem witness_EWchknRepeatsEWchk :
    (State.reset.withPorts (nPorts 0)).running ∧ (State.reset.withPorts (nPorts 0)).ports.opN = 0#32 ∧
    0xFFFFFFFE + 1 < 2 ^ 32 := ⟨rfl, rfl, by decide⟩

theorem witness_CheckBitsRunRoundTheCheck :
    (encState (encWI false)).running ∧ (encState (encWI false)).enc.latchRem = 0#6 := ⟨rfl, rfl⟩

theorem witness_EResultPadsToBoundary :
    (encState (encWI true)).running ∧ (encState (encWI true)).enc.Inv (encState (encWI true)).par :=
  ⟨rfl, by decide, by decide, by decide, by decide, by decide, by decide, by decide, by decide, by decide⟩

theorem witness_SecondEResultEmitsNothing :
    (encState (encWI true)).running ∧ (encState (encWI true)).enc.Inv (encState (encWI true)).par ∧
    ∃ t, exec .eResult (encState (encWI true)) = .next t :=
  ⟨rfl, ⟨by decide, by decide, by decide, by decide, by decide, by decide, by decide, by decide, by decide⟩,
    _, exec_eResult _ rfl⟩

theorem witness_EncoderCommandsNeverFail :
    encCommand .eWchkn = true ∧ (State.reset.withPorts (nPorts 33)).running := ⟨rfl, rfl⟩

/-- The clause on clearing a status, and the construction with cells to copy. -/
theorem witness_DInitConstructsDecoder :
    (∃ t, exec .dInit erredState = .next t ∧ erredState.dec.status ≠ .okay ∧ t.dec.status = .okay) ∧
    (stagedState [0x41#8]).running ∧ 0 < (stagedState [0x41#8]).dstg.codeLen :=
  ⟨⟨_, exec_dInit _ rfl, by decide, rfl⟩, rfl, by decide⟩

/-- With a symbol held, with none held, and with no bit left for either reason. -/
theorem witness_DRbitReturnsNextBit :
    (let s := State.reset.withDec (decWI []);
      s.safe ∧ s.dec.cursor < max 1 s.dec.mask.length ∧ s.dec.inputBits = false :: [false, false] ∧
      s.dec.bitsLeft ≠ 0#3) ∧
    (let s := decState [0x57#8];
      s.safe ∧ s.dec.cursor < max 1 s.dec.mask.length ∧ s.dec.inputBits = true :: [false, true, true, false] ∧
      s.dec.bitsLeft = 0#3) ∧
    (let s := decState [0x20#8]; s.safe ∧ s.dec.inputBits = []) ∧
    (let s := decState [0x34#8]; s.safe ∧ s.dec.inputBits = []) :=
  ⟨⟨⟨rfl, rfl⟩, by decide, by decide, by decide⟩, ⟨⟨rfl, rfl⟩, by decide, by decide, by decide⟩, ⟨⟨rfl, rfl⟩, by decide⟩,
    ⟨rfl, rfl⟩, by decide⟩

/-- The least width for a span of 3, and for a span of 5. -/
theorem least_width_three (w : Nat) (h : (3 : Int) < 2 ^ w) : 2 ≤ w := by
  match w, h with
  | 0, h => exact absurd h (by decide)
  | 1, h => exact absurd h (by decide)
  | w + 2, _ => simp

theorem least_width_five (w : Nat) (h : (5 : Int) < 2 ^ w) : 3 ≤ w := by
  match w, h with
  | 0, h => exact absurd h (by decide)
  | 1, h => exact absurd h (by decide)
  | 2, h => exact absurd h (by decide)
  | w + 3, _ => simp

/-- Two bits for the bounds 10 and 13 on "W", in range; three bits for the bounds 5 and 0 on "9", out of range. -/
theorem witness_DRintReadsValue :
    (let s := (decState [0x57#8]).withPorts (intPorts 10 13 0);
      let lo := min (intOf s.par.intW false s.ports.opMin) (intOf s.par.intW false s.ports.opMax);
      let hi := max (intOf s.par.intW false s.ports.opMin) (intOf s.par.intW false s.ports.opMax);
      s.safe ∧ s.dec.cursor < max 1 s.dec.mask.length ∧ s.dec.inputBits = [true, false] ++ [true, true, false] ∧
      hi - lo < 2 ^ [true, false].length ∧ ∀ w : Nat, hi - lo < 2 ^ w → [true, false].length ≤ w) ∧
    (let s := (decState [0x39#8]).withPorts (intPorts 5 0 0);
      let lo := min (intOf s.par.intW false s.ports.opMin) (intOf s.par.intW false s.ports.opMax);
      let hi := max (intOf s.par.intW false s.ports.opMin) (intOf s.par.intW false s.ports.opMax);
      s.safe ∧ s.dec.cursor < max 1 s.dec.mask.length ∧ s.dec.inputBits = [true, true, true] ++ [true, true] ∧
      hi - lo < 2 ^ [true, true, true].length ∧ ∀ w : Nat, hi - lo < 2 ^ w → [true, true, true].length ≤ w) :=
  ⟨⟨⟨rfl, rfl⟩, by decide, by decide, by decide, fun w h => least_width_three w h⟩, ⟨rfl, rfl⟩, by decide, by decide,
    by decide, fun w h => least_width_five w h⟩

/-- The least span that the five bits of "A" cannot hold. -/
theorem witness_DRintEndsAtFailingBit :
    let s := (decState [0x41#8]).withPorts (intPorts 0 32 0)
    let lo := min (intOf s.par.intW false s.ports.opMin) (intOf s.par.intW false s.ports.opMax)
    let hi := max (intOf s.par.intW false s.ports.opMin) (intOf s.par.intW false s.ports.opMax)
    s.safe ∧ s.dec.cursor < max 1 s.dec.mask.length ∧ 2 ^ s.dec.inputBits.length ≤ hi - lo :=
  ⟨⟨rfl, rfl⟩, by decide, by decide⟩

theorem witness_DRintEqualBoundsReadNothing :
    (erredState.withPorts (intPorts 5 5 0)).running ∧ intOf 32 true 5 = intOf 32 true 5 := ⟨rfl, rfl⟩

/-- A matching bit, a differing bit, and no bit. -/
theorem witness_DRchkVerifiesBit :
    (let s := decState [0x39#8];
      s.safe ∧ s.dec.cursor < max 1 s.dec.mask.length ∧ s.dec.inputBits = true :: [true, true, true, true]) ∧
    (let s := decState [0x41#8];
      s.safe ∧ s.dec.cursor < max 1 s.dec.mask.length ∧ s.dec.inputBits = false :: [false, false, false, false]) ∧
    (let s := decState []; s.safe ∧ s.dec.inputBits = []) :=
  ⟨⟨⟨rfl, rfl⟩, by decide, by decide⟩, ⟨⟨rfl, rfl⟩, by decide, by decide⟩, ⟨rfl, rfl⟩, by decide⟩

theorem witness_DRchknVerifiesBits :
    let s := (decState [0x39#8]).withPorts (nPorts 5)
    s.safe ∧ s.dec.cursor < max 1 s.dec.mask.length ∧
    ∀ k, k < s.ports.opN.toNat →
      s.dec.inputBits[k]? = some (checkBitAt s.dec.crc s.dec.latch s.dec.latchRem k) :=
  ⟨⟨rfl, rfl⟩, by decide, by decide⟩

/-- The 7th bit of "9S" differs; the 6th of "9" is missing. -/
theorem witness_DRchknStopsAtFirstFailure :
    (let s := (decState [0x39#8, 0x53#8]).withPorts (nPorts 8);
      s.safe ∧ s.dec.cursor < max 1 s.dec.mask.length ∧ 6 < s.ports.opN.toNat ∧
      (∀ k, k < 6 → s.dec.inputBits[k]? = some (checkBitAt s.dec.crc s.dec.latch s.dec.latchRem k)) ∧
      s.dec.inputBits[6]? ≠ some (checkBitAt s.dec.crc s.dec.latch s.dec.latchRem 6)) ∧
    (let s := (decState [0x39#8]).withPorts (nPorts 6);
      s.safe ∧ s.dec.cursor < max 1 s.dec.mask.length ∧ 5 < s.ports.opN.toNat ∧
      (∀ k, k < 5 → s.dec.inputBits[k]? = some (checkBitAt s.dec.crc s.dec.latch s.dec.latchRem k)) ∧
      s.dec.inputBits[5]? ≠ some (checkBitAt s.dec.crc s.dec.latch s.dec.latchRem 5)) :=
  ⟨⟨⟨rfl, rfl⟩, by decide, by decide, by decide, by decide⟩, ⟨rfl, rfl⟩, by decide, by decide, by decide, by decide⟩

/-- "WI" after seven bits; and a group of three to fill, one symbol of it left. -/
theorem witness_DFinishAcceptsPadding :
    ((State.reset.withDec (decWI [])).safe ∧ (decWI []).cursor < max 1 (decWI []).mask.length ∧
      (decWI []).pos ≤ (decWI []).code.length ∧ ((decWI []).dpg = 0#7 → (decWI []).remInGroup = 0#7) ∧
      (∀ k, k < (decWI []).padCount → (decWI []).inputBits[k]? = some ((decWI []).padBitAt k)) ∧
      (symbolsOf ((decWI []).code.drop (decWI []).pos)).length = 0) ∧
    (let d : Dec := { decWI [0x41#8, 0x20#8] with dpg := 3#7, remInGroup := 1#7, padGroup := true };
      (State.reset.withDec d).safe ∧ d.cursor < max 1 d.mask.length ∧
      d.pos ≤ d.code.length ∧ (d.dpg = 0#7 → d.remInGroup = 0#7) ∧
      (∀ k, k < d.padCount → d.inputBits[k]? = some (d.padBitAt k)) ∧
      (symbolsOf (d.code.drop d.pos)).length = d.remInGroup.toNat) :=
  ⟨⟨⟨rfl, rfl⟩, by decide, by decide, by decide, by decide, by decide⟩, ⟨rfl, rfl⟩, by decide, by decide, by decide,
    by decide, by decide⟩

/-- A wrong last pad bit ("WJ"), padding that ends early, and a symbol too many. -/
theorem witness_DFinishReportsFirstError :
    (let d : Dec := { decWI [] with sym := 9#5 };
      (State.reset.withDec d).safe ∧ d.cursor < max 1 d.mask.length ∧ (d.dpg = 0#7 → d.remInGroup = 0#7) ∧
      2 < d.padCount ∧ (∀ k, k < 2 → d.inputBits[k]? = some (d.padBitAt k)) ∧
      d.inputBits[2]? = some (!d.padBitAt 2)) ∧
    (let d : Dec := { decWI [] with dpg := 3#7, remInGroup := 1#7, padGroup := true };
      (State.reset.withDec d).safe ∧ d.cursor < max 1 d.mask.length ∧ (d.dpg = 0#7 → d.remInGroup = 0#7) ∧
      d.inputBits.length < d.padCount ∧
      ∀ k, k < d.inputBits.length → d.inputBits[k]? = some (d.padBitAt k)) ∧
    (let d : Dec := decWI [0x20#8, 0x34#8];
      (State.reset.withDec d).safe ∧ d.cursor < max 1 d.mask.length ∧ (d.dpg = 0#7 → d.remInGroup = 0#7) ∧
      (∀ k, k < d.padCount → d.inputBits[k]? = some (d.padBitAt k)) ∧
      0 < (symbolsOf (d.code.drop d.pos)).length) :=
  ⟨⟨⟨rfl, rfl⟩, by decide, by decide, by decide, by decide, by decide⟩,
    ⟨⟨rfl, rfl⟩, by decide, by decide, by decide, by decide⟩, ⟨rfl, rfl⟩, by decide, by decide, by decide, by decide⟩

/-- Both clauses. -/
theorem witness_AfterFinish :
    ((State.reset.withDec (decWI [])).running ∧
      after (exec .dFinish (State.reset.withDec (decWI []))) (fun t => t.dec.status) = some .okay) ∧
    ((State.reset.withDec (decWI [0x58#8])).running ∧
      after (exec .dFinish (State.reset.withDec (decWI [0x58#8]))) (fun t => t.dec.status) = some .tooLong) :=
  ⟨⟨rfl, by decide⟩, rfl, by decide⟩

theorem witness_GatedCommandsDoNothing :
    erredState.running ∧ erredState.dec.status ≠ .okay ∧ Instr.dAc2b ∈ ([.dInit, .dC2b, .dAc2b] : List Instr) :=
  ⟨rfl, by decide, by decide⟩

/-- By command and by hardware reset. -/
theorem witness_ErrorEndsOnlyByConstruction :
    (erredState.dec.status ≠ .okay ∧
      after (step (erredState.withHost [present 0x80#8 (intPorts 0 0 0)])) (fun t => decide (t.dec ≠ erredState.dec)) =
        some true) ∧
    after (step (erredState.withHost [.hardReset])) (fun t => decide (t.dec ≠ erredState.dec)) = some true :=
  ⟨⟨by decide, by decide⟩, by decide⟩

theorem witness_CommandsRaiseOnlyTheirErrors :
    (decState [0x34#8]).dec.status = .okay ∧
    after (exec .dRbit (decState [0x34#8])) (fun t => decide (t.dec.status ≠ .okay)) = some true := ⟨rfl, by decide⟩

theorem witness_FatalSetOnlyByAc2b :
    ((stagedState [0x34#8]).withHost [present 0x89#8 (intPorts 0 0 0)]).fatal = false ∧
    after (step ((stagedState [0x34#8]).withHost [present 0x89#8 (intPorts 0 0 0)])) (fun t => t.fatal) = some true :=
  ⟨rfl, by decide⟩

theorem witness_FatalClearedOnlyByReset :
    ((hostState (present 0x11#8 (intPorts 0 0 0))).withFatal true).fatal = true ∧
    (∀ rest, ((hostState (present 0x11#8 (intPorts 0 0 0))).withFatal true).host ≠ .hardReset :: rest) ∧
    after (step ((hostState (present 0x11#8 (intPorts 0 0 0))).withFatal true)) (fun t => t.fatal) = some true :=
  ⟨rfl, (fun _ h => by cases h), by decide⟩

/-- Both clauses: states that differ in the other unit. -/
theorem witness_UnitsDoNotInteract :
    (encCommand .eWchk = true ∧ State.reset.enc = erredState.enc ∧ State.reset.emask = erredState.emask ∧
      State.reset.dec ≠ erredState.dec) ∧
    (encCommand .dRbit = false ∧ State.reset.dec = (encState (encWI true)).dec ∧
      State.reset.dcode = (encState (encWI true)).dcode ∧ State.reset.enc ≠ (encState (encWI true)).enc) :=
  ⟨⟨rfl, rfl, rfl, by decide⟩, rfl, rfl, rfl, by decide⟩

theorem witness_StagingWritesSpareInstances :
    (hostState (.write (.mask .enc 65534 true))).host = [.write (.mask .enc 65534 true)] ∧
    ∃ t, step (hostState (.write (.mask .enc 65534 true))) = .next t := ⟨rfl, _, rfl⟩

/-- A number of each clause, another number, and a write that a step serves. -/
theorem witness_RegistersReadBack :
    (hostState (.write (.reg 0x13 0xFFFF))).host = [.write (.reg 0x13 0xFFFF)] ∧
    (0x00 = 0x00 ∨ 0x00 = 0x10) ∧ 0x1F ∉ [0x00, 0x01, 0x02, 0x10, 0x11, 0x12, 0x13] ∧
    0x15 ∉ [0x00, 0x01, 0x02, 0x03, 0x10, 0x11, 0x12, 0x13, 0x14, 0x1F] ∧ (0x03 : Nat) ≠ 0x00 :=
  ⟨rfl, by decide, by decide, by decide, by decide⟩

theorem witness_WindowsShowWorkingState :
    (hostState (.readReg 0x14)).host = [.readReg 0x14] ∧
    ((hostState (.write (.reg 0x14 5))).host = [.write (.reg 0x14 5)] ∧
      ∃ t, step (hostState (.write (.reg 0x14 5))) = .next t) ∧
    (State.reset.running ∧ ∃ t, exec .eNchk State.reset = .next t) ∧
    (erredState.running ∧ ∃ t, exec .dFinish erredState = .next t) ∧
    (erredState.estg = (erredState.withDbits [true]).estg ∧
      erredState.dec.status = (erredState.withDbits [true]).dec.status) :=
  ⟨rfl, ⟨rfl, _, rfl⟩, ⟨rfl, _, exec_eNchk _ rfl⟩, ⟨rfl, _, by rw [exec, execDFinish]; exact decAnswer_gated erredState _ _ rfl (by decide)⟩,
    rfl, rfl⟩

/-- Each clause at the last address of the space. -/
theorem witness_StagingCellsReadBack :
    65534 < State.reset.par.maskMax ∧ 65534 < State.reset.par.codeMax ∧
    (hostState (.write (.mask .dec 65534 true))).host = [.write (.mask .dec 65534 true)] ∧
    (hostState (.write (.code 65534 0x41#8))).host = [.write (.code 65534 0x41#8)] ∧
    (hostState (.readMask .enc 65534)).host = [.readMask .enc 65534] ∧
    (hostState (.readCode 65534)).host = [.readCode 65534] := ⟨by decide, by decide, rfl, rfl, rfl, rfl⟩

/-- Each clause at the first address outside the space. -/
theorem witness_MissingCellsFault :
    State.reset.par.maskMax ≤ 65535 ∧ State.reset.par.codeMax ≤ 65535 ∧
    (hostState (.readMask .enc 65535)).host = [.readMask .enc 65535] ∧
    (hostState (.write (.mask .enc 65535 true))).host = [.write (.mask .enc 65535 true)] ∧
    (hostState (.readCode 65535)).host = [.readCode 65535] ∧
    (hostState (.write (.code 65535 0x41#8))).host = [.write (.code 65535 0x41#8)] :=
  ⟨by decide, by decide, rfl, rfl, rfl, rfl⟩

/-- Each clause at a boundary: the last cell of a space and the first outside it, the first register number that is no
staging register, a halted block, an illegal word. -/
theorem witness_OverlapRefusedOnlyForConstruction :
    (∀ op, (hostState op).host = [op]) ∧
    (let s := hostState (overlap 0x88#8 (.code 65534 0x41#8));
      s.running ∧ s.rsp = none ∧ decodeWord 0x88#8 = .ok .dC2b ∧ 65534 < s.par.codeMax ∧
      Instr.dC2b ∈ ([.eInit, .dInit, .dC2b, .dAc2b] : List Instr)) ∧
    (let s := hostState (overlap 0x00#8 (.reg 0x03 7));
      s.rsp = none ∧ decodeWord 0x00#8 = .ok .eInit ∧ 0x03 ∉ [0x00, 0x01, 0x02, 0x10, 0x11, 0x12, 0x13]) ∧
    (let s := hostState (overlap 0x81#8 (.reg 0x13 7));
      s.rsp = none ∧ decodeWord 0x81#8 = .ok .dRbit ∧
      Instr.dRbit ∉ ([.eInit, .dInit, .dC2b, .dAc2b] : List Instr)) ∧
    (hostState (overlap 0x81#8 (.mask .dec 65534 true))).rsp = none ∧ 65534 < State.reset.par.maskMax ∧
    State.reset.par.maskMax ≤ 65535 ∧ State.reset.par.codeMax ≤ 65535 ∧
    (let s := (hostState (overlap 0x88#8 (.mask .enc 65534 true))).withFatal true;
      s.fatal = true ∧ ∃ t, (s.sampled { word := 0x88#8, ports := intPorts 0 0 0 } []).stagingWrite
        (.mask .enc 65534 true) = .next t) ∧
    (let s := hostState (overlap 0x07#8 (.reg 0x02 7));
      s.fatal = false ∧ legalInstr 0x07#8 = none ∧ ∃ t, (s.sampled { word := 0x07#8, ports := intPorts 0 0 0 } []).stagingWrite
        (.reg 0x02 7) = .next t) :=
  ⟨fun _ => rfl, ⟨rfl, rfl, rfl, by decide, by decide⟩, ⟨rfl, rfl, by decide⟩, ⟨rfl, rfl, by decide⟩, rfl, by decide, by decide,
    by decide, ⟨rfl, _, rfl⟩, rfl, rfl, _, rfl⟩

/-- 10_state.md R40, 20_memory.md R72: a write of a read-only register is no staging write, so `E.INIT` runs. -/
theorem test_overlap_readOnly_constructs :
    step (hostState (overlap 0x00#8 (.reg 0x03 7))) = exec .eInit ((State.reset.withHost []).withPorts (intPorts 0 0 0)) :=
  rfl

theorem witness_HardResetConstructsBoth :
    ((stagedState [0x41#8]).withFatal true |>.withHost [.hardReset]).host = [.hardReset] := rfl

/-- An encoder in the middle of a message, about to finalise. -/
theorem witness_StepKeepsInvariant :
    ((encState (encWI true)).withHost [present 0x05#8 (intPorts 0 0 0)]).Inv ∧
    ∃ t, step ((encState (encWI true)).withHost [present 0x05#8 (intPorts 0 0 0)]) = .next t :=
  ⟨⟨⟨by decide, by decide, by decide, by decide, by decide, by decide, by decide, by decide, by decide⟩,
      ⟨by decide, by decide, by decide, by decide, by decide, by decide, by decide, by decide⟩,
      by decide, by decide, by decide, by decide, by decide, by decide, by decide, by decide, by decide,
      fun r h => by cases h⟩,
    _, exec_eResult _ rfl⟩

/-- A message of a bit, an integer and check bits, under `CHECK_TO_GROUP` with groups of three. -/
theorem witness_MirrorSequenceRoundTrips :
    let s := State.reset.withEstg { dpg := 3#7, round := 3#2, maskLen := 0 }
    let u := stagedState [0x33#8, 0x54#8, 0x52#8]
    let e := issue (writeAll (issue s .eInit s.ports) [.bit true, .int false 0 7 5, .chk, .chkn 2#32]) .eResult s.ports
    s.running ∧ u.running ∧ u.par = s.par ∧ u.dstg.dpg = s.estg.dpg ∧ u.dstg.round = s.estg.round ∧
      u.readMask .dec u.dstg.maskLen = s.readMask .enc s.estg.maskLen ∧ u.readCode u.dstg.codeLen = e.enc.out :=
  ⟨rfl, rfl, rfl, rfl, rfl, rfl, by decide⟩

theorem witness_CrcForgetsOldBits : 32 ≤ (List.replicate 32 true).length := by decide

theorem witness_SymbolTablesAgree : 0x41 ≤ (0x5A#8 : Chr).toNat ∧ (0x5A#8 : Chr).toNat ≤ 0x5A := by decide

theorem witness_WidthIsLeast : 3 < 2 ^ 2 := by decide

theorem witness_PatternsStandForIntegers : 1 ≤ 1 ∧ 1 < 2 ^ 1 := by decide

/-! ## Assembler lines (30_encoding.md R91, R92) -/

/-- The expansion of `E.SETUP` in R92: the mask, its length, the group size, the round mode, then `E.INIT`. -/
theorem test_asm_eSetup :
    (AsmLine.eSetup [true, false] 3 .checkToGroup).expand Params.suggested =
      [.write (.mask .enc 0 true), .write (.mask .enc 1 false), .write (.reg 0x02 2), .write (.reg 0x00 3),
        .write (.reg 0x01 3), .command { word := 0x00#8, ports := noPorts }, .takeRsp] := by decide

/-- `E.WINT.S -2, 1, -1` in R91, on ports of 32 bits. -/
theorem test_asm_eWint :
    (AsmLine.eWint true (-2) 1 (-1)).expand Params.suggested =
      [.command { word := 0x22#8, ports := intPorts 0xFFFFFFFE 1 0xFFFFFFFF }, .takeRsp] := by decide

/-- R91: `-` only with `.S`; 93_implementation_defined.md U15: `n` of 2^32 cannot be expressed. -/
theorem test_asm_refuses :
    assemble Params.suggested [.eWint false (-2) 1 0] = none ∧ assemble Params.suggested [.eWchkn 4294967296] = none ∧
    (assemble Params.suggested [.eWint true (-2147483648) 1 0, .eWchkn 4294967295]).isSome = true := by decide

end Sys2Proof.Tests
end

/-! The read-only windows `E_CHECK_COUNT`, `D_STATUS` and `FATAL` (10_state.md R43): what a register read depends on,
what a host access to a register does in one step, and which response fields repeat a window. -/

namespace Sys2Proof.Machine

/-! ## The windows as registers -/

@[simp] theorem regRead_checkCount (s : State) : s.regRead 0x03 = s.enc.checkCount.toNat := rfl

@[simp] theorem regRead_status (s : State) : s.regRead 0x14 = (statusCode s.dec.status).toNat := rfl

@[simp] theorem regRead_fatal (s : State) : s.regRead 0x1F = s.fatal.toNat := rfl

/-- A register read sees staging and the three windowed registers, and nothing else (10_state.md R43). -/
theorem regRead_congr (s u : State) (num : Nat) (he : s.estg = u.estg) (hd : s.dstg = u.dstg)
    (hc : s.enc.checkCount = u.enc.checkCount) (hs : s.dec.status = u.dec.status) (hf : s.fatal = u.fatal) :
    s.regRead num = u.regRead num := by
  simp only [State.regRead, he, hd, hc, hs, hf]

/-- The windows see neither unit's staging, so states that agree on ENC, DEC and `FATAL` agree on them. -/
theorem regRead_window_congr (s t : State) (num : Nat) (hnum : num ∈ [0x03, 0x14, 0x1F]) (he : t.enc = s.enc)
    (hd : t.dec = s.dec) (hf : t.fatal = s.fatal) : t.regRead num = s.regRead num := by
  obtain rfl | rfl | rfl : num = 0x03 ∨ num = 0x14 ∨ num = 0x1F := by simpa using hnum
  · rw [regRead_checkCount, regRead_checkCount, he]
  · rw [regRead_status, regRead_status, hd]
  · rw [regRead_fatal, regRead_fatal, hf]

/-! ## Host accesses -/

/-- A register read is served in one step and puts the register on the read data (10_state.md R40). -/
theorem step_readReg (s : State) (num : Nat) (rest : List HostOp) (h : s.host = .readReg num :: rest) :
    step s = .next ((s.withHost rest).withRdata (s.regRead num)) := by
  simp [step, fetch, h]

/-- A host write is the staging write, made after the transaction is consumed. -/
theorem step_write (s : State) (w : StagingWrite) (rest : List HostOp) (h : s.host = .write w :: rest) :
    step s = (s.withHost rest).stagingWrite w := by
  simp [step, fetch, h]

/-- A staging write touches neither unit and not `FATAL` (20_memory.md R60). -/
theorem stagingWrite_keeps_units (s t : State) (w : StagingWrite) (h : s.stagingWrite w = .next t) :
    t.enc = s.enc ∧ t.dec = s.dec ∧ t.fatal = s.fatal := by
  rw [stagingWrite_frame s t w h]
  exact ⟨rfl, rfl, rfl⟩

/-- No host write moves a window: they are read-only (10_state.md R43). -/
theorem step_write_keeps_windows (s t : State) (w : StagingWrite) (rest : List HostOp)
    (h : s.host = .write w :: rest) (ht : step s = .next t) (num : Nat) (hnum : num ∈ [0x03, 0x14, 0x1F]) :
    t.regRead num = s.regRead num := by
  rw [step_write s w rest h] at ht
  obtain ⟨he, hd, hf⟩ := stagingWrite_keeps_units _ t w ht
  exact regRead_window_congr s t num hnum he hd hf

/-! ## Responses that repeat a window -/

@[simp] theorem pinCnt_withRsp_rspDoneCnt (s : State) (n : Word32) : (s.withRsp (rspDoneCnt n)).pinCnt = n := rfl

@[simp] theorem pinStatus_withRsp_rspDoneStatus (s : State) (st : Status) :
    (s.withRsp (rspDoneStatus st)).pinStatus = statusCode st := rfl

/-- `D.FINISH` ends with some decoder and answers that decoder's status, whether it is gated, runs to its end or is
ended by a raise (42_decoder.md R171, R184). -/
theorem exec_dFinish_answers_status (s : State) (h : s.fatal = false) :
    ∃ d, exec .dFinish s = .next ((s.withDec d).withRsp (rspDoneStatus d.status)) := by
  rw [exec, execDFinish]
  by_cases hs : s.dec.status = .okay
  · cases hb : decFinalise s.dec with
    | ok d v => exact ⟨d, decAnswer_ok s _ _ h hs d _ (by rw [hb, Run.bind_ok])⟩
    | raised d => exact ⟨d, decAnswer_raised s _ _ h hs d (by rw [hb, Run.bind_raised])⟩
  · exact ⟨s.dec, decAnswer_gated s _ _ h hs⟩

/-- `E.NCHK` returns what `E_CHECK_COUNT` reads (41_encoder.md R154). -/
theorem exec_eNchk_pinCnt (s t : State) (h : s.fatal = false) (ht : exec .eNchk s = .next t) :
    t.pinCnt.toNat = s.regRead 0x03 := by
  rw [exec_eNchk s h] at ht
  cases ht
  simp

/-- `D.FINISH` returns what `D_STATUS` reads after it (42_decoder.md R184). -/
theorem exec_dFinish_pinStatus (s t : State) (h : s.fatal = false) (ht : exec .dFinish s = .next t) :
    t.pinStatus.toNat = t.regRead 0x14 := by
  obtain ⟨d, hd⟩ := exec_dFinish_answers_status s h
  rw [hd] at ht
  cases ht
  simp

/-! ## The obligation -/

/-- Settles O42: each clause is a lemma above; the status codes are the table of 60_exceptions.md section 1. -/
theorem windowsShowWorkingState : Obligations.WindowsShowWorkingState := by
  refine ⟨?read, fun s t w rest h ht => step_write_keeps_windows s t w rest h ht, ⟨rfl, rfl, rfl, rfl, rfl, rfl⟩,
    exec_eNchk_pinCnt, exec_dFinish_pinStatus, regRead_congr⟩
  case read =>
    intro s num rest h
    refine ⟨_, step_readReg s num rest h, rfl, rfl, ?count, ?status, ?fatal⟩
    case count => rintro rfl; exact regRead_checkCount s
    case status => rintro rfl; exact regRead_status s
    case fatal => rintro rfl; exact (regRead_fatal s).trans (by cases s.fatal <;> rfl)

end Sys2Proof.Machine

/-! A halted block (30_encoding.md R87): a legal and an illegal word get the same answer, so `HALTED` takes precedence
over `ILLEGAL`. -/

namespace Sys2Proof.Machine

/-- Accepting a command does not touch `FATAL` (30_encoding.md R83). -/
@[simp] theorem State.sampled_fatal (s : State) (c : Command) (rest : List HostOp) :
    (s.sampled c rest).fatal = s.fatal := rfl

/-- A command is accepted when no response is pending (30_encoding.md R81). -/
theorem fetch_command (s : State) (c : Command) (rest : List HostOp) (hh : s.host = .command c :: rest)
    (hr : s.rsp = none) : fetch s = .accepted c.word (s.sampled c rest) := by
  simp [fetch, hh, State.cmdReady, hr]

/-- An illegal word of a halted block is answered `HALTED`, not `ILLEGAL` (30_encoding.md R87). -/
theorem answerIllegal_fatal (s : State) (h : s.fatal = true) :
    answerIllegal s = .next (s.withRsp (rspOnly .halted)) := answer_halted s _ h

/-- A word accepted while `FATAL = 1` is answered `HALTED`, however it came to be accepted (30_encoding.md R87). -/
theorem step_accepted_fatal (s t : State) (w : CmdWord) (hf : fetch s = .accepted w t) (h : t.fatal = true) :
    step s = .next (t.withRsp (rspOnly .halted)) := by
  simp only [step, hf]
  cases legalInstr w with
  | none => exact answerIllegal_fatal t h
  | some i => exact exec_fatal i t h

/-- Settles O7: sampling keeps `FATAL`, and an accepted word is answered alike whether it is legal or not. -/
theorem haltedAnswersEveryWord : Obligations.HaltedAnswersEveryWord := by
  refine ⟨fun s c rest hfatal hhost hrsp => ?step, exec_fatal⟩
  case step =>
    have haccept : fetch s = .accepted c.word (s.sampled c rest) := fetch_command s c rest hhost hrsp
    exact step_accepted_fatal s _ c.word haccept ((State.sampled_fatal s c rest).trans hfatal)

end Sys2Proof.Machine

/-! The width of a span (40_primitives.md R127). -/

namespace Sys2Proof.Machine

/-- A span of 0 takes no bits (40_primitives.md R127). -/
@[simp] theorem widthOf_zero : widthOf 0 = 0 := rfl

/-- A span above 0 takes one bit more than the place of its highest 1. -/
theorem widthOf_of_ne_zero {span : Nat} (h : span ≠ 0) : widthOf span = Nat.log2 span + 1 := if_neg h

/-- The widths that hold a span are exactly those from `widthOf` on (40_primitives.md R127). -/
theorem widthOf_le_iff (span w : Nat) : widthOf span ≤ w ↔ span < 2 ^ w := by
  by_cases h : span = 0
  case pos => simp [h, Nat.two_pow_pos]
  case neg =>
    calc widthOf span ≤ w
      _ ↔ Nat.log2 span < w := by rw [widthOf_of_ne_zero h, Nat.succ_le_iff]
      _ ↔ span < 2 ^ w := Nat.log2_lt h

/-- A span fits in its own width. -/
theorem lt_two_pow_widthOf (span : Nat) : span < 2 ^ widthOf span :=
  (widthOf_le_iff span _).mp (Nat.le_refl _)

/-- Settles O54: by `widthOf_le_iff` the width of a span holds it, and no smaller width does. -/
theorem widthIsLeast : Obligations.WidthIsLeast :=
  fun span => ⟨lt_two_pow_widthOf span, fun w => (widthOf_le_iff span w).mpr, widthOf_zero⟩

end Sys2Proof.Machine

/-! The commands of ENC: what any of them can do, one raw bit through the codec, and the commands as sequences of
`E.WBIT`s and `E.WCHK`s (41_encoder.md). -/

namespace Sys2Proof.Machine

/-! ## What an encoder command can do -/

/-- A command of ENC writes ENC and answers `DONE`; it can do nothing else (41_encoder.md R156). -/
theorem exec_encCommand (i : Instr) (s : State) (hi : encCommand i = true) (h : s.running) :
    ∃ e r, exec i s = .next ((s.withEnc e).withRsp r) ∧ r.kind = .done := by
  cases i with
  | eInit => exact ⟨_, _, exec_eInit s h, rfl⟩
  | eWbit b => exact ⟨_, _, exec_eWbit b s h, rfl⟩
  | eWint sg => exact ⟨_, _, exec_eWint sg s h, rfl⟩
  | eWchk => exact ⟨_, _, exec_eWchk s h, rfl⟩
  | eWchkn => exact ⟨_, _, exec_eWchkn s h, rfl⟩
  | eResult => exact ⟨_, _, exec_eResult s h, rfl⟩
  | eNchk => exact ⟨s.enc, _, exec_eNchk s h, rfl⟩
  | dInit | dRbit | dRint | dRchk | dRchkn | dFinish | dC2b | dAc2b => cases hi

/-- Settles O19: a next state that differs in ENC and the response has DEC and `FATAL` as they were. -/
theorem encoderCommandsNeverFail : Obligations.EncoderCommandsNeverFail := by
  intro i s hi h
  obtain ⟨e, r, hexec, hdone⟩ := exec_encCommand i s hi h
  exact ⟨_, r, hexec, rfl, hdone, rfl, h⟩

/-! ## One raw bit -/

/-- A raw bit that leaves the symbol unfinished and one that completes it have the effect the spec gives
(40_primitives.md R112, R114, R116). -/
theorem rawBitEmitted_encRawBit (x : Bool) (e : Enc) : RawBitEmitted x e (encRawBit x e) where
  cursor := by simp [nextCursor]
  pending h := by
    rw [encRawBit_pending x e h]
    exact ⟨rfl, rfl, rfl, rfl⟩
  emitted h := by
    rw [encRawBit_emits x e h]
    exact ⟨rfl, rfl, rfl, rfl⟩
  params := encRawBit_sameParams x e

/-- The codec does not see the running check, the latch and the counter: a raw bit passes alike whatever they hold. -/
theorem RawBitEmitted.of_checks {x : Bool} {e f : Enc} {crc latch : Word32} {rem : BitVec 6} {cnt : Word32}
    (h : RawBitEmitted x { e with crc := crc, latch := latch, latchRem := rem, checkCount := cnt } f) :
    RawBitEmitted x e f :=
  ⟨h.cursor, h.pending, h.emitted, h.params⟩

/-- A data bit goes through the codec as itself (40_primitives.md R115). -/
theorem rawBitEmitted_encDataBit (b : Bool) (e : Enc) : RawBitEmitted b e (encDataBit b e) :=
  (rawBitEmitted_encRawBit b _).of_checks

/-- A check bit goes through the codec as bit 0 of the latch loaded for it (40_primitives.md R117). -/
theorem rawBitEmitted_encCheckBit (e : Enc) :
    RawBitEmitted (loadLatch e.crc e.latch e.latchRem).bit e (encCheckBit e) :=
  (rawBitEmitted_encRawBit _ _).of_checks

/-- The word a check bit is taken from: a new snapshot only when no latch bit remains (40_primitives.md R120). -/
theorem loadLatch_snap (crc latch : Word32) (rem : BitVec 6) :
    (loadLatch crc latch rem).snap = if rem = 0#6 then crc else latch := by
  unfold loadLatch
  split <;> rfl

/-- The bits left in the word a check bit is taken from (40_primitives.md R120). -/
theorem loadLatch_rem (crc latch : Word32) (rem : BitVec 6) :
    (loadLatch crc latch rem).rem = if rem = 0#6 then 32#6 else rem := by
  unfold loadLatch
  split <;> rfl

/-- Settles O10: the check and the latch are those of `encDataBit`, and the rest is one raw bit. -/
theorem eWbitWritesDataBit : Obligations.EWbitWritesDataBit := by
  refine ⟨by decide, fun b s h => ⟨_, exec_eWbit b s h, rfl, ?_⟩⟩
  exact ⟨encDataBit_crc b s.enc, encDataBit_latchRem b s.enc, encDataBit_latch b s.enc, encDataBit_checkCount b s.enc,
    rawBitEmitted_encDataBit b s.enc⟩

/-- Settles O13: the latch taken from is the loaded one, and the rest is one raw bit. -/
theorem eWchkEmitsLatchBit : Obligations.EWchkEmitsLatchBit := by
  refine ⟨rfl, fun s h => ⟨_, exec_eWchk s h, rfl, ?_⟩⟩
  rw [← loadLatch_snap s.enc.crc s.enc.latch, ← loadLatch_rem s.enc.crc s.enc.latch]
  exact ⟨rawBitEmitted_encCheckBit s.enc, encCheckBit_crc s.enc, encCheckBit_checkCount s.enc, encCheckBit_latch s.enc,
    encCheckBit_latchRem s.enc⟩

/-! ## Commands issued in sequence -/

/-- A command issued with its ports leaves the state it answers. -/
theorem issue_of_exec {s t : State} {i : Instr} {q : Ports} (h : exec i (s.withPorts q) = .next t) :
    issue s i q = t := by
  rw [issue, h]
  rfl

theorem issue_eWbit (b : Bool) (s : State) (q : Ports) (h : s.running) :
    issue s (.eWbit b) q = ((s.withPorts q).withEnc (encDataBit b s.enc)).withRsp rspDone :=
  issue_of_exec (exec_eWbit b (s.withPorts q) h)

theorem issue_eWchk (s : State) (q : Ports) (h : s.running) :
    issue s .eWchk q = ((s.withPorts q).withEnc (encCheckBit s.enc)).withRsp rspDone :=
  issue_of_exec (exec_eWchk (s.withPorts q) h)

theorem issue_eWchkn (s : State) (q : Ports) (h : s.running) :
    issue s .eWchkn q =
      ((s.withPorts q).withEnc (repeatDo encCheckBit q.opN.toNat s.enc)).withRsp rspDone :=
  issue_of_exec (exec_eWchkn (s.withPorts q) h)

/-- `E.WBIT`s one after the other leave ENC as their data bits in order do. -/
theorem writeBits_enc (bs : List Bool) (s : State) (h : s.running) :
    (writeBits s bs).enc = encDataBits bs s.enc := by
  induction bs generalizing s with
  | nil => rfl
  | cons b bs ih =>
    have hstep := issue_eWbit b s s.ports h
    calc (writeBits s (b :: bs)).enc
      _ = (writeBits (issue s (.eWbit b) s.ports) bs).enc := rfl
      _ = encDataBits bs (issue s (.eWbit b) s.ports).enc := ih _ (by rw [hstep]; exact h)
      _ = encDataBits bs (encDataBit b s.enc) := by rw [hstep]; rfl
      _ = encDataBits (b :: bs) s.enc := rfl

/-- `E.WCHK`s one after the other leave ENC as that many check bits do. -/
theorem issueTimes_eWchk_enc (n : Nat) (s : State) (h : s.running) :
    (issueTimes .eWchk n s).enc = repeatDo encCheckBit n s.enc := by
  induction n generalizing s with
  | zero => rfl
  | succ n ih =>
    have hstep := issue_eWchk s s.ports h
    calc (issueTimes .eWchk (n + 1) s).enc
      _ = (issueTimes .eWchk n (issue s .eWchk s.ports)).enc := rfl
      _ = repeatDo encCheckBit n (issue s .eWchk s.ports).enc := ih _ (by rw [hstep]; exact h)
      _ = repeatDo encCheckBit n (encCheckBit s.enc) := by rw [hstep]; rfl
      _ = repeatDo encCheckBit (n + 1) s.enc := rfl

/-- `E.WCHKN n` and then `E.WCHKN m` leave ENC as `E.WCHKN n+m` does, for counts the port can hold
(41_encoder.md R148). -/
theorem issue_eWchkn_add (s : State) (q : Ports) (n m : Nat) (h : s.running) (hnm : n + m < 2 ^ 32) :
    (issue (issue s .eWchkn { q with opN := BitVec.ofNat 32 n }) .eWchkn { q with opN := BitVec.ofNat 32 m }).enc =
      (issue s .eWchkn { q with opN := BitVec.ofNat 32 (n + m) }).enc := by
  have hn : (BitVec.ofNat 32 n).toNat = n := Nat.mod_eq_of_lt (by omega)
  have hm : (BitVec.ofNat 32 m).toNat = m := Nat.mod_eq_of_lt (by omega)
  have hsum : (BitVec.ofNat 32 (n + m)).toNat = n + m := Nat.mod_eq_of_lt hnm
  rw [issue_eWchkn s _ h, issue_eWchkn s _ h, issue_eWchkn _ _ (by exact h)]
  simp [hn, hm, hsum, repeatDo_add]

/-- Settles O14: `E.WCHKN` and a run of `E.WCHK`s are the same repetition of check bits. -/
theorem eWchknRepeatsEWchk : Obligations.EWchknRepeatsEWchk := by
  refine ⟨rfl, fun s h => ⟨_, exec_eWchkn s h, rfl, ?times, ?none⟩, fun s n m h => issue_eWchkn_add s s.ports n m h⟩
  case times => exact (issueTimes_eWchk_enc s.ports.opN.toNat s h).symm
  case none =>
    intro hn
    rw [hn]
    rfl

/-! ## The integer of `E.WINT` -/

theorem normRange_le (a b : Int) : (normRange a b).lo ≤ (normRange a b).hi := min_le_max

/-- Clamping takes the nearer bound for a value outside the range (41_encoder.md R143). -/
theorem Range.clamp_eq (r : Range) (v : Int) (h : r.lo ≤ r.hi) : r.clamp v = max r.lo (min r.hi v) := by
  unfold Range.clamp
  split
  · omega
  · split <;> omega

/-- The span of a range is its length, so powers of 2 bound both alike (40_primitives.md R128). -/
theorem Range.span_lt_two_pow (r : Range) (w : Nat) (h : r.lo ≤ r.hi) : r.span < 2 ^ w ↔ r.hi - r.lo < 2 ^ w := by
  rw [Range.span, Int.toNat_lt (by omega)]
  push_cast
  rfl

/-- `E.WINT` writes as many bits as the width of the span (41_encoder.md R142). -/
theorem wintBits_length (w : Nat) (sg : Bool) (q : Ports) :
    (wintBits w sg q).length = widthOf (portRange w sg q).span := bitsMsb_length _ _

/-- The bits of `E.WINT` are the offset of the clamped value: an offset within the span fits in its width, so no bit of
it is lost (41_encoder.md R142, R143). -/
theorem bitsValue_wintBits (w : Nat) (sg : Bool) (q : Ports) :
    (bitsValue (wintBits w sg q) : Int) =
      (portRange w sg q).clamp (intOf w sg q.opVal) - (portRange w sg q).lo := by
  have hle : (portRange w sg q).lo ≤ (portRange w sg q).hi := normRange_le _ _
  have hclamp := (portRange w sg q).clamp_eq (intOf w sg q.opVal) hle
  have hspan := lt_two_pow_widthOf (portRange w sg q).span
  have hoffset : ((portRange w sg q).clamp (intOf w sg q.opVal) - (portRange w sg q).lo).toNat ≤
      (portRange w sg q).span := by
    rw [Range.span]
    omega
  rw [wintBits, bitsValue_bitsMsb, Nat.mod_eq_of_lt (hoffset.trans_lt hspan)]
  omega

/-- Settles O11: the bits are `wintBits`, whose length is the least width of the span (`widthOf_le_iff`) and whose value
is the clamped offset. -/
theorem eWintWritesOffsetBits : Obligations.EWintWritesOffsetBits := by
  refine ⟨by decide, fun sg s h => ?_⟩
  have hle : (portRange s.par.intW sg s.ports).lo ≤ (portRange s.par.intW sg s.ports).hi := normRange_le _ _
  refine ⟨wintBits s.par.intW sg s.ports, _, exec_eWint sg s h, rfl, (writeBits_enc _ s h).symm, ?fits, ?least, ?value⟩
  case fits =>
    rw [wintBits_length]
    exact (Range.span_lt_two_pow _ _ hle).mp (lt_two_pow_widthOf _)
  case least =>
    intro w hw
    rw [wintBits_length]
    exact (widthOf_le_iff _ w).mpr ((Range.span_lt_two_pow _ w hle).mpr hw)
  case value =>
    rw [bitsValue_wintBits, Range.clamp_eq _ _ hle]
    rfl

end Sys2Proof.Machine

/-! The reading commands of DEC: one bit read, from the input stream and from the symbol it stands in; the integer of
`D.RINT`; what `D.FINISH` leaves; and the gate of the sticky status (42_decoder.md). -/

namespace Sys2Proof.Machine

/-! ## One bit read -/

/-- One bit of the input has been read, register by register: a held symbol loses a bit, otherwise a symbol is fetched
and counted into its group (40_primitives.md R118, R122). `e` is `d` after it. Nothing is asked of the cursor, so this
speaks of the number of bits left and not of their values. -/
structure BitConsumed (d e : Dec) : Prop where
  status : e.status = .okay
  params : d.sameParams e
  length : e.inputBits.length + 1 = d.inputBits.length
  held : d.bitsLeft ≠ 0#3 →
    e.bitsLeft = d.bitsLeft - 1#3 ∧ e.sym = d.sym ∧ e.pos = d.pos ∧ e.remInGroup = d.remInGroup
  fetched : d.bitsLeft = 0#3 →
    e.bitsLeft = 4#3 ∧ d.pos < e.pos ∧ e.remInGroup = countSymbol d.dpg d.remInGroup

/-- Reading the input does not see the latch: a bit is consumed alike whatever was in it before. -/
theorem BitConsumed.of_latch {d e : Dec} {latch : Word32} {rem : BitVec 6}
    (h : BitConsumed { d with latch := latch, latchRem := rem } e) : BitConsumed d e :=
  ⟨h.status, h.params, h.length, h.held, h.fetched⟩

/-- What the check and the latch become after a bit does not matter to how it was consumed. -/
theorem BitConsumed.with_checks {d e : Dec} (h : BitConsumed d e) (crc : Word32) (rem : BitVec 6) :
    BitConsumed d { e with crc := crc, latchRem := rem } :=
  ⟨h.status, h.params, h.length, h.held, h.fetched⟩

/-- How many bits a decoder can still read: those of the symbol held and those of the rest of the string. -/
theorem inputBits_length (d : Dec) :
    d.inputBits.length = d.bitsLeft.toNat + (stringBits (d.code.drop d.pos)).length := by
  simp [Dec.inputBits]

theorem bitsLeft_sub_one_toNat {n : BitVec 3} (h : n ≠ 0#3) : (n - 1#3).toNat + 1 = n.toNat := by
  bv_omega

/-- A symbol that gives a bit has one bit less to give. -/
theorem inputBits_length_of_taken (d : Dec) (cur : Nat) (h : d.bitsLeft ≠ 0#3) :
    (Dec.inputBits { d with bitsLeft := d.bitsLeft - 1#3, cursor := cur }).length + 1 = d.inputBits.length := by
  have := bitsLeft_sub_one_toNat h
  simp only [inputBits_length]
  omega

/-- A raw bit that is read consumes one bit of the input (40_primitives.md R122). -/
theorem decRawBit_bitConsumed (d e : Dec) (b : Bool) (h : d.status = .okay) (hr : decRawBit d = .ok e b) :
    BitConsumed d e := by
  rcases decRawBit_cases d h with ⟨hb, he⟩ | ⟨-, -, he⟩ | ⟨-, c, -, -, he⟩ | ⟨hb, c, v, hc, hv, he⟩ <;>
    rw [he] at hr <;> cases hr
  case inl =>
    exact ⟨h, d.sameParams_refl, inputBits_length_of_taken d _ hb, fun _ => ⟨rfl, rfl, rfl, rfl⟩,
      fun h0 => absurd h0 hb⟩
  case inr.inr.inr =>
    refine ⟨h, d.sameParams_refl, ?_, fun h0 => absurd hb h0, fun _ => ⟨(by decide : 5#3 - 1#3 = 4#3), ?_, rfl⟩⟩
    · rw [← inputBits_fetch d c v hb hc hv]
      exact inputBits_length_of_taken _ _ (by decide : (5#3 : BitVec 3) ≠ 0#3)
    · exact Nat.lt_succ_of_le (skipSeparators_ge d.code d.pos)

/-- A data bit that is read is a raw bit that is read; the check and the latch are written after it
(40_primitives.md R124). -/
theorem decDataBit_eq_ok {d e : Dec} {b : Bool} :
    decDataBit d = .ok e b ↔
      ∃ d1, decRawBit d = .ok d1 b ∧ e = { d1 with crc := crcUpdate d1.crc b, latchRem := 0#6 } := by
  rw [decDataBit, Run.bind_eq_ok]
  constructor
  · rintro ⟨d1, a, hr, he⟩
    cases he
    exact ⟨d1, hr, rfl⟩
  · rintro ⟨d1, hr, rfl⟩
    exact ⟨d1, b, hr, rfl⟩

/-- A data bit fails exactly where its raw bit fails, and alike. -/
theorem decDataBit_eq_raised {d e : Dec} : decDataBit d = .raised e ↔ decRawBit d = .raised e := by
  simp [decDataBit, Run.bind_eq_raised]

theorem decDataBit_bitConsumed (d e : Dec) (b : Bool) (h : d.status = .okay) (hr : decDataBit d = .ok e b) :
    BitConsumed d e := by
  obtain ⟨d1, h1, rfl⟩ := decDataBit_eq_ok.mp hr
  exact (decRawBit_bitConsumed d d1 b h h1).with_checks _ _

/-- A data bit that is read leaves the error of a missing bit as it was. -/
theorem decDataBit_shortfall (d e : Dec) (b : Bool) (h : d.status = .okay) (hr : decDataBit d = .ok e b) :
    shortfall (e.code.drop e.pos) = shortfall (d.code.drop d.pos) := by
  obtain ⟨d1, h1, rfl⟩ := decDataBit_eq_ok.mp hr
  exact decRawBit_shortfall d d1 b h h1

/-- A check bit that passes consumes one bit of the input (40_primitives.md R123). -/
theorem decCheckBit_bitConsumed (d e : Dec) (h : d.status = .okay) (hr : decCheckBit d = .ok e ()) :
    BitConsumed d e := by
  obtain ⟨d1, a, h1, h2⟩ := Run.bind_eq_ok.mp hr
  split at h2
  · cases h2
    exact (decRawBit_bitConsumed _ e a (by exact h) h1).of_latch
  · cases h2

/-- A zero pad bit that passes consumes one bit of the input (40_primitives.md R125). -/
theorem decZeroPadBit_bitConsumed (d e : Dec) (h : d.status = .okay) (hr : decZeroPadBit d = .ok e ()) :
    BitConsumed d e := by
  obtain ⟨d1, a, h1, h2⟩ := Run.bind_eq_ok.mp hr
  split at h2
  · cases h2
  · cases h2
    exact decRawBit_bitConsumed d _ a h h1

/-- A pad bit that passes consumes one bit of the input (42_decoder.md R183). -/
theorem decPadBit_bitConsumed (d e : Dec) (h : d.status = .okay) (hr : decPadBit d = .ok e ()) :
    BitConsumed d e := by
  unfold decPadBit at hr
  split at hr
  · exact decCheckBit_bitConsumed d e h hr
  · exact decZeroPadBit_bitConsumed d e h hr

/-- With no bit left the error of a check bit is that of the missing symbol (40_primitives.md R123). -/
theorem decCheckBit_exhausted_status (d e : Dec) (h : d.status = .okay) (hi : d.inputBits = [])
    (hr : decCheckBit d = .raised e) : e.status = shortfall (d.code.drop d.pos) := by
  obtain ⟨e', he', -⟩ :=
    decRawBit_exhausted
      { d with latch := (loadLatch d.crc d.latch d.latchRem).shifted.snap,
               latchRem := (loadLatch d.crc d.latch d.latchRem).shifted.rem } h hi
  rw [decCheckBit, he', Run.bind_raised] at hr
  cases hr
  have hstatus := decRawBit_exhausted_status _ e (by exact h) he'
  exact hstatus

/-! ## `D.RBIT` -/

theorem exec_dRbit_ok (s : State) (e : Dec) (b : Bool) (h : s.safe) (hr : decDataBit s.dec = .ok e b) :
    exec .dRbit s = .next ((s.withDec e).withRsp (rspDoneBit b)) := by
  rw [exec, execDRbit]
  exact decAnswer_ok s _ _ h.1 h.2 e _ (by rw [hr, Run.bind_ok])

theorem exec_dRbit_raised (s : State) (e : Dec) (h : s.safe) (hr : decDataBit s.dec = .raised e) :
    exec .dRbit s = .next ((s.withDec e).withRsp (rspDoneBit false)) := by
  rw [exec, execDRbit]
  exact decAnswer_raised s _ _ h.1 h.2 e (by rw [hr, Run.bind_raised])

theorem exec_dRbit_gated (s : State) (h : s.running) (hg : s.dec.status ≠ .okay) :
    exec .dRbit s = .next (s.withRsp (rspDoneBit false)) := by
  rw [exec, execDRbit]
  exact decAnswer_gated s _ _ h hg

/-- Settles O21: the value is the first bit of the input stream (`decDataBit_inputBits`), and the registers of the symbol
are those of `BitConsumed`. -/
theorem dRbitReturnsNextBit : Obligations.DRbitReturnsNextBit := by
  refine ⟨rfl, fun s b bs h hc hi => ?read, fun s h hi => ?missing⟩
  case read =>
    obtain ⟨e, hr, hbits, hstatus, hcrc, hlatch, hrem, hcursor, hparams⟩ := decDataBit_inputBits s.dec b bs h.2 hc hi
    have hsym := decDataBit_bitConsumed s.dec e b h.2 hr
    exact ⟨_, exec_dRbit_ok s e b h hr, rfl, hbits, hstatus, hcrc, hrem, hlatch, hparams,
      hcursor.trans (by simp [nextCursor]), hsym.held, hsym.fetched⟩
  case missing =>
    obtain ⟨e, hr, -, hcrc, hlatch, hrem, hcursor, hparams⟩ := decDataBit_exhausted s.dec h.2 hi
    have hstatus := decRawBit_exhausted_status s.dec e h.2 (decDataBit_eq_raised.mp hr)
    exact ⟨_, exec_dRbit_raised s e h hr, rfl, hstatus, hcrc, hlatch, hrem, hcursor, hparams⟩

/-! ## `D.RCHK` -/

theorem exec_dRchk_ok (s : State) (e : Dec) (h : s.safe) (hr : decCheckBit s.dec = .ok e ()) :
    exec .dRchk s = .next ((s.withDec e).withRsp rspDone) := by
  rw [exec, execDRchk]
  exact decAnswer_ok s _ _ h.1 h.2 e _ (by rw [hr, Run.bind_ok])

theorem exec_dRchk_raised (s : State) (e : Dec) (h : s.safe) (hr : decCheckBit s.dec = .raised e) :
    exec .dRchk s = .next ((s.withDec e).withRsp rspDone) := by
  rw [exec, execDRchk]
  exact decAnswer_raised s _ _ h.1 h.2 e (by rw [hr, Run.bind_raised])

theorem exec_dRchk_gated (s : State) (h : s.running) (hg : s.dec.status ≠ .okay) :
    exec .dRchk s = .next (s.withRsp rspDone) := by
  rw [exec, execDRchk]
  exact decAnswer_gated s _ _ h hg

/-- Settles O25: the bit due is bit 0 of the latch loaded for it, and the outcome is that of `decCheckBit_inputBits`. -/
theorem dRchkVerifiesBit : Obligations.DRchkVerifiesBit := by
  refine ⟨rfl, fun s a bs h hc hi => ?read, fun s h hi => ?missing⟩
  case read =>
    obtain ⟨e, hbits, hstatus, hcrc, hlatch, hrem, -, hparams, hr⟩ := decCheckBit_inputBits s.dec a bs h.2 hc hi
    rw [← loadLatch_snap s.dec.crc s.dec.latch, ← loadLatch_rem s.dec.crc s.dec.latch]
    rw [← loadLatch_bit] at hr
    intro due
    by_cases ha : a = due
    · exact ⟨_, exec_dRchk_ok s e h (hr.trans (if_pos ha)), rfl, hstatus.trans (if_pos ha).symm, hbits, hcrc, hlatch,
        hrem, hparams⟩
    · exact ⟨_, exec_dRchk_raised s _ h (hr.trans (if_neg ha)), rfl, (if_neg ha).symm, hbits, hcrc, hlatch, hrem,
        hparams⟩
  case missing =>
    obtain ⟨e, hr, -, hcrc, hparams⟩ := decCheckBit_exhausted s.dec h.2 hi
    exact ⟨_, exec_dRchk_raised s e h hr, rfl, decCheckBit_exhausted_status s.dec e h.2 hi hr, hcrc, hparams⟩

/-! ## `D.RINT` -/

/-- A cursor that has moved by one bit is still in the mask (10_state.md R44). -/
theorem cursor_lt_of_next {d e : Dec} (hc : d.cursor < max 1 d.mask.length)
    (hcursor : e.cursor = nextCursor d.mask d.cursor) (hparams : d.sameParams e) :
    e.cursor < max 1 e.mask.length := by
  obtain ⟨-, hmask, -⟩ := hparams
  rw [hcursor, hmask]
  exact nextCursor_lt _ _ hc

/-- With enough input the raw value is that of the next bits, each read as a data bit (42_decoder.md R174). -/
theorem decReadRaw_inputBits (bs rest : List Bool) (raw : Nat) (d : Dec) (h : d.status = .okay)
    (hc : d.cursor < max 1 d.mask.length) (hi : d.inputBits = bs ++ rest) :
    ∃ e, decReadRaw bs.length raw d = .ok e (bs.foldl (fun v b => 2 * v + b.toNat) raw) ∧ e.inputBits = rest ∧
      e.status = .okay ∧ e.crc = crcOver d.crc bs ∧ e.latch = d.latch ∧
      e.latchRem = (if bs = [] then d.latchRem else 0#6) ∧ d.sameParams e := by
  induction bs generalizing raw d with
  | nil => exact ⟨d, rfl, hi, h, rfl, rfl, rfl, d.sameParams_refl⟩
  | cons b bs ih =>
    obtain ⟨d1, hr, hbits, hstatus, hcrc, hlatch, hrem, hcursor, hparams⟩ :=
      decDataBit_inputBits d b (bs ++ rest) h hc hi
    have hc1 := cursor_lt_of_next hc hcursor hparams
    obtain ⟨e, hr', hbits', hstatus', hcrc', hlatch', hrem', hparams'⟩ := ih (2 * raw + b.toNat) d1 hstatus hc1 hbits
    refine ⟨e, ?_, hbits', hstatus', by rw [hcrc', hcrc]; rfl, hlatch'.trans hlatch, ?_,
      Dec.sameParams_trans hparams hparams'⟩
    · rw [List.length_cons, decReadRaw, hr, Run.bind_ok, hr', List.foldl_cons]
    · simp [hrem', hrem]

/-- With fewer bits than asked for, every bit there is reaches the check and the next one raises the error of the missing
symbol (42_decoder.md R178). -/
theorem decReadRaw_exhausted (w raw : Nat) (d : Dec) (h : d.status = .okay)
    (hc : d.cursor < max 1 d.mask.length) (hw : d.inputBits.length < w) :
    ∃ e, decReadRaw w raw d = .raised e ∧ e.status = shortfall (d.code.drop d.pos) ∧
      e.crc = crcOver d.crc d.inputBits ∧ d.sameParams e := by
  induction w generalizing raw d with
  | zero => omega
  | succ w ih =>
    rw [decReadRaw]
    cases hi : d.inputBits with
    | nil =>
      obtain ⟨e, hr, -, hcrc, -, -, -, hparams⟩ := decDataBit_exhausted d h hi
      exact ⟨e, by rw [hr, Run.bind_raised], decRawBit_exhausted_status d e h (decDataBit_eq_raised.mp hr), hcrc, hparams⟩
    | cons b bs =>
      obtain ⟨d1, hr, hbits, hstatus, hcrc, -, -, hcursor, hparams⟩ := decDataBit_inputBits d b bs h hc hi
      have hc1 := cursor_lt_of_next hc hcursor hparams
      have hw1 : d1.inputBits.length < w := by
        rw [hi, List.length_cons] at hw
        rw [hbits]
        omega
      obtain ⟨e, hr', hstatus', hcrc', hparams'⟩ := ih (2 * raw + b.toNat) d1 hstatus hc1 hw1
      exact ⟨e, by rw [hr, Run.bind_ok, hr'], hstatus'.trans (decDataBit_shortfall d d1 b h hr),
        by rw [hcrc', hcrc, hbits]; rfl, Dec.sameParams_trans hparams hparams'⟩

theorem exec_dRint_ok (sg : Bool) (s : State) (e : Dec) (r : Response) (h : s.safe)
    (hr : readIntBody s.par.intW (portRange s.par.intW sg s.ports) s.dec = .ok e r) :
    exec (.dRint sg) s = .next ((s.withDec e).withRsp r) := by
  rw [exec, execDRint]
  exact decAnswer_ok s _ _ h.1 h.2 e r hr

theorem exec_dRint_raised (sg : Bool) (s : State) (e : Dec) (h : s.safe)
    (hr : readIntBody s.par.intW (portRange s.par.intW sg s.ports) s.dec = .raised e) :
    exec (.dRint sg) s =
      .next ((s.withDec e).withRsp (rspDoneInt (patOf s.par.intW (portRange s.par.intW sg s.ports).hi))) := by
  rw [exec, execDRint]
  exact decAnswer_raised s _ _ h.1 h.2 e hr

theorem exec_dRint_gated (sg : Bool) (s : State) (h : s.running) (hg : s.dec.status ≠ .okay) :
    exec (.dRint sg) s = .next (s.withRsp (rspDoneInt (patOf s.par.intW (portRange s.par.intW sg s.ports).hi))) := by
  rw [exec, execDRint]
  exact decAnswer_gated s _ _ h hg

/-- The least width that holds the length of a range is the width of its span (40_primitives.md R127). -/
theorem widthOf_span_eq (r : Range) (n : Nat) (hle : r.lo ≤ r.hi) (hfits : r.hi - r.lo < 2 ^ n)
    (hleast : ∀ w : Nat, r.hi - r.lo < 2 ^ w → n ≤ w) : widthOf r.span = n :=
  Nat.le_antisymm ((widthOf_le_iff _ n).mpr ((r.span_lt_two_pow n hle).mpr hfits))
    (hleast _ ((r.span_lt_two_pow _ hle).mp (lt_two_pow_widthOf _)))

/-- A number exceeds the span of a range exactly if it exceeds its length (40_primitives.md R128). -/
theorem Range.span_lt_iff (r : Range) (v : Nat) (hle : r.lo ≤ r.hi) : r.span < v ↔ ¬ (v : Int) ≤ r.hi - r.lo := by
  unfold Range.span
  omega

/-- Settles O22: the bits read are those of `decReadRaw_inputBits`, as many as the width of the span; the range test
comes after them. -/
theorem dRintReadsValue : Obligations.DRintReadsValue := by
  intro sg s bs rest h hc hi lo hi' hfits hleast
  have hle : (portRange s.par.intW sg s.ports).lo ≤ (portRange s.par.intW sg s.ports).hi := normRange_le _ _
  have hwidth : widthOf (portRange s.par.intW sg s.ports).span = bs.length := widthOf_span_eq _ _ hle hfits hleast
  have htest := (portRange s.par.intW sg s.ports).span_lt_iff (bitsValue bs) hle
  obtain ⟨e, hr, hbits, hstatus, hcrc, hlatch, hrem, hparams⟩ := decReadRaw_inputBits bs rest 0 s.dec h.2 hc hi
  by_cases hv : (bitsValue bs : Int) ≤ hi' - lo
  · have hbody : readIntBody s.par.intW (portRange s.par.intW sg s.ports) s.dec =
        .ok e (rspDoneInt (patOf s.par.intW (bitsValue bs + lo))) := by
      rw [readIntBody, hwidth, hr, Run.bind_ok]
      exact if_neg fun hlt => htest.mp hlt hv
    rw [if_pos hv, if_pos hv]
    exact ⟨_, exec_dRint_ok sg s e _ h hbody, rfl, hstatus, hbits, hcrc, hrem, hlatch, hparams⟩
  · have hbody : readIntBody s.par.intW (portRange s.par.intW sg s.ports) s.dec =
        .raised { e with status := .outOfRange } := by
      rw [readIntBody, hwidth, hr, Run.bind_ok]
      exact (if_pos (htest.mpr hv)).trans (raiseError_okay _ e hstatus)
    rw [if_neg hv, if_neg hv]
    exact ⟨_, exec_dRint_raised sg s _ h hbody, rfl, rfl, hbits, hcrc, hrem, hlatch, hparams⟩

/-- Settles O23: a span that as many bits as there are do not hold needs more bits than there are, and the read ends as
`decReadRaw_exhausted` says. -/
theorem dRintEndsAtFailingBit : Obligations.DRintEndsAtFailingBit := by
  intro sg s h hc lo hi hshort
  have hle : (portRange s.par.intW sg s.ports).lo ≤ (portRange s.par.intW sg s.ports).hi := normRange_le _ _
  have hwidth : s.dec.inputBits.length < widthOf (portRange s.par.intW sg s.ports).span := by
    rw [← not_le, widthOf_le_iff, Range.span_lt_two_pow _ _ hle, not_lt]
    exact hshort
  obtain ⟨e, hr, hstatus, hcrc, hparams⟩ := decReadRaw_exhausted _ 0 s.dec h.2 hc hwidth
  have hbody : readIntBody s.par.intW (portRange s.par.intW sg s.ports) s.dec = .raised e := by
    rw [readIntBody, hr, Run.bind_raised]
  exact ⟨_, exec_dRint_raised sg s e h hbody, rfl, hstatus, hcrc, hparams⟩

/-! ## A raise records an error -/

/-- If the run is ended by a raise, the status it leaves is an error (60_exceptions.md R222). -/
def Run.RecordsError {α : Type} (r : Run α) : Prop := ∀ d, r = .raised d → d.status ≠ .okay

theorem Run.RecordsError.ok {α : Type} (d : Dec) (v : α) : (Run.ok d v).RecordsError := by
  rintro e ⟨⟩

theorem Run.RecordsError.bind {α β : Type} {r : Run α} {f : Dec → α → Run β} (hr : r.RecordsError)
    (hf : ∀ d v, (f d v).RecordsError) : (r.bind f).RecordsError := by
  cases r with
  | ok d v => exact hf d v
  | raised d =>
    rintro e ⟨⟩
    exact hr d rfl

theorem raiseError_recordsError {α : Type} (st : Status) (d : Dec) (h : st ≠ .okay) :
    (raiseError st d : Run α).RecordsError := by
  rintro e ⟨⟩
  change (if d.status = .okay then st else d.status) ≠ .okay
  split
  · exact h
  · assumption

theorem decFetchSymbol_recordsError (d : Dec) : (decFetchSymbol d).RecordsError := by
  unfold decFetchSymbol
  simp only
  split
  · exact raiseError_recordsError _ _ (by decide)
  · split
    · exact raiseError_recordsError _ _ (by decide)
    · exact .ok _ _

theorem decRawBit_recordsError (d : Dec) : (decRawBit d).RecordsError := by
  unfold decRawBit
  split
  · exact (decFetchSymbol_recordsError d).bind fun _ _ => .ok _ _
  · exact .ok _ _

theorem decCheckBit_recordsError (d : Dec) : (decCheckBit d).RecordsError := by
  refine (decRawBit_recordsError _).bind fun _ _ => ?_
  split
  · exact .ok _ _
  · exact raiseError_recordsError _ _ (by decide)

theorem decZeroPadBit_recordsError (d : Dec) : (decZeroPadBit d).RecordsError := by
  refine (decRawBit_recordsError _).bind fun _ _ => ?_
  split
  · exact raiseError_recordsError _ _ (by decide)
  · exact .ok _ _

theorem decPadBit_recordsError (d : Dec) : (decPadBit d).RecordsError := by
  unfold decPadBit
  split
  · exact decCheckBit_recordsError d
  · exact decZeroPadBit_recordsError d

theorem whileRun_recordsError {cond : Dec → Bool} {body : Dec → Run Unit} (h : ∀ d, (body d).RecordsError) (n : Nat)
    (d : Dec) : (whileRun cond body n d).RecordsError := by
  induction n generalizing d with
  | zero => exact .ok d ()
  | succ n ih =>
    unfold whileRun
    split
    · exact (h d).bind fun e _ => ih e
    · exact .ok d ()

theorem trailingScan_recordsError (d : Dec) : (trailingScan d).RecordsError := by
  unfold trailingScan
  simp only
  split
  · exact .ok _ _
  · exact raiseError_recordsError _ _ (by decide)

/-- A `D.FINISH` that a raise ends leaves an error (42_decoder.md R184). -/
theorem decFinalise_recordsError (d : Dec) : (decFinalise d).RecordsError := by
  refine .bind (.bind (whileRun_recordsError decPadBit_recordsError _ _) fun d1 _ => ?_) fun d2 _ =>
    trailingScan_recordsError d2
  split
  · exact whileRun_recordsError decPadBit_recordsError _ _
  · exact .ok _ _

/-! ## What `D.FINISH` leaves when nothing raises -/

/-- A loop of a procedure that makes a measure smaller, given more rounds than the measure, ends without a raise only
because its condition is false. -/
theorem whileRun_ends {cond : Dec → Bool} {body : Dec → Run Unit} {P : Dec → Prop} (m : Dec → Nat)
    (hP : ∀ d e, P d → cond d = true → body d = .ok e () → P e)
    (hm : ∀ d e, P d → cond d = true → body d = .ok e () → m e < m d) (n : Nat) (d e : Dec) (hd : P d)
    (hn : m d < n) (hr : whileRun cond body n d = .ok e ()) : P e ∧ cond e = false := by
  induction n generalizing d with
  | zero => omega
  | succ n ih =>
    unfold whileRun at hr
    split at hr
    · next hc =>
      obtain ⟨d1, _, hb, hr1⟩ := Run.bind_eq_ok.mp hr
      have := hm d d1 hd hc hb
      exact ih d1 (hP d d1 hd hc hb) (by omega) hr1
    · next hc =>
      cases hr
      exact ⟨hd, by simpa using hc⟩

/-- `e` is a decoder without an error that was constructed as `d` was: what every pad bit that passes keeps. -/
def Dec.GoesOn (d e : Dec) : Prop := e.status = .okay ∧ d.sameParams e

theorem decPadBit_goesOn {d e f : Dec} (h : d.GoesOn e) (hr : decPadBit e = .ok f ()) : d.GoesOn f :=
  have hf := decPadBit_bitConsumed e f h.1 hr
  ⟨hf.status, Dec.sameParams_trans h.2 hf.params⟩

/-- Each character of a string gives at most five bits (20_memory.md R65). -/
theorem stringBits_length_le (cs : List Chr) : (stringBits cs).length ≤ 5 * cs.length := by
  induction cs with
  | nil => simp [stringBits_nil]
  | cons c cs ih =>
    by_cases hs : isSeparator c = true
    · rw [stringBits_sep c cs hs, List.length_cons]
      omega
    · rw [Bool.not_eq_true] at hs
      cases hv : valOfChar c with
      | none => simp [stringBits_bad c cs hs hv]
      | some v =>
        rw [stringBits_sym c cs v hs hv, List.length_append, symBits_length, List.length_cons]
        omega

/-- The first loop of `D.FINISH` leaves no bit of the symbol: each of its rounds takes one bit of the symbol held, which
has at most seven (42_decoder.md R184). -/
theorem decPadSymbol_ends (d e : Dec) (h : d.status = .okay) (hr : decPadSymbol d = .ok e ()) :
    d.GoesOn e ∧ e.bitsLeft = 0#3 := by
  have hsmaller : ∀ x y : Dec, d.GoesOn x → (x.bitsLeft != 0#3) = true → decPadBit x = .ok y () →
      y.bitsLeft.toNat < x.bitsLeft.toNat := by
    intro x y hx hc hb
    have hx0 : x.bitsLeft ≠ 0#3 := by simpa using hc
    obtain ⟨hleft, -⟩ := (decPadBit_bitConsumed x y hx.1 hb).held hx0
    have := bitsLeft_sub_one_toNat hx0
    rw [hleft]
    omega
  obtain ⟨hgo, hend⟩ := whileRun_ends (P := d.GoesOn) (fun x => x.bitsLeft.toNat)
    (fun x y hx _ hb => decPadBit_goesOn hx hb) hsmaller 8 d e ⟨h, d.sameParams_refl⟩ d.bitsLeft.isLt hr
  exact ⟨hgo, by simpa using hend⟩

/-- The second loop of `D.FINISH` leaves the symbol and the group complete: each of its rounds takes one bit of the input,
which has at most seven and five for each character (42_decoder.md R184). -/
theorem decPadGroup_ends (d e : Dec) (h : d.status = .okay) (hr : decPadGroup d = .ok e ()) :
    d.GoesOn e ∧ e.remInGroup = 0#7 ∧ e.bitsLeft = 0#3 := by
  have hrounds : d.inputBits.length < 5 * d.code.length + 9 := by
    have hsym := d.bitsLeft.isLt
    have hstr := stringBits_length_le (d.code.drop d.pos)
    rw [List.length_drop] at hstr
    rw [inputBits_length]
    omega
  obtain ⟨hgo, hend⟩ := whileRun_ends (P := d.GoesOn) (fun x => x.inputBits.length)
    (fun x y hx _ hb => decPadBit_goesOn hx hb)
    (fun x y hx _ hb => Nat.lt_of_succ_le (decPadBit_bitConsumed x y hx.1 hb).length.le) _ d e
    ⟨h, d.sameParams_refl⟩ hrounds hr
  exact ⟨hgo, by simpa using hend⟩

/-- Nothing is left for `D.FINISH` to do: the symbol is complete, and with padding to a group the group is, and the
position is at or behind the end of the string (42_decoder.md R188). -/
structure Dec.Finished (d : Dec) : Prop where
  symbol : d.bitsLeft = 0#3
  group : d.padGroup = true → d.remInGroup = 0#7
  ended : d.code.length ≤ d.pos

/-- A `D.FINISH` that nothing ends early leaves a finished decoder (42_decoder.md R184). -/
theorem decFinalise_finished (d e : Dec) (h : d.status = .okay) (hr : decFinalise d = .ok e ()) : e.Finished := by
  obtain ⟨d2, _, hpad, hscan⟩ := Run.bind_eq_ok.mp hr
  obtain ⟨d1, _, hsym, hgroup⟩ := Run.bind_eq_ok.mp hpad
  obtain ⟨⟨h1, -⟩, hb1⟩ := decPadSymbol_ends d d1 h hsym
  have hd2 : d2.bitsLeft = 0#3 ∧ (d2.padGroup = true → d2.remInGroup = 0#7) := by
    split at hgroup
    · obtain ⟨-, hrem, hb2⟩ := decPadGroup_ends d1 d2 h1 hgroup
      exact ⟨hb2, fun _ => hrem⟩
    · next hp =>
      cases hgroup
      exact ⟨hb1, fun hp' => absurd hp' hp⟩
  unfold trailingScan at hscan
  simp only at hscan
  split at hscan
  · next hnone =>
    cases hscan
    exact ⟨hd2.1, hd2.2, List.getElem?_eq_none_iff.mp hnone⟩
  · cases hscan

/-- Behind the end of the string there is no separator to skip. -/
theorem skipSeparators_of_le {code : List Chr} {pos : Nat} (h : code.length ≤ pos) : skipSeparators code pos = pos := by
  simp [skipSeparators, List.drop_eq_nil_of_le h]

/-- A loop whose condition is false at once does nothing. -/
theorem whileRun_of_false {cond : Dec → Bool} {body : Dec → Run Unit} {d : Dec} (h : cond d = false) (n : Nat) :
    whileRun cond body n d = .ok d () := by
  cases n <;> simp [whileRun, h]

/-- `D.FINISH` finds nothing to do in a finished decoder (42_decoder.md R188). -/
theorem decFinalise_of_finished (d : Dec) (h : d.Finished) : decFinalise d = .ok d () := by
  have hsym : decPadSymbol d = .ok d () := whileRun_of_false (by simp [h.symbol]) _
  have hgroup : (if d.padGroup then decPadGroup d else .ok d ()) = .ok d () := by
    split
    · next hp => exact whileRun_of_false (by simp [h.symbol, h.group hp]) _
    · rfl
  have hscan : trailingScan d = .ok d () := by
    simp [trailingScan, skipSeparators_of_le h.ended, List.getElem?_eq_none_iff.mpr h.ended]
  rw [decFinalise, hsym, Run.bind_ok, hgroup, Run.bind_ok, hscan]

/-- A finished decoder has no bit to give, and the error of the missing bit is `TOO_SHORT` (42_decoder.md R188). -/
theorem decDataBit_of_finished (d : Dec) (hs : d.status = .okay) (h : d.Finished) :
    ∃ e, decDataBit d = .raised e ∧ e.status = .tooShort := by
  have hi : d.inputBits = [] := by
    simp [Dec.inputBits, h.symbol, List.drop_eq_nil_of_le h.ended, stringBits_nil]
  obtain ⟨e, hr, -⟩ := decDataBit_exhausted d hs hi
  refine ⟨e, hr, ?_⟩
  rw [decRawBit_exhausted_status d e hs (decDataBit_eq_raised.mp hr), List.drop_eq_nil_of_le h.ended]
  rfl

theorem exec_dFinish_ok (s : State) (e : Dec) (h : s.safe) (hr : decFinalise s.dec = .ok e ()) :
    exec .dFinish s = .next ((s.withDec e).withRsp (rspDoneStatus e.status)) := by
  rw [exec, execDFinish]
  exact decAnswer_ok s _ _ h.1 h.2 e _ (by rw [hr, Run.bind_ok])

theorem exec_dFinish_raised (s : State) (e : Dec) (h : s.safe) (hr : decFinalise s.dec = .raised e) :
    exec .dFinish s = .next ((s.withDec e).withRsp (rspDoneStatus e.status)) := by
  rw [exec, execDFinish]
  exact decAnswer_raised s _ _ h.1 h.2 e (by rw [hr, Run.bind_raised])

theorem exec_dFinish_gated (s : State) (h : s.running) (hg : s.dec.status ≠ .okay) :
    exec .dFinish s = .next (s.withRsp (rspDoneStatus s.dec.status)) := by
  rw [exec, execDFinish]
  exact decAnswer_gated s _ _ h hg

/-- `D.FINISH` does not touch `FATAL` (10_state.md R39). -/
theorem exec_dFinish_running (s t : State) (h : s.running) (ht : exec .dFinish s = .next t) : t.running := by
  obtain ⟨d, hd⟩ := exec_dFinish_answers_status s h
  rw [hd] at ht
  cases ht
  exact h

/-- A `D.FINISH` that leaves `OKAY` was neither gated nor ended by a raise, so it leaves a finished decoder. -/
theorem exec_dFinish_finished (s t : State) (h : s.running) (ht : exec .dFinish s = .next t)
    (hok : t.dec.status = .okay) : t.dec.Finished := by
  by_cases hs : s.dec.status = .okay
  · cases hr : decFinalise s.dec with
    | ok d v =>
      rw [exec_dFinish_ok s d ⟨h, hs⟩ hr] at ht
      cases ht
      exact decFinalise_finished s.dec d hs hr
    | raised d =>
      rw [exec_dFinish_raised s d ⟨h, hs⟩ hr] at ht
      cases ht
      exact absurd hok (decFinalise_recordsError s.dec d hr)
  · rw [exec_dFinish_gated s h hs] at ht
    cases ht
    exact absurd hok hs

/-- Settles O30: what a `D.FINISH` with `OKAY` leaves is finished, so a second one does nothing and a bit is missing; an
error gates the second one. -/
theorem afterFinish : Obligations.AfterFinish := by
  intro s t h ht
  have hrun : t.running := exec_dFinish_running s t h ht
  refine ⟨fun hok => ?okay, fun herr => exec_dFinish_gated t hrun herr⟩
  case okay =>
    have hfin : t.dec.Finished := exec_dFinish_finished s t h ht hok
    obtain ⟨e, hr, hshort⟩ := decDataBit_of_finished t.dec hok hfin
    have hsecond := exec_dFinish_ok t t.dec ⟨hrun, hok⟩ (decFinalise_of_finished t.dec hfin)
    rw [hok] at hsecond
    exact ⟨hsecond, _, exec_dRbit_raised t e ⟨hrun, hok⟩ hr, rfl, hshort⟩

/-! ## The gate -/

/-- `D.C2B` and `D.AC2B` decode with a decoder of their own: the old one leaves no trace (43_code_to_bits.md R215). -/
theorem codeToBits_withDec (s : State) (d : Dec) : (s.withDec d).codeToBits = s.codeToBits := rfl

/-- A construction of DEC answers alike whatever decoder it finds (42_decoder.md R170). -/
theorem exec_construction_withDec (i : Instr) (s : State) (d : Dec) (hi : i ∈ [.dInit, .dC2b, .dAc2b])
    (h : s.running) : exec i (s.withDec d) = exec i s := by
  have hd : (s.withDec d).running := h
  obtain rfl | rfl | rfl : i = .dInit ∨ i = .dC2b ∨ i = .dAc2b := by simpa using hi
  · rw [exec_dInit s h, exec_dInit _ hd]
    rfl
  · rw [exec_dC2b s h, exec_dC2b _ hd, codeToBits_withDec]
  · rw [exec_dAc2b s h, exec_dAc2b _ hd, codeToBits_withDec]

/-- A construction of DEC answers a next state (42_decoder.md R170). -/
theorem exec_construction_next (i : Instr) (s : State) (hi : i ∈ [.dInit, .dC2b, .dAc2b]) (h : s.running) :
    ∃ t, exec i s = .next t := by
  obtain rfl | rfl | rfl : i = .dInit ∨ i = .dC2b ∨ i = .dAc2b := by simpa using hi
  · exact ⟨_, exec_dInit s h⟩
  · exact ⟨_, exec_dC2b s h⟩
  · exact ⟨_, exec_dAc2b s h⟩

theorem exec_dRchkn_gated (s : State) (h : s.running) (hg : s.dec.status ≠ .okay) :
    exec .dRchkn s = .next (s.withRsp rspDone) := by
  rw [exec, execDRchkn]
  exact decAnswer_gated s _ _ h hg

/-- Settles O31: each reading command is gated, and a construction does not see the old decoder. -/
theorem gatedCommandsDoNothing : Obligations.GatedCommandsDoNothing := by
  refine ⟨fun i s d hi h => ?construct, fun s h hg => ?gated⟩
  case construct =>
    obtain ⟨t, ht⟩ := exec_construction_next i s hi h
    exact ⟨t, t, ht, (exec_construction_withDec i s d hi h).trans ht, rfl⟩
  case gated =>
    exact ⟨exec_dRbit_gated s h hg, fun sg => exec_dRint_gated sg s h hg, exec_dRchk_gated s h hg,
      exec_dRchkn_gated s h hg, exec_dFinish_gated s h hg⟩

end Sys2Proof.Machine

/-! The composite commands `D.C2B` and `D.AC2B` (43_code_to_bits.md): what `code_to_bits` depends on and what it leaves, and
the two commands as the one run with two endings. -/

namespace Sys2Proof.Machine

/-! ## `code_to_bits` -/

/-- The loop of `code_to_bits` has more rounds than the staged code has bits, so the read that ends it is one for a missing
bit; the parameters of the temporary decoder stay (43_code_to_bits.md R210; log 16). -/
theorem codeToBits_ends (s : State) :
    (s.codeToBits.dec.status = .tooShort ∨ s.codeToBits.dec.status = .badDigit) ∧
      s.defaultDec.sameParams s.codeToBits.dec := by
  have hrounds : s.defaultDec.inputBits.length < 5 * s.defaultDec.code.length + 1 := by
    have hbits := stringBits_length_le s.defaultDec.code
    have hlen : s.defaultDec.inputBits.length = 0 + (stringBits s.defaultDec.code).length :=
      inputBits_length s.defaultDec
    omega
  obtain ⟨-, hstatus, -, hparams⟩ :=
    codeBitsLoop_inputBits _ s.defaultDec [] rfl (by decide : 0 < max 1 0) hrounds
  exact ⟨hstatus, hparams⟩

/-- What `code_to_bits` leaves in DEC and `DBITS` depends on its temporary decoder alone (43_code_to_bits.md R210). -/
theorem codeToBits_congr {s u : State} (h : u.defaultDec = s.defaultDec) :
    u.codeToBits.dec = s.codeToBits.dec ∧ u.codeToBits.dbits = s.codeToBits.dbits := by
  simp only [State.codeToBits, State.withDbits_dec, State.withDec_dec, State.withDbits_dbits, h, and_self]

/-- The temporary decoder takes nothing from `DMASK`, nor from any staging register of DEC but the code length
(43_code_to_bits.md R212). -/
theorem defaultDec_withDstg_withDmask (s : State) (r : DecStaging) (m : List (Nat × Bool))
    (h : r.codeLen = s.dstg.codeLen) : ((s.withDstg r).withDmask m).defaultDec = s.defaultDec := by
  rw [State.defaultDec, State.withDmask_dstg, State.withDstg_dstg, h]
  rfl

/-- Only an unmappable character gives a status that is not clean (43_code_to_bits.md R210, R214). -/
theorem cleanEnd_codeToBits (s : State) :
    cleanEnd s.codeToBits.dec.status = .okay ∨ cleanEnd s.codeToBits.dec.status = .badDigit := by
  obtain ⟨hshort | hbad, -⟩ := codeToBits_ends s
  · exact .inl (by rw [hshort]; rfl)
  · exact .inr (by rw [hbad]; rfl)

/-! ## The two commands -/

/-- Settles O34: the temporary decoder has the default parameters, which its reads keep, and does not see the other
staging of DEC. -/
theorem dC2bUsesDefaultSettings : Obligations.DC2bUsesDefaultSettings := by
  refine ⟨rfl, fun s h => ?_⟩
  obtain ⟨-, hcode, hmask, hdpg, hchecks, hgroup⟩ := codeToBits_ends s
  refine ⟨_, _, exec_dC2b s h, congrArg (State.withRsp · _) (codeToBits_frame s), rfl, hcode, hmask, hdpg, hgroup, hchecks,
    fun dpg round maskLen m => ?otherStaging⟩
  case otherStaging =>
    have hsame := defaultDec_withDstg_withDmask s { s.dstg with dpg := dpg, round := round, maskLen := maskLen } m rfl
    obtain ⟨hdec, hbits⟩ := codeToBits_congr hsame
    exact ⟨_, exec_dC2b _ h, hdec, hbits, by simp only [State.withRsp_rsp, hdec]⟩

/-- `D.AC2B` is `D.C2B` with `FATAL` set exactly on a status that is not `OKAY` (43_code_to_bits.md R213). -/
theorem exec_dAc2b_withFatal (s : State) (h : s.running) :
    exec .dAc2b s =
      .next ((s.codeToBits.withRsp (rspDoneStatus (cleanEnd s.codeToBits.dec.status))).withFatal
        (cleanEnd s.codeToBits.dec.status != .okay)) := by
  rw [exec_dAc2b s h]
  obtain hok | hbad := cleanEnd_codeToBits s
  · have hclear : s.codeToBits.withFatal false = s.codeToBits := congrArg s.codeToBits.withFatal (Eq.symm h)
    rw [hok, if_pos rfl, ← hclear]
    rfl
  · rw [hbad]
    rfl

/-- Settles O36: a status that is not `OKAY` can only be `BAD_DIGIT`, and it is what sets `FATAL`. -/
theorem dAc2bHaltsOnBadCode : Obligations.DAc2bHaltsOnBadCode := by
  refine ⟨rfl, fun s h => ⟨_, _, _, exec_dAc2b_withFatal s h, exec_dC2b s h, rfl, rfl, ?fatal⟩⟩
  case fatal =>
    rw [State.withFatal_fatal]
    obtain hok | hbad := cleanEnd_codeToBits s
    · rw [hok]
      decide
    · rw [hbad]
      decide

end Sys2Proof.Machine

/-! An illegal word (30_encoding.md R86, 60_exceptions.md R231): decoding leaves the step nothing to run, and the answer
carries the state it was given. -/

namespace Sys2Proof.Machine

/-- A word that does not decode stands for no command, whatever the reason (30_encoding.md R86). -/
theorem legalInstr_of_error {w : CmdWord} {e : DecodeError} (h : decodeWord w = .error e) : legalInstr w = none := by
  simp only [legalInstr, h]

/-- The step that accepts a word standing for no command answers it as illegal, however it came to be accepted. -/
theorem step_accepted_illegal {s t : State} {w : CmdWord} (hf : fetch s = .accepted w t) (hw : legalInstr w = none) :
    step s = answerIllegal t := by
  simp only [step, hf, hw]

/-- While `FATAL = 0` an illegal word is answered `ILLEGAL`, and the response is all that changes (60_exceptions.md
R231). -/
theorem answerIllegal_running (s : State) (h : s.running) :
    answerIllegal s = .next (s.withRsp (rspOnly .illegal)) := answer_running s _ h

/-- Settles O6: the word is accepted with the ports sampled, which keeps `FATAL` at 0, and is answered as illegal. -/
theorem illegalWordChangesNothing : Obligations.IllegalWordChangesNothing := by
  intro s c rest e hrun hhost hrsp hdec
  have haccept : fetch s = .accepted c.word (s.sampled c rest) := fetch_command s c rest hhost hrsp
  have hrun' : (s.sampled c rest).running := (State.sampled_fatal s c rest).trans hrun
  calc step s = answerIllegal (s.sampled c rest) := step_accepted_illegal haccept (legalInstr_of_error hdec)
    _ = .next ((s.sampled c rest).withRsp (rspOnly .illegal)) := answerIllegal_running _ hrun'

end Sys2Proof.Machine

/-! Construction and hardware reset (70_reset_and_hazards.md): what `E.INIT` and `D.INIT` leave, which commands keep an
error of DEC, and the two units after hardware reset. -/

namespace Sys2Proof.Machine

/-! ## `E.INIT` and `D.INIT` -/

/-- Settles O9: `E.INIT` answers with the construction (`exec_eInit`), whose mask is the staged one cell by cell. -/
theorem eInitConstructsEncoder : Obligations.EInitConstructsEncoder := by
  refine ⟨rfl, fun s h => ⟨_, exec_eInit s h, rfl, ?length, ?cells,
    rfl, rfl, rfl, rfl, rfl, rfl, rfl, rfl, rfl, rfl, rfl, rfl⟩⟩
  case length => exact readMask_length s .enc s.estg.maskLen
  case cells => exact fun a ha => readMask_getElem? s .enc s.estg.maskLen a ha

/-- A command of DEC that does not construct it only answers while the status is an error (42_decoder.md R170). -/
theorem exec_decCommand_gated (i : Instr) (s : State) (hi : encCommand i = false) (hc : i ∉ [.dInit, .dC2b, .dAc2b])
    (h : s.running) (hg : s.dec.status ≠ .okay) : ∃ r, exec i s = .next (s.withRsp r) := by
  cases i with
  | dRbit => exact ⟨_, exec_dRbit_gated s h hg⟩
  | dRint sg => exact ⟨_, exec_dRint_gated sg s h hg⟩
  | dRchk => exact ⟨_, exec_dRchk_gated s h hg⟩
  | dRchkn => exact ⟨_, exec_dRchkn_gated s h hg⟩
  | dFinish => exact ⟨_, exec_dFinish_gated s h hg⟩
  | dInit | dC2b | dAc2b => simp at hc
  | eInit | eWbit | eWint | eWchk | eWchkn | eResult | eNchk => cases hi

/-- A decoder with an error stays as it is under every command that does not construct it: the block is halted, or the
command is one of ENC, or it is gated (60_exceptions.md R223, R228). -/
theorem exec_keeps_erred_dec (i : Instr) (s t : State) (ht : exec i s = .next t) (hg : s.dec.status ≠ .okay)
    (hc : i ∉ [.dInit, .dC2b, .dAc2b]) : t.dec = s.dec := by
  cases hf : s.fatal with
  | true =>
    rw [exec_fatal i s hf] at ht
    cases ht
    rfl
  | false =>
    cases hi : encCommand i with
    | true =>
      obtain ⟨e, r, he, -⟩ := exec_encCommand i s hi hf
      rw [he] at ht
      cases ht
      rfl
    | false =>
      obtain ⟨r, hr⟩ := exec_decCommand_gated i s hi hc hf hg
      rw [hr] at ht
      cases ht
      rfl

/-- Settles O20: a command that clears the status changes DEC, so it is a construction (`exec_keeps_erred_dec`);
`D.INIT` answers with the construction, whose mask and code are the staged ones cell by cell. -/
theorem dInitConstructsDecoder : Obligations.DInitConstructsDecoder := by
  refine ⟨rfl, fun i s t ht herr hok => ?clears, fun s h => ⟨_, exec_dInit s h, rfl,
    ?maskLength, ?maskCells, ?codeLength, ?codeCells, rfl, rfl, rfl, rfl, rfl, rfl, rfl, rfl, rfl, rfl, rfl, rfl⟩⟩
  case clears =>
    by_contra hc
    exact herr ((congrArg Dec.status (exec_keeps_erred_dec i s t ht herr hc)).symm.trans hok)
  case maskLength => exact readMask_length s .dec s.dstg.maskLen
  case maskCells => exact fun a ha => readMask_getElem? s .dec s.dstg.maskLen a ha
  case codeLength => exact readCode_length s s.dstg.codeLen
  case codeCells => exact fun a ha => readCode_getElem? s s.dstg.codeLen a ha

/-! ## Hardware reset -/

/-- Hardware reset is served in one step, after the transaction is consumed (70_reset_and_hazards.md R253). -/
theorem step_hardReset (s : State) (rest : List HostOp) (h : s.host = .hardReset :: rest) :
    step s = .next (s.withHost rest).hardReset := by
  simp only [step, fetch, h]

/-- `E.INIT` leaves ENC as constructed from the staging, whatever the ports (70_reset_and_hazards.md R251). -/
theorem issue_eInit_enc (s : State) (q : Ports) (h : s.running) : (issue s .eInit q).enc = s.constructEnc.enc := by
  rw [issue_of_exec (exec_eInit (s.withPorts q) h)]
  rfl

/-- `D.INIT` leaves DEC as constructed from the staging, whatever the ports (70_reset_and_hazards.md R252). -/
theorem issue_dInit_dec (s : State) (q : Ports) (h : s.running) : (issue s .dInit q).dec = s.constructDec.dec := by
  rw [issue_of_exec (exec_dInit (s.withPorts q) h)]
  rfl

/-- The round mode 0 does not pad to a group (10_state.md R41). -/
@[simp] theorem roundPadGroup_zero : roundPadGroup 0#2 = false := rfl

/-- The round mode 0 does not pad with check bits (10_state.md R41). -/
@[simp] theorem roundPadChecks_zero : roundPadChecks 0#2 = false := rfl

/-- The staging that hardware reset leaves is all zero, so ENC is constructed with an empty mask and no grouping. -/
theorem hardReset_enc (s : State) : s.hardReset.enc = encConstruct [] 0#7 false false := by
  have hround : s.hardReset.enc = encConstruct [] 0#7 (roundPadGroup 0#2) (roundPadChecks 0#2) := rfl
  rw [hround, roundPadGroup_zero, roundPadChecks_zero]

/-- The staging that hardware reset leaves is all zero, so DEC is constructed with an empty mask, no code and no
grouping. -/
theorem hardReset_dec (s : State) : s.hardReset.dec = decConstruct [] [] 0#7 false false := by
  have hround : s.hardReset.dec = decConstruct [] [] 0#7 (roundPadGroup 0#2) (roundPadChecks 0#2) := rfl
  rw [hround, roundPadGroup_zero, roundPadChecks_zero]

/-- Another construction from the staging that hardware reset leaves gives the same encoder. -/
theorem hardReset_constructEnc (s : State) : s.hardReset.constructEnc.enc = s.hardReset.enc := rfl

/-- Another construction from the staging that hardware reset leaves gives the same decoder. -/
theorem hardReset_constructDec (s : State) : s.hardReset.constructDec.dec = s.hardReset.dec := rfl

/-- A loop whose condition is false at once does nothing. -/
theorem whileDo_of_false {σ : Type} {cond : σ → Bool} {body : σ → σ} {x : σ} (h : cond x = false) (n : Nat) :
    whileDo cond body n x = x := by
  cases n <;> simp [whileDo, h]

/-- `E.RESULT` emits nothing when the symbol is complete and, with padding to a group, the group is (41_encoder.md
R150). -/
theorem encFinalise_of_complete (e : Enc) (hs : e.nbits = 0#3) (hg : e.padGroup = true → e.remInGroup = 0#7) :
    encFinalise e = e := by
  have hsym : encPadSymbol e = e := whileDo_of_false (by simp [hs]) _
  rw [encFinalise, hsym]
  split
  · next hp => exact whileDo_of_false (by simp [hg hp]) _
  · rfl

/-- A decoder constructed over no code has nothing to finish. -/
theorem hardReset_finished (s : State) : s.hardReset.dec.Finished := by
  rw [hardReset_dec]
  exact ⟨rfl, fun _ => rfl, Nat.le_refl 0⟩

/-- Settles O46: the step is the reset, which constructs both units from all-zero staging; such an encoder is complete
and such a decoder finished, so `E.RESULT` and `D.FINISH` find nothing to do and `D.RBIT` misses a bit. -/
theorem hardResetConstructsBoth : Obligations.HardResetConstructsBoth := by
  intro s rest h
  have hsafe : (s.withHost rest).hardReset.safe := ⟨rfl, rfl⟩
  have hfin := hardReset_finished (s.withHost rest)
  refine ⟨_, step_hardReset s rest h, rfl, rfl, rfl, rfl, rfl, rfl, ?enc, ?dec, ?result, ?finish, ?rbit⟩
  case enc => rw [issue_eInit_enc _ _ hsafe.1, hardReset_constructEnc]
  case dec => rw [issue_dInit_dec _ _ hsafe.1, hardReset_constructDec]
  case result =>
    refine ⟨_, exec_eResult _ hsafe.1, ?_⟩
    have hcomplete := encFinalise_of_complete (encConstruct [] 0#7 false false) rfl fun _ => rfl
    rw [State.withRsp_enc, State.withEnc_enc, hardReset_enc, hcomplete]
    rfl
  case finish => exact ⟨_, exec_dFinish_ok _ _ hsafe (decFinalise_of_finished _ hfin), rfl⟩
  case rbit =>
    obtain ⟨e, hr, hshort⟩ := decDataBit_of_finished _ hsafe.2 hfin
    exact ⟨_, exec_dRbit_raised _ e hsafe hr, hshort⟩

end Sys2Proof.Machine

/-! The decoder of command words against the encoder and the opcode table (30_encoding.md R82, R85, R86). -/

namespace Sys2Proof.Machine

/-! ## Words and commands -/

/-- Settles O1: each command's word is taken apart again, by format and operand bit. -/
theorem decodeOfEncode : Obligations.DecodeOfEncode := by
  intro i
  cases i with
  | eWbit b | eWint b | dRint b => cases b <;> rfl
  | eInit | eWchk | eWchkn | eResult | eNchk | dInit | dRbit | dRchk | dRchkn | dFinish | dC2b | dAc2b => rfl

/-- A word the decoder accepts is the word of the command it answers: the check of all 256 words (30_encoding.md R85).
-/
theorem encode_of_legalInstr : ∀ w : CmdWord, ∀ i ∈ legalInstr w, encode i = w := by
  decide

theorem legalInstr_eq_some_iff_decodeWord (w : CmdWord) (i : Instr) : legalInstr w = some i ↔ decodeWord w = .ok i := by
  unfold legalInstr
  cases decodeWord w <;> simp

/-- Settles O2: the word of a command decodes to it (`decodeOfEncode`), and no other word does
(`encode_of_legalInstr`). -/
theorem wordDecodesIffEncoded : Obligations.WordDecodesIffEncoded := by
  intro w i
  constructor
  · intro h
    exact (encode_of_legalInstr w i ((legalInstr_eq_some_iff_decodeWord w i).mpr h)).symm
  · rintro rfl
    exact decodeOfEncode i

/-- A word stands for a command exactly if it is its word. -/
theorem legalInstr_eq_some_iff (w : CmdWord) (i : Instr) : legalInstr w = some i ↔ w = encode i :=
  (legalInstr_eq_some_iff_decodeWord w i).trans (wordDecodesIffEncoded w i)

/-- 119 of the 128 words of each unit are illegal: the other nine are its seven or eight commands, with the operand bit
of those that have one (30_encoding.md R86). -/
theorem illegal_words_of_unit :
    ((List.range 128).filter fun n => (legalInstr (BitVec.ofNat 8 n)).isNone).length = 119 ∧
    ((List.range 128).filter fun n => (legalInstr (BitVec.ofNat 8 (128 + n))).isNone).length = 119 :=
  ⟨rfl, rfl⟩

/-- Settles O3: a check of the 256 words, clause by clause; the illegal ones are counted unit by unit. -/
theorem illegalWordsAsListed : Obligations.IllegalWordsAsListed := by
  refine ⟨?conditions, ?rows, ?mnemonics, ?count⟩
  case conditions => decide
  case rows => decide
  case mnemonics => decide
  case count =>
    rw [show 256 = 128 + 128 from rfl, List.range_add, List.filter_append, List.length_append, List.filter_map,
      List.length_map, illegal_words_of_unit.1, Function.comp_def, illegal_words_of_unit.2]

/-- Settles O4: each word written out is decoded by evaluation. -/
theorem writtenWordsDecode : Obligations.WrittenWordsDecode :=
  ⟨rfl, rfl, rfl, rfl, rfl, rfl, rfl, rfl, rfl, rfl, rfl, rfl, rfl, rfl⟩

end Sys2Proof.Machine

/-! The leaf functions: the symbol tables (40_primitives.md R104 to R110), the running check as a sum of shifted
polynomials (R100 to R103), and the integers of patterns (00_scope.md R10). -/

namespace Sys2Proof.Machine

/-! ## Symbol tables -/

/-- Settles O53: every clause is a check of the 32 values or the 256 characters. -/
theorem symbolTablesAgree : Obligations.SymbolTablesAgree := by
  refine ⟨?letters, ?digits, ?values, ?separator, ?symbols, ?cases, rfl, rfl, rfl, rfl, ?count⟩
  case letters => decide
  case digits => decide
  case values => decide
  case separator => decide
  case symbols => decide
  case cases => decide
  case count => rfl

/-! ## Running check -/

theorem crcUpdate_eq (s : Word32) (b : Bool) : crcUpdate s b = (s >>> 1) ^^^ (if b then crcPoly else 0#32) :=
  BitVec.xor_comm _ _

theorem crcOver_concat (s : Word32) (bs : List Bool) (b : Bool) :
    crcOver s (bs ++ [b]) = crcUpdate (crcOver s bs) b := by
  simp [crcOver]

theorem crcOver_append (s : Word32) (old bs : List Bool) : crcOver s (old ++ bs) = crcOver (crcOver s old) bs :=
  List.foldl_append

/-- The start value enters the check only shifted by the number of bits: the step is linear (40_primitives.md R103). -/
theorem crcOver_eq_xor (s : Word32) (bs : List Bool) : crcOver s bs = (s >>> bs.length) ^^^ crcOver 0#32 bs := by
  induction bs using List.reverseRecOn with
  | nil => simp [crcOver]
  | append_singleton bs b ih =>
    rw [crcOver_concat, crcOver_concat, crcUpdate_eq, crcUpdate_eq, ih, BitVec.ushiftRight_xor_distrib,
      ← BitVec.shiftRight_add, List.length_append, List.length_singleton, BitVec.xor_assoc]

/-- Settles O52: 32 shifts leave nothing of the value before them (`crcOver_eq_xor`). -/
theorem crcForgetsOldBits : Obligations.CrcForgetsOldBits := by
  intro s old bs h
  have hgone : crcOver s old >>> bs.length = 0#32 := BitVec.ushiftRight_eq_zero h
  rw [crcOver_append, crcOver_eq_xor, hgone, BitVec.zero_xor]

/-- The polynomial a data bit leaves in the check once `n` more bits have followed it (40_primitives.md R103). -/
def crcTerm (b : Bool) (n : Nat) : Word32 := if b then crcPoly >>> n else 0#32

/-- The sum of the terms of a list of data bits, as the closed form writes it (40_primitives.md R103). -/
def crcSum (bs : List Bool) : Word32 :=
  ((List.range bs.length).map fun i => crcTerm (bs.getD i false) (bs.length - 1 - i)).foldl (· ^^^ ·) 0#32

theorem crcClosed_eq (bs : List Bool) : crcClosed bs = (crcInit >>> bs.length) ^^^ crcSum bs := rfl

theorem crcTerm_succ (b : Bool) (n : Nat) : crcTerm b (n + 1) = crcTerm b n >>> 1 := by
  cases b
  · exact BitVec.zero_ushiftRight.symm
  · exact BitVec.shiftRight_add _ _ _

/-- A sum of shifted terms is the shifted sum. -/
theorem foldl_xor_ushiftRight (ws : List Word32) (s : Word32) :
    (ws.map fun w : Word32 => w >>> 1).foldl (· ^^^ ·) (s >>> 1) = ws.foldl (· ^^^ ·) s >>> 1 := by
  induction ws generalizing s with
  | nil => rfl
  | cons w ws ih => rw [List.map_cons, List.foldl_cons, ← BitVec.ushiftRight_xor_distrib, ih, List.foldl_cons]

/-- One data bit more shifts the sum and adds its own term unshifted: the step of the running check. -/
theorem crcSum_concat (bs : List Bool) (b : Bool) : crcSum (bs ++ [b]) = crcUpdate (crcSum bs) b := by
  have hold : (List.range bs.length).map (fun i => crcTerm ((bs ++ [b]).getD i false) (bs.length - i)) =
      ((List.range bs.length).map fun i => crcTerm (bs.getD i false) (bs.length - 1 - i)).map
        fun w : Word32 => w >>> 1 := by
    rw [List.map_map]
    refine List.map_congr_left fun i hi => ?_
    have hlt : i < bs.length := List.mem_range.mp hi
    have hlen : bs.length - i = bs.length - 1 - i + 1 := by omega
    rw [List.getD_append _ _ _ _ hlt, hlen, crcTerm_succ]
    rfl
  have hnew : crcTerm ((bs ++ [b]).getD bs.length false) (bs.length - bs.length) = if b then crcPoly else 0#32 := by
    simp [crcTerm]
  have hshift := foldl_xor_ushiftRight
    ((List.range bs.length).map fun i => crcTerm (bs.getD i false) (bs.length - 1 - i)) 0#32
  rw [crcSum, List.length_append, List.length_singleton, Nat.add_sub_cancel, List.range_succ, List.map_append,
    List.foldl_append, hold, crcUpdate_eq, crcSum, ← hshift]
  exact congrArg _ hnew

/-- Settles O51: the check from 0 is the sum of the terms, bit by bit (`crcSum_concat`), and the start value is shifted
beside it (`crcOver_eq_xor`). -/
theorem crcClosedForm : Obligations.CrcClosedForm := by
  have hsum : ∀ bs, crcOver 0#32 bs = crcSum bs := by
    intro bs
    induction bs using List.reverseRecOn with
    | nil => rfl
    | append_singleton bs b ih => rw [crcOver_concat, crcSum_concat, ih]
  intro bs
  rw [crcClosed_eq, crcOver_eq_xor, hsum]
  rfl

/-! ## Integers of patterns -/

theorem intOf_unsigned {w v : Nat} (h : v < 2 ^ w) : intOf w false v = v := by
  simp [intOf, Nat.mod_eq_of_lt h]

theorem intOf_signed {w v : Nat} (h : v < 2 ^ w) :
    intOf w true v = if 2 ^ (w - 1) ≤ v then (v : Int) - 2 ^ w else v := by
  simp [intOf, Nat.mod_eq_of_lt h]

/-- A pattern that differs from an integer by whole turns of `2^w` is its pattern. -/
theorem patOf_eq {w v : Nat} {k : Int} (h : v < 2 ^ w) (hk : k % 2 ^ w = v % 2 ^ w) : patOf w k = v := by
  have hv : (v : Int) % 2 ^ w = v := Int.emod_eq_of_lt (by omega) (by exact_mod_cast h)
  rw [patOf, hk, hv, Int.toNat_natCast]

theorem patOf_lt (w : Nat) (k : Int) : patOf w k < 2 ^ w := by
  have hpos : (0 : Int) < 2 ^ w := by positivity
  have hlt := Int.emod_lt_of_pos k hpos
  have hnonneg := Int.emod_nonneg k hpos.ne'
  rw [patOf, Int.toNat_lt hnonneg]
  exact_mod_cast hlt

/-- Settles O55: unsigned, the integer is the pattern itself; signed, the upper half of the patterns is moved down by
`2^w`. -/
theorem patternsStandForIntegers : Obligations.PatternsStandForIntegers := by
  intro w v sg hw hv
  have hhalf : (2 : Int) ^ w = 2 * 2 ^ (w - 1) := by rw [← pow_succ', Nat.sub_add_cancel hw]
  have hvi : (v : Int) < 2 ^ w := by exact_mod_cast hv
  cases sg with
  | false =>
    rw [intOf_unsigned hv]
    exact ⟨patOf_eq hv rfl, fun _ => ⟨by omega, hvi⟩, by rintro ⟨⟩⟩
  | true =>
    rw [intOf_signed hv]
    split
    · next hle =>
      have hlei : (2 : Int) ^ (w - 1) ≤ v := by exact_mod_cast hle
      exact ⟨patOf_eq hv (Int.sub_emod_right _ _), by rintro ⟨⟩, fun _ => ⟨by omega, by omega⟩⟩
    · next hlt =>
      have hlti : (v : Int) < 2 ^ (w - 1) := by exact_mod_cast not_le.mp hlt
      exact ⟨patOf_eq hv rfl, by rintro ⟨⟩, fun _ => ⟨by omega, hlti⟩⟩

end Sys2Proof.Machine

/-! The invariant between commands (10_state.md R44): what one raw bit does to the registers it speaks of, what every
procedure of either unit leaves, and every command and host transaction. The same inversion of the procedures of DEC
says which errors each can raise (60_exceptions.md R221). -/

namespace Sys2Proof.Machine

/-! ## Symbols and groups -/

/-- Every value has a symbol of the alphabet, which is no separator and decodes to that value (40_primitives.md R104,
R106). -/
theorem symOfVal_spec (v : SymVal) :
    symOfVal v ∈ alphabet ∧ isSeparator (symOfVal v) = false ∧ valOfChar (symOfVal v) = some v := by
  revert v
  decide

/-- A string with one more character in it is the string in groups with that character after it, and a separator
between them if it starts a group (30_encoding.md R94). -/
theorem groupedFrom_concat (g i : Nat) (cs : List Chr) (c : Chr) :
    groupedFrom g i (cs ++ [c]) =
      groupedFrom g i cs ++
        (if g ≠ 0 ∧ i + cs.length ≠ 0 ∧ (i + cs.length) % g = 0 then [sepOut] else []) ++ [c] := by
  induction cs generalizing i with
  | nil =>
    simp only [List.nil_append, groupedFrom, List.length_nil, Nat.add_zero, List.append_nil]
    split <;> rfl
  | cons x xs ih =>
    have hlen : i + 1 + xs.length = i + (x :: xs).length := by rw [List.length_cons]; omega
    rw [List.cons_append, groupedFrom, ih (i + 1), hlen, groupedFrom]
    simp only [List.append_assoc]

/-- Only the empty string has no symbol and is in the grouped form. -/
theorem out_eq_nil_iff {p : Params} {e : Enc} (h : e.Inv p) : e.out = [] ↔ (symbolsOf e.out).length = 0 := by
  constructor
  · intro ho
    rw [ho]
    rfl
  · intro hn
    have hs := h.out_strict
    rw [List.length_eq_zero_iff.mp hn] at hs
    exact hs

/-- The group countdown is at 0 exactly at the boundaries of groups (10_state.md R44). -/
theorem groupRem_eq_zero_iff {g : Nat} (hg : g ≠ 0) (n : Nat) : groupRem g n = 0 ↔ n % g = 0 := by
  have hlt : n % g < g := Nat.mod_lt _ (by omega)
  rw [groupRem, if_neg hg]
  constructor
  · intro h
    by_contra hn
    rw [Nat.mod_eq_of_lt (by omega)] at h
    omega
  · intro h
    rw [h, Nat.sub_zero, Nat.mod_self]

/-! ## Encoder -/

/-- The first symbol of a group other than the first is the one a separator is put before (40_primitives.md R116). -/
theorem separator_due_iff {p : Params} {e : Enc} (h : e.Inv p) :
    (e.dpg ≠ 0#7 ∧ e.remInGroup = 0#7 ∧ e.out ≠ []) ↔
      (e.dpg.toNat ≠ 0 ∧ 0 + (symbolsOf e.out).length ≠ 0 ∧ (0 + (symbolsOf e.out).length) % e.dpg.toNat = 0) := by
  have hdpg : e.dpg ≠ 0#7 ↔ e.dpg.toNat ≠ 0 := by simp [← BitVec.toNat_inj]
  have hrem : e.remInGroup = 0#7 ↔ groupRem e.dpg.toNat (symbolsOf e.out).length = 0 := by
    rw [← h.rem_eq, ← BitVec.toNat_inj]
    rfl
  rw [hdpg, hrem, Ne, Ne, Ne, out_eq_nil_iff h, Nat.zero_add]
  constructor
  · rintro ⟨hg, hr, hn⟩
    exact ⟨hg, hn, (groupRem_eq_zero_iff hg _).mp hr⟩
  · rintro ⟨hg, hn, hr⟩
    exact ⟨hg, (groupRem_eq_zero_iff hg _).mpr hr, hn⟩

/-- The bit buffer after one more bit, as a number (40_primitives.md R114). -/
theorem shiftIn_toNat (acc : BitVec 5) (w : Bool) : (shiftIn acc w).toNat = 2 * (acc.toNat % 16) + w.toNat := by
  revert acc w
  decide

/-- The symbols of the string after a symbol is emitted; a separator adds none (40_primitives.md R116). -/
theorem symbolsOf_emitted (out : List Chr) (sep : Prop) [Decidable sep] (v : SymVal) :
    symbolsOf (out ++ (if sep then [sepOut] else []) ++ [symOfVal v]) = symbolsOf out ++ [symOfVal v] := by
  have hsym : symbolsOf [symOfVal v] = [symOfVal v] := by
    simp [symbolsOf, (symOfVal_spec v).2.1]
  have hsep : symbolsOf (if sep then [sepOut] else []) = [] := by
    split <;> rfl
  rw [symbolsOf_append, symbolsOf_append, hsym, hsep, List.append_nil]

/-- A raw bit keeps the invariant of ENC: below a full symbol the buffer grows by one bit; a full symbol leaves it and
is counted into its group (40_primitives.md R114, R116). -/
theorem encRawBit_inv {p : Params} {e : Enc} (x : Bool) (h : e.Inv p) : (encRawBit x e).Inv p := by
  have hcursor : nextCursor e.mask e.cursor < max 1 e.mask.length := nextCursor_lt _ _ h.cursor_lt
  by_cases hn : e.nbits = 4#3
  case pos =>
    rw [encRawBit_emits x e hn]
    refine ⟨Nat.zero_le _, (by decide : (0#5).toNat < 2 ^ (0#3).toNat), h.latchRem_le, hcursor,
      countSymbol_le _ _ h.rem_le, ?rem, h.mask_le, ?strict, ?alphabet⟩
    case rem =>
      rw [symbolsOf_emitted, List.length_append]
      exact countSymbol_eq _ _ _ h.rem_eq
    case strict =>
      rw [symbolsOf_emitted, groupedFrom_concat, ← h.out_strict]
      simp only [separator_due_iff h]
    case alphabet =>
      rw [symbolsOf_emitted]
      intro c hc
      obtain hc | hc := List.mem_append.mp hc
      · exact h.out_alphabet c hc
      · rw [List.mem_singleton.mp hc]
        exact (symOfVal_spec _).1
  case neg =>
    rw [encRawBit_pending x e hn]
    have hlt : e.nbits.toNat < 4 := by
      have := h.nbits_le
      have : e.nbits.toNat ≠ 4 := fun h4 => hn (BitVec.eq_of_toNat_eq h4)
      omega
    have hsucc : (e.nbits + 1#3).toNat = e.nbits.toNat + 1 := by bv_omega
    refine ⟨by rw [hsucc]; omega, ?acc, h.latchRem_le, hcursor, h.rem_le, h.rem_eq, h.mask_le, h.out_strict,
      h.out_alphabet⟩
    case acc =>
      have hacc := h.acc_lt
      have hbit := Bool.toNat_le (scrambleBit e.mask e.cursor x)
      rw [hsucc, Nat.pow_succ, shiftIn_toNat]
      have := Nat.mod_le e.acc.toNat 16
      omega

/-- The invariant of ENC does not see the running check, the counter and the latch but for how many bits it has left. -/
theorem Enc.Inv.with_checks {p : Params} {e : Enc} (h : e.Inv p) (crc latch : Word32) {rem : BitVec 6} (cnt : Word32)
    (hrem : rem.toNat ≤ 32) :
    Enc.Inv p { e with crc := crc, latch := latch, latchRem := rem, checkCount := cnt } :=
  ⟨h.nbits_le, h.acc_lt, hrem, h.cursor_lt, h.rem_le, h.rem_eq, h.mask_le, h.out_strict, h.out_alphabet⟩

theorem encDataBit_inv {p : Params} {e : Enc} (b : Bool) (h : e.Inv p) : (encDataBit b e).Inv p :=
  encRawBit_inv b (h.with_checks _ e.latch e.checkCount (by decide : (0#6).toNat ≤ 32))

theorem encCheckBit_inv {p : Params} {e : Enc} (h : e.Inv p) : (encCheckBit e).Inv p :=
  encRawBit_inv _ (h.with_checks e.crc _ _ (loadLatch_rem_le _ _ _ h.latchRem_le))

theorem encPadBit_inv {p : Params} {e : Enc} (h : e.Inv p) : (encPadBit e).Inv p := by
  unfold encPadBit
  split
  · exact encCheckBit_inv h
  · exact encRawBit_inv false h

theorem encDataBits_inv {p : Params} (bs : List Bool) {e : Enc} (h : e.Inv p) : (encDataBits bs e).Inv p := by
  induction bs generalizing e with
  | nil => exact h
  | cons b bs ih => exact ih (encDataBit_inv b h)

theorem encFinalise_inv {p : Params} {e : Enc} (h : e.Inv p) : (encFinalise e).Inv p := by
  have hbody : ∀ x : Enc, x.Inv p → (encPadBit x).Inv p := fun _ => encPadBit_inv
  have hsym : (encPadSymbol e).Inv p := whileDo_keeps hbody 8 e h
  unfold encFinalise
  simp only
  split
  · exact whileDo_keeps hbody 635 _ hsym
  · exact hsym

/-- A freshly constructed encoder meets the invariant if its mask fits (70_reset_and_hazards.md R251). -/
theorem encConstruct_inv {p : Params} {mask : List Bool} (dpg : BitVec 7) (padGroup padChecks : Bool)
    (h : mask.length ≤ p.maskMax) : (encConstruct mask dpg padGroup padChecks).Inv p := by
  refine ⟨Nat.zero_le _, (by decide : (0#5).toNat < 2 ^ (0#3).toNat), Nat.zero_le _,
    Nat.lt_of_lt_of_le Nat.one_pos (Nat.le_max_left _ _), Nat.zero_le _, ?rem, h, rfl, by rintro c ⟨⟩⟩
  case rem =>
    simp [encConstruct, symbolsOf, groupRem]

/-! ## Decoder -/

/-- The symbols consumed: the mappable characters before a position (10_state.md R44). -/
def mappableBefore (code : List Chr) (pos : Nat) : List Chr := (code.take pos).filter fun c => (valOfChar c).isSome

/-- The separators skipped are no symbols. -/
theorem mappableBefore_skipSeparators (code : List Chr) (pos : Nat) :
    mappableBefore code (skipSeparators code pos) = mappableBefore code pos := by
  have hsplit : skipSeparators code pos = pos + (skipSeparators code pos - pos) := by
    have := skipSeparators_ge code pos
    omega
  have hskipped :
      ((code.drop pos).take (skipSeparators code pos - pos)).filter (fun c => (valOfChar c).isSome) = [] := by
    rw [List.filter_eq_nil_iff]
    intro c hc
    simp [valOfChar_sep c (skipSeparators_skipped code pos c hc)]
  rw [mappableBefore, hsplit, List.take_add, List.filter_append, hskipped, List.append_nil, mappableBefore]

/-- One character more is one symbol more exactly if it is mappable. -/
theorem mappableBefore_succ {code : List Chr} {pos : Nat} {c : Chr} (h : code[pos]? = some c) :
    (mappableBefore code (pos + 1)).length =
      (mappableBefore code pos).length + (if (valOfChar c).isSome then 1 else 0) := by
  rw [mappableBefore, List.take_add_one, h, List.filter_append, List.length_append, mappableBefore]
  cases hv : (valOfChar c).isSome <;> simp [hv]

/-- The invariant of DEC does not see the running check, the status and the latch but for how many bits it has left. -/
theorem Dec.Inv.with_checks {p : Params} {d : Dec} (h : d.Inv p) (crc latch : Word32) {rem : BitVec 6} (st : Status)
    (hrem : rem.toNat ≤ 32) : Dec.Inv p { d with crc := crc, latch := latch, latchRem := rem, status := st } :=
  ⟨h.bitsLeft_le, hrem, h.cursor_lt, h.pos_le, h.rem_le, h.rem_eq, h.mask_le, h.code_le⟩

/-- A position that has moved over separators, or over them and one unmappable character, keeps the invariant of DEC. -/
theorem Dec.Inv.with_pos {p : Params} {d : Dec} (h : d.Inv p) {pos : Nat} (st : Status) (hpos : pos ≤ d.code.length)
    (hsame : (mappableBefore d.code pos).length = (mappableBefore d.code d.pos).length) :
    Dec.Inv p { d with pos := pos, status := st } :=
  ⟨h.bitsLeft_le, h.latchRem_le, h.cursor_lt, hpos, h.rem_le,
    h.rem_eq.trans (congrArg (groupRem d.dpg.toNat) hsame.symm), h.mask_le, h.code_le⟩

/-- What a procedure of DEC that starts from `d` with status OKAY can do: it keeps the invariant, and it either goes on
with status OKAY or is ended by one of the errors listed (60_exceptions.md R221, R222). -/
structure Run.Sound {α : Type} (p : Params) (errs : List Status) (d : Dec) (r : Run α) : Prop where
  inv : d.Inv p → r.dec.Inv p
  okay : ∀ e v, r = .ok e v → e.status = .okay
  error : ∀ e, r = .raised e → e.status ∈ errs

section Sound

variable {α β : Type} {p : Params} {errs : List Status} {d : Dec}

theorem Run.Sound.of_ok {e : Dec} {v : α} (hinv : d.Inv p → e.Inv p) (h : e.status = .okay) :
    (Run.ok e v).Sound p errs d := by
  refine ⟨hinv, ?_, ?_⟩
  · rintro _ _ ⟨⟩
    exact h
  · rintro _ ⟨⟩

theorem Run.Sound.of_raised {e : Dec} (hinv : d.Inv p → e.Inv p) (h : e.status ∈ errs) :
    (Run.raised e : Run α).Sound p errs d := by
  refine ⟨hinv, ?_, ?_⟩
  · rintro _ _ ⟨⟩
  · rintro _ ⟨⟩
    exact h

/-- A procedure that raises at once, with an error of the list. -/
theorem raiseError_sound {st : Status} (h : d.status = .okay) (hst : st ∈ errs) :
    (raiseError st d : Run α).Sound p errs d := by
  rw [raiseError_okay st d h]
  exact .of_raised (fun hinv => hinv.with_checks d.crc d.latch st hinv.latchRem_le) hst

theorem Run.Sound.bind {r : Run α} {f : Dec → α → Run β} (hr : r.Sound p errs d)
    (hf : ∀ e v, e.status = .okay → (f e v).Sound p errs e) : (r.bind f).Sound p errs d := by
  cases r with
  | ok e v =>
    have he := hf e v (hr.okay e v rfl)
    exact ⟨fun h => he.inv (hr.inv h), he.okay, he.error⟩
  | raised e => exact .of_raised hr.inv (hr.error e rfl)

/-- A raw bit misses a symbol or meets an unmappable character (40_primitives.md R118, R122). -/
theorem decRawBit_sound (h : d.status = .okay) (hshort : .tooShort ∈ errs) (hbad : .badDigit ∈ errs) :
    (decRawBit d).Sound p errs d := by
  have hskip := congrArg List.length (mappableBefore_skipSeparators d.code d.pos)
  obtain ⟨hb, hr⟩ | ⟨-, -, hr⟩ | ⟨-, c, hc, hv, hr⟩ | ⟨-, c, v, hc, hv, hr⟩ := decRawBit_cases d h <;> rw [hr]
  case inl =>
    refine .of_ok (fun hinv => ?_) h
    have hleft := bitsLeft_sub_one_toNat hb
    have hle := hinv.bitsLeft_le
    exact ⟨show (d.bitsLeft - 1#3).toNat ≤ 4 by omega, hinv.latchRem_le, nextCursor_lt _ _ hinv.cursor_lt, hinv.pos_le,
      hinv.rem_le, hinv.rem_eq, hinv.mask_le, hinv.code_le⟩
  case inr.inl =>
    exact .of_raised (fun hinv => hinv.with_pos _ (skipSeparators_le _ _ hinv.pos_le) hskip) hshort
  case inr.inr.inl =>
    obtain ⟨hlt, -⟩ := List.getElem?_eq_some_iff.mp hc
    have hsucc := mappableBefore_succ hc
    rw [hv] at hsucc
    exact .of_raised (fun hinv => hinv.with_pos _ hlt (hsucc.trans hskip)) hbad
  case inr.inr.inr =>
    obtain ⟨hlt, -⟩ := List.getElem?_eq_some_iff.mp hc
    have hsucc := mappableBefore_succ hc
    rw [hv, hskip] at hsucc
    refine .of_ok (fun hinv => ?_) h
    exact ⟨(by decide : (5#3 - 1#3).toNat ≤ 4), hinv.latchRem_le, nextCursor_lt _ _ hinv.cursor_lt, hlt,
      countSymbol_le _ _ hinv.rem_le,
      (countSymbol_eq _ _ _ hinv.rem_eq).trans (congrArg (groupRem d.dpg.toNat) hsucc.symm), hinv.mask_le, hinv.code_le⟩

theorem decDataBit_sound (h : d.status = .okay) (hshort : .tooShort ∈ errs) (hbad : .badDigit ∈ errs) :
    (decDataBit d).Sound p errs d :=
  (decRawBit_sound h hshort hbad).bind fun e _ he =>
    .of_ok (fun hinv => hinv.with_checks _ e.latch e.status (by decide : (0#6).toNat ≤ 32)) he

theorem decCheckBit_sound (h : d.status = .okay) (hshort : .tooShort ∈ errs) (hbad : .badDigit ∈ errs)
    (hcheck : .badCheckBit ∈ errs) : (decCheckBit d).Sound p errs d := by
  have hraw := decRawBit_sound (p := p) (d := { d with
    latch := (loadLatch d.crc d.latch d.latchRem).shifted.snap
    latchRem := (loadLatch d.crc d.latch d.latchRem).shifted.rem }) h hshort hbad
  have hfrom : (decCheckBit d).Sound p errs _ := hraw.bind fun e a he => by
    split
    · exact .of_ok id he
    · exact raiseError_sound he hcheck
  exact ⟨fun hinv => hfrom.inv (hinv.with_checks d.crc _ d.status (loadLatch_rem_le _ _ _ hinv.latchRem_le)),
    hfrom.okay, hfrom.error⟩

theorem decZeroPadBit_sound (h : d.status = .okay) (hshort : .tooShort ∈ errs) (hbad : .badDigit ∈ errs)
    (hcheck : .badCheckBit ∈ errs) : (decZeroPadBit d).Sound p errs d :=
  (decRawBit_sound h hshort hbad).bind fun e a he => by
    split
    · exact raiseError_sound he hcheck
    · exact .of_ok id he

theorem decPadBit_sound (h : d.status = .okay) (hshort : .tooShort ∈ errs) (hbad : .badDigit ∈ errs)
    (hcheck : .badCheckBit ∈ errs) : (decPadBit d).Sound p errs d := by
  unfold decPadBit
  split
  · exact decCheckBit_sound h hshort hbad hcheck
  · exact decZeroPadBit_sound h hshort hbad hcheck

theorem repeatRun_sound {body : Dec → Run Unit} (hbody : ∀ e, e.status = .okay → (body e).Sound p errs e) (n : Nat)
    (h : d.status = .okay) : (repeatRun body n d).Sound p errs d := by
  induction n generalizing d with
  | zero => exact .of_ok id h
  | succ n ih => exact (hbody d h).bind fun e _ he => ih he

theorem whileRun_sound {cond : Dec → Bool} {body : Dec → Run Unit}
    (hbody : ∀ e, e.status = .okay → (body e).Sound p errs e) (n : Nat) (h : d.status = .okay) :
    (whileRun cond body n d).Sound p errs d := by
  induction n generalizing d with
  | zero => exact .of_ok id h
  | succ n ih =>
    unfold whileRun
    split
    · exact (hbody d h).bind fun e _ he => ih he
    · exact .of_ok id h

theorem decReadRaw_sound (w raw : Nat) (h : d.status = .okay) (hshort : .tooShort ∈ errs) (hbad : .badDigit ∈ errs) :
    (decReadRaw w raw d).Sound p errs d := by
  induction w generalizing raw d with
  | zero => exact .of_ok id h
  | succ w ih => exact (decDataBit_sound h hshort hbad).bind fun e _ he => ih _ he

/-- The trailing scan moves the position over separators only (42_decoder.md R186). -/
theorem trailingScan_sound (h : d.status = .okay) (hlong : .tooLong ∈ errs) : (trailingScan d).Sound p errs d := by
  have hskip : d.Inv p → Dec.Inv p { d with pos := skipSeparators d.code d.pos } := fun hinv =>
    hinv.with_pos d.status (skipSeparators_le _ _ hinv.pos_le)
      (congrArg List.length (mappableBefore_skipSeparators d.code d.pos))
  unfold trailingScan
  simp only
  split
  · exact .of_ok hskip h
  · have hraise := raiseError_sound (α := Unit) (p := p) (d := { d with pos := skipSeparators d.code d.pos }) h hlong
    exact ⟨fun hinv => hraise.inv (hskip hinv), hraise.okay, hraise.error⟩

theorem decFinalise_sound (h : d.status = .okay) (hshort : .tooShort ∈ errs) (hbad : .badDigit ∈ errs)
    (hcheck : .badCheckBit ∈ errs) (hlong : .tooLong ∈ errs) : (decFinalise d).Sound p errs d := by
  have hpad : ∀ e : Dec, e.status = .okay → (decPadBit e).Sound p errs e := fun e he =>
    decPadBit_sound he hshort hbad hcheck
  refine ((whileRun_sound hpad 8 h).bind fun e _ he => ?_).bind fun e _ he => trailingScan_sound he hlong
  split
  · exact whileRun_sound hpad _ he
  · exact .of_ok id he

theorem readIntBody_sound (w : Nat) (r : Range) (h : d.status = .okay) (hshort : .tooShort ∈ errs)
    (hbad : .badDigit ∈ errs) (hrange : .outOfRange ∈ errs) : (readIntBody w r d).Sound p errs d :=
  (decReadRaw_sound _ 0 h hshort hbad).bind fun e raw he => by
    split
    · exact raiseError_sound he hrange
    · exact .of_ok id he

end Sound

/-- The loop of `D.C2B` keeps the invariant of DEC (43_code_to_bits.md R210). -/
theorem codeBitsLoop_inv {p : Params} (n : Nat) {d : Dec} (bs : List Bool) (h : d.status = .okay) (hinv : d.Inv p) :
    (codeBitsLoop n d bs).1.Inv p := by
  induction n generalizing d bs with
  | zero => exact hinv
  | succ n ih =>
    have hsound := decDataBit_sound (p := p) (errs := [.tooShort, .badDigit]) h (by decide) (by decide)
    unfold codeBitsLoop
    split
    · next e b hr =>
      rw [hr] at hsound
      exact ih _ (hsound.okay e b rfl) (hsound.inv hinv)
    · next e hr =>
      rw [hr] at hsound
      exact hsound.inv hinv

/-- A freshly constructed decoder meets the invariant if its mask and its code fit (70_reset_and_hazards.md R252). -/
theorem decConstruct_inv {p : Params} {mask : List Bool} {code : List Chr} (dpg : BitVec 7) (padGroup padChecks : Bool)
    (hmask : mask.length ≤ p.maskMax) (hcode : code.length ≤ p.codeMax) :
    (decConstruct mask code dpg padGroup padChecks).Inv p := by
  refine ⟨Nat.zero_le _, Nat.zero_le _, Nat.lt_of_lt_of_le Nat.one_pos (Nat.le_max_left _ _), Nat.zero_le _,
    Nat.zero_le _, ?rem, hmask, hcode⟩
  case rem =>
    simp [decConstruct, groupRem]

/-! ## Gated commands -/

/-- What a gated command of DEC can answer while the block runs: it is gated; its procedure goes on to the end; or a
raise ends it (42_decoder.md R170, R171). -/
theorem decAnswer_cases (s : State) (dflt : Dec → Response) (body : Dec → Run Response) (h : s.fatal = false) :
    (s.dec.status ≠ .okay ∧ decAnswer s dflt body = .next (s.withRsp (dflt s.dec))) ∨
    (s.dec.status = .okay ∧ ∃ d r, body s.dec = .ok d r ∧ decAnswer s dflt body = .next ((s.withDec d).withRsp r)) ∨
    (s.dec.status = .okay ∧ ∃ d, body s.dec = .raised d ∧
      decAnswer s dflt body = .next ((s.withDec d).withRsp (dflt d))) := by
  by_cases hs : s.dec.status = .okay
  · cases hb : body s.dec with
    | ok d r => exact .inr (.inl ⟨hs, d, r, rfl, decAnswer_ok s dflt body h hs d r hb⟩)
    | raised d => exact .inr (.inr ⟨hs, d, rfl, decAnswer_raised s dflt body h hs d hb⟩)
  · exact .inl ⟨hs, decAnswer_gated s dflt body h hs⟩

end Sys2Proof.Machine

/-! A step as a host transaction or a command, and what every step keeps: the invariant between commands (10_state.md
R44), an error until a construction (60_exceptions.md R223), and `FATAL` until hardware reset (R229). -/

namespace Sys2Proof.Machine

/-! ## The invariant under updates of the state -/

theorem State.Inv.withEnc {s : State} {e : Enc} (h : s.Inv) (he : e.Inv s.par) : (s.withEnc e).Inv :=
  { h with enc := he }

theorem State.Inv.withDec {s : State} {d : Dec} (h : s.Inv) (hd : d.Inv s.par) : (s.withDec d).Inv :=
  { h with dec := hd }

theorem State.Inv.withFatal {s : State} (h : s.Inv) (b : Bool) : (s.withFatal b).Inv := { h with }

theorem State.Inv.withDbits {s : State} (h : s.Inv) (bs : List Bool) : (s.withDbits bs).Inv := { h with }

theorem State.Inv.withHost {s : State} (h : s.Inv) (ops : List HostOp) : (s.withHost ops).Inv := { h with }

theorem State.Inv.withRdata {s : State} (h : s.Inv) (v : Nat) : (s.withRdata v).Inv := { h with }

theorem State.Inv.withoutRsp {s : State} (h : s.Inv) : s.withoutRsp.Inv :=
  { h with rspInt_lt := by rintro r ⟨⟩ }

/-- A response with an integer in it gives one of `INT_W` bits (30_encoding.md R84). -/
def Response.IntFits (w : Nat) (r : Response) : Prop := ∀ v, r.int = some v → v < 2 ^ w

theorem State.Inv.withRsp {s : State} {r : Response} (h : s.Inv) (hr : r.IntFits s.par.intW) : (s.withRsp r).Inv :=
  { h with rspInt_lt := by rintro _ ⟨⟩; exact hr }

/-- Most commands answer no integer (30_encoding.md R84). -/
theorem Response.IntFits.of_none {w : Nat} {r : Response} (h : r.int = none) : r.IntFits w := by
  intro v hv
  rw [h] at hv
  cases hv

theorem intFits_rspDoneInt_patOf (w : Nat) (k : Int) : (rspDoneInt (patOf w k)).IntFits w := by
  rintro _ ⟨⟩
  exact patOf_lt w k

/-! ## The invariant under staging writes and construction -/

/-- A register keeps the bits of its width (10_state.md R40). -/
theorem regWrite_inv {s : State} (num data : Nat) (h : s.Inv) : (s.regWrite num data).Inv := by
  have hmod (w : Nat) : data % 2 ^ w < 2 ^ w := Nat.mod_lt _ (Nat.two_pow_pos w)
  unfold State.regWrite
  split
  case h_3 => exact { h with emaskLen_lt := hmod _ }
  case h_6 => exact { h with dmaskLen_lt := hmod _ }
  case h_7 => exact { h with codeLen_lt := hmod _ }
  all_goals exact { h with }

/-- A cell write keeps the canonical form and the addresses of the space (20_memory.md R60; log 8). -/
theorem stagingWrite_inv {s t : State} {w : StagingWrite} (h : s.Inv) (ht : s.stagingWrite w = .next t) : t.Inv := by
  obtain ⟨num, data, -, rfl⟩ | ⟨u, a, b, -, ha, rfl⟩ | ⟨a, c, -, ha, rfl⟩ := stagingWrite_next s t w ht
  · exact regWrite_inv num data h
  · cases u
    · exact { h with emask_wf := cellSet_wf _ _ _ h.emask_wf, emask_addr := cellSet_addr _ _ _ _ ha h.emask_addr }
    · exact { h with dmask_wf := cellSet_wf _ _ _ h.dmask_wf, dmask_addr := cellSet_addr _ _ _ _ ha h.dmask_addr }
  · exact { h with dcode_wf := cellSet_wf _ _ _ h.dcode_wf, dcode_addr := cellSet_addr _ _ _ _ ha h.dcode_addr }

/-- A mask of a staged length fits (00_scope.md R8). -/
theorem readMask_length_le {s : State} (u : Side) {n : Nat} (h : n < 2 ^ s.par.mlenW) :
    (s.readMask u n).length ≤ s.par.maskMax := by
  rw [readMask_length, Params.maskMax]
  omega

/-- The staged code fits (00_scope.md R8). -/
theorem readCode_length_le {s : State} {n : Nat} (h : n < 2 ^ s.par.clenW) :
    (s.readCode n).length ≤ s.par.codeMax := by
  rw [readCode_length, Params.codeMax]
  omega

theorem constructEnc_inv {s : State} (h : s.Inv) : s.constructEnc.Inv :=
  h.withEnc (encConstruct_inv _ _ _ (readMask_length_le .enc h.emaskLen_lt))

theorem constructDec_inv {s : State} (h : s.Inv) : s.constructDec.Inv :=
  h.withDec (decConstruct_inv _ _ _ (readMask_length_le .dec h.dmaskLen_lt) (readCode_length_le h.codeLen_lt))

theorem codeToBits_inv {s : State} (h : s.Inv) : s.codeToBits.Inv :=
  (h.withDec (codeBitsLoop_inv _ _ rfl
    (decConstruct_inv _ _ _ (Nat.zero_le _) (readCode_length_le h.codeLen_lt)))).withDbits _

/-- Hardware reset meets the invariant whatever was before it (70_reset_and_hazards.md R253). -/
theorem hardReset_inv (s : State) : s.hardReset.Inv where
  enc := encConstruct_inv _ _ _ (Nat.zero_le _)
  dec := decConstruct_inv _ _ _ (Nat.zero_le _) (Nat.zero_le _)
  emaskLen_lt := Nat.two_pow_pos _
  dmaskLen_lt := Nat.two_pow_pos _
  codeLen_lt := Nat.two_pow_pos _
  emask_wf := rfl
  dmask_wf := rfl
  dcode_wf := rfl
  emask_addr := by rintro c ⟨⟩
  dmask_addr := by rintro c ⟨⟩
  dcode_addr := by rintro c ⟨⟩
  rspInt_lt := by rintro r ⟨⟩

/-- Settles O48: hardware reset changes nothing in the reset state but the count of resets, which the invariant does not
see. -/
theorem resetMeetsInvariant : Obligations.ResetMeetsInvariant :=
  have hreset : State.reset.hardReset = { State.reset with epoch := 1 } := rfl
  have hinv : State.Inv { State.reset with epoch := 1 } := hreset ▸ hardReset_inv State.reset
  { hinv with }

/-! ## The invariant under commands -/

/-- What a reading command of DEC has done when it answers with decoder `d` and response `r`: the invariant is kept, an
integer answered fits, and from status OKAY the status is OKAY or one of the errors listed for the command. -/
structure ReadingEnds (i : Instr) (s : State) (d : Dec) (r : Response) : Prop where
  inv : s.dec.Inv s.par → d.Inv s.par
  int : r.IntFits s.par.intW
  status : s.dec.status = .okay → d.status = .okay ∨ d.status ∈ mayRaise i

/-- A gated command is as sound as its procedure and its responses (42_decoder.md R170, R171). -/
theorem decAnswer_ends {i : Instr} {s : State} {dflt : Dec → Response} {body : Dec → Run Response} (h : s.fatal = false)
    (hbody : s.dec.status = .okay → (body s.dec).Sound s.par (mayRaise i) s.dec)
    (hdflt : ∀ d, (dflt d).IntFits s.par.intW) (hrsp : ∀ d r, body s.dec = .ok d r → r.IntFits s.par.intW) :
    ∃ d r, decAnswer s dflt body = .next ((s.withDec d).withRsp r) ∧ ReadingEnds i s d r := by
  obtain ⟨hg, ha⟩ | ⟨hs, d, r, hb, ha⟩ | ⟨hs, d, hb, ha⟩ := decAnswer_cases s dflt body h
  · exact ⟨s.dec, _, ha, id, hdflt _, .inl⟩
  · have hsound := hbody hs
    rw [hb] at hsound
    exact ⟨d, r, ha, hsound.inv, hrsp d r hb, fun _ => .inl (hsound.okay d r rfl)⟩
  · have hsound := hbody hs
    rw [hb] at hsound
    exact ⟨d, _, ha, hsound.inv, hdflt d, fun _ => .inr (hsound.error d rfl)⟩

/-- A response that a procedure makes at its end from its result. -/
theorem bind_response {α : Type} {r : Run α} {f : Dec → α → Response} {d : Dec} {rsp : Response}
    (h : (r.bind fun d1 v => .ok d1 (f d1 v)) = .ok d rsp) : ∃ v, rsp = f d v := by
  obtain ⟨d1, v, -, hv⟩ := Run.bind_eq_ok.mp h
  cases hv
  exact ⟨v, rfl⟩

/-- A procedure that ends by making its response is as sound as what comes before. -/
theorem Run.Sound.with_response {α : Type} {p : Params} {errs : List Status} {d : Dec} {r : Run α}
    {f : Dec → α → Response} (h : r.Sound p errs d) : (r.bind fun d1 v => Run.ok d1 (f d1 v)).Sound p errs d :=
  h.bind fun _ _ he => .of_ok id he

/-- `D.RINT` answers a pattern in every case (42_decoder.md R176, R177). -/
theorem readIntBody_intFits {w : Nat} {r : Range} {d e : Dec} {rsp : Response} (h : readIntBody w r d = .ok e rsp) :
    rsp.IntFits w := by
  obtain ⟨d1, raw, -, hr⟩ := Run.bind_eq_ok.mp h
  split at hr
  · cases hr
  · cases hr
    exact intFits_rspDoneInt_patOf _ _

/-- The five reading commands, each with the errors of its procedure (42_decoder.md R170, 60_exceptions.md R221). -/
theorem exec_reading {i : Instr} {s : State} (hi : encCommand i = false) (hc : i ∉ [.dInit, .dC2b, .dAc2b])
    (h : s.fatal = false) :
    ∃ d r, exec i s = .next ((s.withDec d).withRsp r) ∧ ReadingEnds i s d r := by
  cases i with
  | dRbit =>
    rw [exec, execDRbit]
    refine decAnswer_ends h (fun hs => (decDataBit_sound hs (by decide) (by decide)).with_response)
      (fun _ => .of_none rfl) fun d r hr => ?_
    obtain ⟨b, rfl⟩ := bind_response (f := fun _ b => rspDoneBit b) hr
    exact .of_none rfl
  | dRint sg =>
    rw [exec, execDRint]
    exact decAnswer_ends h (fun hs => readIntBody_sound _ _ hs (List.mem_of_elem_eq_true rfl)
      (List.mem_of_elem_eq_true rfl) (List.mem_of_elem_eq_true rfl))
      (fun _ => intFits_rspDoneInt_patOf _ _) fun _ _ hr => readIntBody_intFits hr
  | dRchk =>
    rw [exec, execDRchk]
    refine decAnswer_ends h (fun hs => (decCheckBit_sound hs (by decide) (by decide) (by decide)).with_response)
      (fun _ => .of_none rfl) fun d r hr => ?_
    obtain ⟨-, rfl⟩ := bind_response (f := fun _ _ => rspDone) hr
    exact .of_none rfl
  | dRchkn =>
    rw [exec, execDRchkn]
    refine decAnswer_ends h (fun hs => (repeatRun_sound
      (fun e he => decCheckBit_sound he (by decide) (by decide) (by decide)) _ hs).with_response)
      (fun _ => .of_none rfl) fun d r hr => ?_
    obtain ⟨-, rfl⟩ := bind_response (f := fun _ _ => rspDone) hr
    exact .of_none rfl
  | dFinish =>
    rw [exec, execDFinish]
    refine decAnswer_ends h
      (fun hs => (decFinalise_sound hs (by decide) (by decide) (by decide) (by decide)).with_response)
      (fun _ => .of_none rfl) fun d r hr => ?_
    obtain ⟨-, rfl⟩ := bind_response (f := fun d _ => rspDoneStatus d.status) hr
    exact .of_none rfl
  | dInit | dC2b | dAc2b => simp at hc
  | eInit | eWbit | eWint | eWchk | eWchkn | eResult | eNchk => cases hi

/-- The three kinds of commands: those of ENC, the constructions of DEC, and its reading commands (42_decoder.md
R170). -/
theorem command_kinds (i : Instr) :
    encCommand i = true ∨ (i = .dInit ∨ i = .dC2b ∨ i = .dAc2b) ∨
      (encCommand i = false ∧ i ∉ [.dInit, .dC2b, .dAc2b]) := by
  cases i <;> simp [encCommand]

/-- A command of ENC keeps the invariant and answers no integer. -/
theorem exec_encCommand_inv {i : Instr} {s t : State} (hi : encCommand i = true) (h : s.fatal = false) (hinv : s.Inv)
    (ht : exec i s = .next t) : t.Inv := by
  have writes {e : Enc} {r : Response} (hex : exec i s = .next ((s.withEnc e).withRsp r)) (he : e.Inv s.par)
      (hr : r.int = none) : t.Inv := by
    rw [hex] at ht
    cases ht
    exact (hinv.withEnc he).withRsp (.of_none hr)
  cases i with
  | eInit => exact writes (exec_eInit s h) (constructEnc_inv hinv).enc rfl
  | eWbit b => exact writes (exec_eWbit b s h) (encDataBit_inv b hinv.enc) rfl
  | eWint sg => exact writes (exec_eWint sg s h) (encDataBits_inv _ hinv.enc) rfl
  | eWchk => exact writes (exec_eWchk s h) (encCheckBit_inv hinv.enc) rfl
  | eWchkn => exact writes (exec_eWchkn s h) (repeatDo_keeps (fun _ => encCheckBit_inv) _ _ hinv.enc) rfl
  | eResult => exact writes (exec_eResult s h) (encFinalise_inv hinv.enc) rfl
  | eNchk => exact writes (e := s.enc) (exec_eNchk s h) hinv.enc rfl
  | dInit | dRbit | dRint | dRchk | dRchkn | dFinish | dC2b | dAc2b => cases hi

/-- Every command keeps the invariant (10_state.md R44). -/
theorem exec_inv {i : Instr} {s t : State} (hinv : s.Inv) (ht : exec i s = .next t) : t.Inv := by
  cases hf : s.fatal with
  | true =>
    rw [exec_fatal i s hf] at ht
    cases ht
    exact hinv.withRsp (.of_none rfl)
  | false =>
    obtain hi | (rfl | rfl | rfl) | ⟨hi, hc⟩ := command_kinds i
    · exact exec_encCommand_inv hi hf hinv ht
    · rw [exec_dInit s hf] at ht
      cases ht
      exact (constructDec_inv hinv).withRsp (.of_none rfl)
    · rw [exec_dC2b s hf] at ht
      cases ht
      exact (codeToBits_inv hinv).withRsp (.of_none rfl)
    · rw [exec_dAc2b_withFatal s hf] at ht
      cases ht
      exact ((codeToBits_inv hinv).withRsp (.of_none rfl)).withFatal _
    · obtain ⟨d, r, hex, hends⟩ := exec_reading hi hc hf
      rw [hex] at ht
      cases ht
      exact (hinv.withDec (hends.inv hinv.dec)).withRsp hends.int

/-- Settles O33: `D.C2B` and `D.AC2B` end `TOO_SHORT` or `BAD_DIGIT` (`codeToBits_ends`), a reading command raises what
its procedure raises (`exec_reading`), and no other command makes an error. -/
theorem commandsRaiseOnlyTheirErrors : Obligations.CommandsRaiseOnlyTheirErrors := by
  intro i s t ht hok herr
  cases hf : s.fatal with
  | true =>
    rw [exec_fatal i s hf] at ht
    cases ht
    exact absurd hok herr
  | false =>
    have hends := (codeToBits_ends s).1
    obtain hi | (rfl | rfl | rfl) | ⟨hi, hc⟩ := command_kinds i
    · obtain ⟨e, r, hex, -⟩ := exec_encCommand i s hi hf
      rw [hex] at ht
      cases ht
      exact absurd hok herr
    · rw [exec_dInit s hf] at ht
      cases ht
      exact absurd rfl herr
    · rw [exec_dC2b s hf] at ht
      cases ht
      simpa [mayRaise, or_comm] using hends
    · rw [exec_dAc2b_withFatal s hf] at ht
      cases ht
      simpa [mayRaise, or_comm] using hends
    · obtain ⟨d, r, hex, hends⟩ := exec_reading hi hc hf
      rw [hex] at ht
      cases ht
      exact (hends.status hok).resolve_left herr

/-! ## Steps -/

/-- `t` is `s` after host transactions that are no command and no reset: staging, ports, response, read data and the
transactions to come may differ, and the invariant is kept. -/
structure State.SameUnits (s t : State) : Prop where
  par : t.par = s.par
  enc : t.enc = s.enc
  dec : t.dec = s.dec
  fatal : t.fatal = s.fatal
  dbits : t.dbits = s.dbits
  inv : s.Inv → t.Inv

theorem State.SameUnits.trans {s t u : State} (h : s.SameUnits t) (k : t.SameUnits u) : s.SameUnits u :=
  ⟨k.par.trans h.par, k.enc.trans h.enc, k.dec.trans h.dec, k.fatal.trans h.fatal, k.dbits.trans h.dbits,
    fun hs => k.inv (h.inv hs)⟩

theorem sampled_sameUnits (s : State) (c : Command) (rest : List HostOp) : s.SameUnits (s.sampled c rest) :=
  ⟨rfl, rfl, rfl, rfl, rfl, fun h => { h with }⟩

theorem withHost_sameUnits (s : State) (rest : List HostOp) : s.SameUnits (s.withHost rest) :=
  ⟨rfl, rfl, rfl, rfl, rfl, fun h => h.withHost rest⟩

theorem withRdata_sameUnits (s : State) (v : Nat) : s.SameUnits (s.withRdata v) :=
  ⟨rfl, rfl, rfl, rfl, rfl, fun h => h.withRdata v⟩

theorem withRsp_sameUnits (s : State) (k : RspKind) : s.SameUnits (s.withRsp (rspOnly k)) :=
  ⟨rfl, rfl, rfl, rfl, rfl, fun h => h.withRsp (.of_none rfl)⟩

theorem stagingWrite_sameUnits {s t : State} {w : StagingWrite} (h : s.stagingWrite w = .next t) : s.SameUnits t := by
  have hframe := stagingWrite_frame s t w h
  exact ⟨by rw [hframe], by rw [hframe], by rw [hframe], by rw [hframe], by rw [hframe],
    fun hs => stagingWrite_inv hs h⟩

/-- The state an accepted command runs in: the host presented the command, and neither unit has changed. -/
theorem fetch_accepted_sameUnits {s t : State} {w : CmdWord} (h : fetch s = .accepted w t) :
    ∃ c, c.word = w ∧ s.presents c ∧ s.SameUnits t := by
  obtain ⟨-, c, rest, hw, ⟨hh, rfl⟩ | ⟨wr, hh, -, ht⟩⟩ := fetch_accepted s t w h
  · exact ⟨c, hw, ⟨rest, .inl hh⟩, sampled_sameUnits s c rest⟩
  · exact ⟨c, hw, ⟨rest, .inr ⟨wr, hh⟩⟩, (sampled_sameUnits s c rest).trans (stagingWrite_sameUnits ht)⟩

/-- A transaction that accepts no command leaves both units, unless it is the reset. -/
theorem fetch_served_sameUnits {s t : State} (h : fetch s = .served (.next t)) :
    s.SameUnits t ∨ ∃ rest, s.host = .hardReset :: rest ∧ t = (s.withHost rest).hardReset := by
  have idle : s.SameUnits s := ⟨rfl, rfl, rfl, rfl, rfl, id⟩
  unfold fetch at h
  split at h
  case h_1 => cases h; exact .inl idle
  case h_2 =>
    split at h
    · cases h
    · cases h; exact .inl idle
  case h_3 =>
    split at h
    · unfold State.acceptOverlapped at h
      split at h
      · cases h
      · split at h <;> cases h
    · cases h; exact .inl idle
  case h_4 rest _ =>
    cases h
    exact .inl ⟨rfl, rfl, rfl, rfl, rfl, fun hs => (hs.withHost rest).withoutRsp⟩
  case h_5 w rest _ =>
    injection h with hw
    exact .inl ((withHost_sameUnits s rest).trans (stagingWrite_sameUnits hw))
  case h_6 num rest _ =>
    cases h
    exact .inl ((withHost_sameUnits s rest).trans (withRdata_sameUnits _ _))
  case h_7 u a rest _ =>
    injection h with hr
    split at hr
    · cases hr
      exact .inl ((withHost_sameUnits s rest).trans (withRdata_sameUnits _ _))
    · cases hr
  case h_8 a rest _ =>
    injection h with hr
    split at hr
    · cases hr
      exact .inl ((withHost_sameUnits s rest).trans (withRdata_sameUnits _ _))
    · cases hr
  case h_9 rest hh => cases h; exact .inr ⟨rest, hh, rfl⟩

/-- An illegal word, or any while `FATAL = 1`, gets a response and changes neither unit (30_encoding.md R86, R87). -/
theorem answerIllegal_sameUnits {s t : State} (h : answerIllegal s = .next t) : s.SameUnits t := by
  cases hf : s.fatal with
  | true =>
    rw [answerIllegal_fatal s hf] at h
    cases h
    exact withRsp_sameUnits s .halted
  | false =>
    rw [answerIllegal_running s hf] at h
    cases h
    exact withRsp_sameUnits s .illegal

/-- What a step that answers a next state can be: one that leaves both units alone, hardware reset, or a command the
host presented, run in a state with the same units (00_scope.md R19, 30_encoding.md R81). -/
theorem step_cases {s t : State} (h : step s = .next t) :
    s.SameUnits t ∨ (∃ rest, s.host = .hardReset :: rest ∧ t = (s.withHost rest).hardReset) ∨
      ∃ c i u, s.presents c ∧ c.word = encode i ∧ s.SameUnits u ∧ exec i u = .next t := by
  obtain ⟨r, hf, hr⟩ | ⟨w, u, i, hf, hw, hr⟩ | ⟨w, u, hf, -, hr⟩ := step_eq s
  · rw [hr] at h
    rw [h] at hf
    exact (fetch_served_sameUnits hf).imp_right .inl
  · obtain ⟨c, rfl, hc, hu⟩ := fetch_accepted_sameUnits hf
    exact .inr (.inr ⟨c, i, u, hc, (legalInstr_eq_some_iff _ _).mp hw, hu, hr.symm.trans h⟩)
  · obtain ⟨-, -, -, hu⟩ := fetch_accepted_sameUnits hf
    exact .inl (hu.trans (answerIllegal_sameUnits (hr.symm.trans h)))

/-- Settles O49: host transactions keep the invariant (`State.SameUnits`), reset meets it, and every command keeps it
(`exec_inv`). -/
theorem stepKeepsInvariant : Obligations.StepKeepsInvariant := by
  intro s t hinv ht
  obtain hsame | ⟨rest, -, rfl⟩ | ⟨-, i, u, -, -, hsame, hex⟩ := step_cases ht
  · exact hsame.inv hinv
  · exact hardReset_inv _
  · exact exec_inv (hsame.inv hinv) hex

/-- Settles O32: a command that changes a decoder in error is a construction (`exec_keeps_erred_dec`), and its word is
the construction's. -/
theorem errorEndsOnlyByConstruction : Obligations.ErrorEndsOnlyByConstruction := by
  intro s t ht herr hne
  obtain hsame | ⟨rest, hh, -⟩ | ⟨c, i, u, hc, hw, hsame, hex⟩ := step_cases ht
  · exact absurd hsame.dec hne
  · exact .inl ⟨rest, hh⟩
  · refine .inr ⟨c, hc, ?_⟩
    have hi : i ∈ [.dInit, .dC2b, .dAc2b] := by
      by_contra hi
      exact hne ((exec_keeps_erred_dec i u t hex (hsame.dec ▸ herr) hi).trans hsame.dec)
    obtain rfl | rfl | rfl : i = .dInit ∨ i = .dC2b ∨ i = .dAc2b := by simpa using hi
    · exact .inl hw
    · exact .inr (.inl hw)
    · exact .inr (.inr hw)

/-- A command that runs sets `FATAL` only as `D.AC2B` does, on a code with an unmappable character (43_code_to_bits.md
R213). -/
theorem exec_sets_fatal {i : Instr} {s t : State} (h : s.fatal = false) (ht : exec i s = .next t)
    (hfatal : t.fatal = true) :
    i = .dAc2b ∧ t.dec.status = .badDigit ∧ t.rsp = some (rspDoneStatus .badDigit) := by
  have kept {u : State} (hex : exec i s = .next u) (hu : u.fatal = false) : False := by
    rw [hex] at ht
    cases ht
    rw [hu] at hfatal
    cases hfatal
  obtain hi | (rfl | rfl | rfl) | ⟨hi, hc⟩ := command_kinds i
  · obtain ⟨e, r, hex, -⟩ := exec_encCommand i s hi h
    exact (kept hex h).elim
  · exact (kept (exec_dInit s h) h).elim
  · exact (kept (exec_dC2b s h) h).elim
  · rw [exec_dAc2b_withFatal s h] at ht
    cases ht
    obtain hshort | hbad := (codeToBits_ends s).1
    · rw [State.withFatal_fatal, hshort] at hfatal
      cases hfatal
    · exact ⟨rfl, hbad, by rw [State.withFatal_rsp, State.withRsp_rsp, hbad]; rfl⟩
  · obtain ⟨d, r, hex, -⟩ := exec_reading hi hc h
    exact (kept hex h).elim

/-- Settles O37: no host transaction sets `FATAL`, hardware reset clears it, and among the commands only `D.AC2B` sets
it (`exec_sets_fatal`). -/
theorem fatalSetOnlyByAc2b : Obligations.FatalSetOnlyByAc2b := by
  intro s t ht hclear hset
  obtain hsame | ⟨rest, -, rfl⟩ | ⟨c, i, u, hc, hw, hsame, hex⟩ := step_cases ht
  · rw [hsame.fatal, hclear] at hset
    cases hset
  · cases hset
  · obtain ⟨rfl, hstatus, hrsp⟩ := exec_sets_fatal (hsame.fatal.trans hclear) hex hset
    exact ⟨⟨c, hc, hw⟩, hstatus, hrsp⟩

/-- Settles O38: while `FATAL = 1` every command is answered `HALTED` (`exec_fatal`), and no other transaction but
hardware reset touches the units. -/
theorem fatalClearedOnlyByReset : Obligations.FatalClearedOnlyByReset := by
  intro s t ht hset hno
  obtain hsame | ⟨rest, hh, -⟩ | ⟨c, i, u, hc, hw, hsame, hex⟩ := step_cases ht
  · exact ⟨hsame.fatal.trans hset, hsame.enc, hsame.dec, hsame.dbits⟩
  · exact absurd hh (hno rest)
  · have hu : u.fatal = true := hsame.fatal.trans hset
    rw [exec_fatal i u hu] at hex
    cases hex
    exact ⟨hu, hsame.enc, hsame.dec, hsame.dbits⟩

end Sys2Proof.Machine

/-! What the encoder writes (40_primitives.md section 5, 41_encoder.md): the check bits in a row, the wire bits of a run
of raw bits, and the padding of `E.RESULT` as a fixed number of pad bits. -/

namespace Sys2Proof.Machine

/-! ## Check bits in a row -/

/-- The latch after `n` check bits with no data bit between them (40_primitives.md R120). -/
def takenChecks (crc : Word32) : Nat → LatchPair → LatchPair
  | 0, l => l
  | n + 1, l => takenChecks crc n (loadLatch crc l.snap l.rem).shifted

/-- The check bits due after `n` of them are those that follow (40_primitives.md R119). -/
theorem checkBitAt_takenChecks (crc : Word32) (n : Nat) (l : LatchPair) (k : Nat) :
    checkBitAt crc (takenChecks crc n l).snap (takenChecks crc n l).rem k = checkBitAt crc l.snap l.rem (k + n) := by
  induction n generalizing l with
  | zero => rfl
  | succ n ih => rw [takenChecks, ih, loadLatch_shifted, Nat.add_assoc]

/-- What `n` check bits in a row leave in the check, the latch and the counter (40_primitives.md R117). -/
theorem repeatDo_encCheckBit (n : Nat) (e : Enc) :
    (repeatDo encCheckBit n e).crc = e.crc ∧
      (repeatDo encCheckBit n e).latch = (takenChecks e.crc n ⟨e.latch, e.latchRem⟩).snap ∧
      (repeatDo encCheckBit n e).latchRem = (takenChecks e.crc n ⟨e.latch, e.latchRem⟩).rem ∧
      (repeatDo encCheckBit n e).checkCount = e.checkCount + BitVec.ofNat 32 n := by
  induction n generalizing e with
  | zero => exact ⟨rfl, rfl, rfl, (BitVec.add_zero _).symm⟩
  | succ n ih =>
    obtain ⟨hcrc, hlatch, hrem, hcount⟩ := ih (encCheckBit e)
    rw [encCheckBit_crc, encCheckBit_latch, encCheckBit_latchRem] at hlatch hrem
    refine ⟨hcrc.trans (encCheckBit_crc e), hlatch, hrem, hcount.trans ?_⟩
    rw [encCheckBit_checkCount, BitVec.add_assoc, ← BitVec.ofNat_add, Nat.add_comm]

/-- Settles O15: with no latch bit left, the check bit after `k` of them is number `k` of those due
(`checkBitAt_takenChecks`). -/
theorem checkBitsRunRoundTheCheck : Obligations.CheckBitsRunRoundTheCheck := by
  intro s k h hrem t
  have ht : t.enc = repeatDo encCheckBit k s.enc := issueTimes_eWchk_enc k s h
  obtain ⟨hcrc, hlatch, hleft, hcount⟩ := repeatDo_encCheckBit k s.enc
  rw [← loadLatch_snap, ht, hcrc, hcount]
  refine ⟨?_, rfl, rfl⟩
  calc (loadLatch s.enc.crc (repeatDo encCheckBit k s.enc).latch (repeatDo encCheckBit k s.enc).latchRem).bit
    _ = checkBitAt s.enc.crc s.enc.latch s.enc.latchRem (0 + k) := by
      rw [loadLatch_bit, hlatch, hleft, checkBitAt_takenChecks]
    _ = s.enc.crc.getLsbD (k % 32) := by simp [checkBitAt, hrem]

/-! ## Commands that write nothing -/

/-- Settles O12: the span of equal bounds is 0, so no bit is written. -/
theorem eWintEqualBoundsWriteNothing : Obligations.EWintEqualBoundsWriteNothing := by
  intro sg s h hb
  have hspan : (portRange s.par.intW sg s.ports).span = 0 := by
    simp [portRange, normRange, Range.span, hb]
  have hbits : wintBits s.par.intW sg s.ports = [] :=
    List.length_eq_zero_iff.mp (by rw [wintBits_length, hspan, widthOf_zero])
  rw [exec_eWint sg s h, hbits]
  rfl

/-- Settles O18: the counter is the only field of the response that `E.NCHK` produces. -/
theorem eNchkReturnsCounter : Obligations.ENchkReturnsCounter :=
  fun s h => ⟨_, _, exec_eNchk s h, rfl, rfl, rfl⟩

/-! ## The wire bits of a string -/

/-- The bits of a number with one more bit below it. -/
theorem bitsMsb_double (w a : Nat) (b : Bool) : bitsMsb (w + 1) (2 * a + b.toNat) = bitsMsb w a ++ [b] := by
  have hlow : ∀ k, (2 * a + b.toNat).testBit (k + 1) = a.testBit k := by
    intro k
    rw [Nat.testBit_succ]
    congr 1
    cases b with
    | false => simp
    | true => simp; omega
  induction w with
  | zero => cases b <;> simp [bitsMsb_succ]
  | succ w ih => rw [bitsMsb_succ, ih, hlow, bitsMsb_succ, List.cons_append]

/-- The low bits of a number are those of its remainder. -/
theorem bitsMsb_mod {w m : Nat} (a : Nat) (h : w ≤ m) : bitsMsb w (a % 2 ^ m) = bitsMsb w a := by
  induction w with
  | zero => rfl
  | succ w ih =>
    rw [bitsMsb_succ, bitsMsb_succ, ih (by omega), Nat.testBit_mod_two_pow, decide_eq_true (by omega), Bool.true_and]

/-- The bit buffer gains the scrambled bit at its end (40_primitives.md R114). -/
theorem bitsMsb_shiftIn {w : Nat} (acc : BitVec 5) (b : Bool) (h : w ≤ 4) :
    bitsMsb (w + 1) (shiftIn acc b).toNat = bitsMsb w acc.toNat ++ [b] := by
  have hlow : bitsMsb w (acc.toNat % 16) = bitsMsb w acc.toNat := bitsMsb_mod (m := 4) acc.toNat h
  rw [shiftIn_toNat, bitsMsb_double, hlow]

/-- Behind a string without unmappable characters the bits of the rest follow. -/
theorem stringBits_append {cs : List Chr} (ds : List Chr) (h : hasBadChar cs = false) :
    stringBits (cs ++ ds) = stringBits cs ++ stringBits ds := by
  induction cs with
  | nil => rfl
  | cons c cs ih =>
    rw [hasBadChar, List.any_cons, Bool.or_eq_false_iff] at h
    obtain ⟨hc, hcs⟩ := h
    have ih := ih hcs
    cases hs : isSeparator c with
    | true => rw [List.cons_append, stringBits_sep c _ hs, stringBits_sep c _ hs, ih]
    | false =>
      obtain ⟨v, hv⟩ := Option.isSome_iff_exists.mp (show (valOfChar c).isSome = true by simpa [hs] using hc)
      rw [List.cons_append, stringBits_sym c _ v hs hv, stringBits_sym c _ v hs hv, ih, List.append_assoc]

/-- Every symbol of the alphabet has a value (40_primitives.md R104, R106). -/
theorem valOfChar_of_mem_alphabet (c : Chr) (h : c ∈ alphabet) : (valOfChar c).isSome = true := by
  obtain ⟨n, hn, hc⟩ := List.mem_iff_getElem.mp h
  have hn32 : n < 32 := hn
  have hsym : symOfVal (BitVec.ofNat 5 n) = c := by
    rw [← hc, symOfVal, BitVec.toNat_ofNat, Nat.mod_eq_of_lt hn32]
    exact List.getD_eq_getElem _ _ hn
  rw [← hsym, (symOfVal_spec _).2.2]
  rfl

/-- The encoder writes no unmappable character. -/
theorem out_hasBadChar {p : Params} {e : Enc} (h : e.Inv p) : hasBadChar e.out = false := by
  rw [hasBadChar, List.any_eq_false]
  intro c hc
  cases hs : isSeparator c with
  | true => simp
  | false =>
    have hmem : c ∈ symbolsOf e.out := List.mem_filter.mpr ⟨hc, by rw [hs]; rfl⟩
    have hval := valOfChar_of_mem_alphabet c (h.out_alphabet c hmem)
    simp [Option.isNone_eq_false_iff.mpr hval]

/-- A symbol emitted adds its five bits to those of the string (20_memory.md R65). -/
theorem stringBits_emitted {p : Params} {e : Enc} (h : e.Inv p) (sep : Prop) [Decidable sep] (v : SymVal) :
    stringBits (e.out ++ (if sep then [sepOut] else []) ++ [symOfVal v]) = stringBits e.out ++ bitsMsb 5 v.toNat := by
  have hsym : stringBits [symOfVal v] = bitsMsb 5 v.toNat := by
    rw [stringBits_sym _ _ v (symOfVal_spec v).2.1 (symOfVal_spec v).2.2, stringBits_nil, List.append_nil, symBits]
  rw [List.append_assoc, stringBits_append _ (out_hasBadChar h)]
  split
  · rw [List.singleton_append, stringBits_sep _ _ (by decide), hsym]
  · rw [List.nil_append, hsym]

/-! ## Raw bits on the wire -/

/-- A raw bit adds itself, scrambled, to the wire bits (40_primitives.md R112, R114). -/
theorem encRawBit_wireBits {p : Params} {e : Enc} (x : Bool) (h : e.Inv p) :
    (encRawBit x e).wireBits = e.wireBits ++ [x ^^ maskBit e.mask e.cursor] := by
  rw [← scrambleBit_eq _ _ _ h.cursor_lt]
  by_cases hn : e.nbits = 4#3
  case pos =>
    rw [encRawBit_emits x e hn]
    have h4 : e.nbits.toNat = 4 := by rw [hn]; rfl
    rw [Enc.wireBits, stringBits_emitted h, bitsMsb_shiftIn _ _ (le_refl 4), Enc.wireBits, h4]
    simp
  case neg =>
    rw [encRawBit_pending x e hn]
    have hle := h.nbits_le
    have hsucc : (e.nbits + 1#3).toNat = e.nbits.toNat + 1 := by bv_omega
    rw [Enc.wireBits, hsucc, bitsMsb_shiftIn _ _ hle, Enc.wireBits, List.append_assoc]

/-- The wire bits of an encoder if it accepts the raw bits `cs` next. -/
def Enc.wireBitsWith (e : Enc) (cs : List Bool) : List Bool := e.wireBits ++ xorMask e.mask e.cursor cs

/-- `f` is `e` after the raw bits `bs`, as far as the wire tells: whatever bits come next, the wire bits are those of
`e` if it accepts `bs` and then them. -/
structure Enc.Emitted (bs : List Bool) (e f : Enc) : Prop where
  params : e.sameParams f
  wire : ∀ cs, f.wireBitsWith cs = e.wireBitsWith (bs ++ cs)

theorem Enc.Emitted.nil (e : Enc) : Enc.Emitted [] e e := ⟨e.sameParams_refl, fun _ => rfl⟩

theorem Enc.Emitted.trans {as bs : List Bool} {e f g : Enc} (h : Enc.Emitted as e f) (k : Enc.Emitted bs f g) :
    Enc.Emitted (as ++ bs) e g :=
  ⟨Enc.sameParams_trans h.params k.params, fun cs => by rw [k.wire, h.wire, List.append_assoc]⟩

/-- The wire does not see the checks. -/
theorem Enc.Emitted.of_checks {bs : List Bool} {e f : Enc} {crc latch : Word32} {rem : BitVec 6} {cnt : Word32}
    (h : Enc.Emitted bs { e with crc := crc, latch := latch, latchRem := rem, checkCount := cnt } f) :
    Enc.Emitted bs e f :=
  ⟨h.params, h.wire⟩

theorem Enc.Emitted.wireBits_eq {bs : List Bool} {e f : Enc} (h : Enc.Emitted bs e f) :
    f.wireBits = e.wireBits ++ xorMask e.mask e.cursor bs := by
  simpa [Enc.wireBitsWith] using h.wire []

theorem encRawBit_emitted {p : Params} {e : Enc} (x : Bool) (h : e.Inv p) : Enc.Emitted [x] e (encRawBit x e) where
  params := encRawBit_sameParams x e
  wire cs := by
    rw [Enc.wireBitsWith, encRawBit_wireBits x h, encRawBit_mask, encRawBit_cursor, xorMask_nextCursor _ _ h.cursor_lt,
      List.append_assoc]
    rfl

theorem encDataBit_emitted {p : Params} {e : Enc} (b : Bool) (h : e.Inv p) : Enc.Emitted [b] e (encDataBit b e) :=
  (encRawBit_emitted b (h.with_checks _ e.latch e.checkCount (by decide : (0#6).toNat ≤ 32))).of_checks

theorem encCheckBit_emitted {p : Params} {e : Enc} (h : e.Inv p) :
    Enc.Emitted [checkBitAt e.crc e.latch e.latchRem 0] e (encCheckBit e) := by
  rw [← loadLatch_bit]
  exact (encRawBit_emitted _ (h.with_checks e.crc _ _ (loadLatch_rem_le _ _ _ h.latchRem_le))).of_checks

theorem encPadBit_emitted {p : Params} {e : Enc} (h : e.Inv p) : Enc.Emitted [e.padBitAt 0] e (encPadBit e) := by
  rw [encPadBit, Enc.padBitAt]
  cases e.padChecks with
  | true => exact encCheckBit_emitted h
  | false => exact encRawBit_emitted false h

/-- The pad bits due after one of them are those that follow (41_encoder.md R151). -/
theorem encPadBit_padBitAt (e : Enc) (k : Nat) : (encPadBit e).padBitAt k = e.padBitAt (k + 1) := by
  obtain ⟨-, -, hchecks, -⟩ := encPadBit_sameParams e
  rw [Enc.padBitAt, hchecks, Enc.padBitAt]
  cases hp : e.padChecks with
  | false => rfl
  | true => simp [encPadBit, hp, loadLatch_shifted]

theorem encDataBits_emitted {p : Params} (bs : List Bool) {e : Enc} (h : e.Inv p) :
    Enc.Emitted bs e (encDataBits bs e) := by
  induction bs generalizing e with
  | nil => exact .nil e
  | cons b bs ih => exact (encDataBit_emitted b h).trans (ih (encDataBit_inv b h))

/-- A procedure of one raw bit, repeated, emits the bits due one after the other. -/
theorem repeatDo_emitted {p : Params} {body : Enc → Enc} {due : Enc → Nat → Bool}
    (hinv : ∀ e : Enc, e.Inv p → (body e).Inv p) (hbit : ∀ e : Enc, e.Inv p → Enc.Emitted [due e 0] e (body e))
    (hnext : ∀ e k, due (body e) k = due e (k + 1)) (n : Nat) {e : Enc} (h : e.Inv p) :
    Enc.Emitted ((List.range n).map (due e)) e (repeatDo body n e) := by
  induction n generalizing e with
  | zero => exact .nil e
  | succ n ih =>
    have hrest := ih (hinv e h)
    rw [funext (hnext e)] at hrest
    rw [List.range_succ_eq_map, List.map_cons, List.map_map]
    exact (hbit e h).trans hrest

/-! ## The padding of `E.RESULT` -/

/-- A loop whose every round makes a measure smaller by one, and that stops at 0, runs as many rounds as the measure
says. -/
theorem whileDo_eq_repeatDo {σ : Type} {cond : σ → Bool} {body : σ → σ} {P : σ → Prop} (m : σ → Nat)
    (hP : ∀ x, P x → cond x = true → P (body x)) (hm : ∀ x, P x → cond x = true → m (body x) + 1 = m x)
    (hstop : ∀ x, P x → cond x = false → m x = 0) (n : Nat) {x : σ} (hx : P x) (hn : m x ≤ n) :
    whileDo cond body n x = repeatDo body (m x) x ∧ P (whileDo cond body n x) ∧
      cond (whileDo cond body n x) = false := by
  induction n generalizing x with
  | zero =>
    have hc : cond x = false := by
      by_contra hc
      have := hm x hx (by simpa using hc)
      omega
    rw [hstop x hx hc]
    exact ⟨rfl, hx, hc⟩
  | succ n ih =>
    cases hc : cond x with
    | false =>
      rw [whileDo_of_false hc, hstop x hx hc]
      exact ⟨rfl, hx, hc⟩
    | true =>
      have hm1 := hm x hx hc
      rw [whileDo, if_pos hc, ← hm1]
      exact ih (hP x hx hc) (by omega)

/-- The bits in the buffer after a pad bit (40_primitives.md R114). -/
theorem encPadBit_nbits (e : Enc) :
    (encPadBit e).nbits = if e.nbits = 4#3 then 0#3 else e.nbits + 1#3 := by
  have raw (x : Bool) (f : Enc) : (encRawBit x f).nbits = if f.nbits = 4#3 then 0#3 else f.nbits + 1#3 := by
    split
    · next hn => rw [encRawBit_emits x f hn]
    · next hn => rw [encRawBit_pending x f hn]
  unfold encPadBit
  split <;> exact raw _ _

/-- The group countdown after a pad bit (40_primitives.md R116). -/
theorem encPadBit_remInGroup (e : Enc) :
    (encPadBit e).remInGroup = if e.nbits = 4#3 then countSymbol e.dpg e.remInGroup else e.remInGroup := by
  have raw (x : Bool) (f : Enc) :
      (encRawBit x f).remInGroup = if f.nbits = 4#3 then countSymbol f.dpg f.remInGroup else f.remInGroup := by
    split
    · next hn => rw [encRawBit_emits x f hn]
    · next hn => rw [encRawBit_pending x f hn]
  unfold encPadBit
  split <;> exact raw _ _

/-- The group countdown once the symbol begun, if any, is complete (41_encoder.md R153). -/
def Enc.remAtSymbol (e : Enc) : BitVec 7 := if e.nbits = 0#3 then e.remInGroup else countSymbol e.dpg e.remInGroup

theorem Enc.padCount_eq (e : Enc) :
    e.padCount = (5 - e.nbits.toNat) % 5 + if e.padGroup then 5 * e.remAtSymbol.toNat else 0 := rfl

/-- The bits that complete the group. -/
def Enc.groupFill (e : Enc) : Nat := if e.remInGroup = 0#7 then 0 else 5 * e.remInGroup.toNat - e.nbits.toNat

/-- The first loop of `E.RESULT` completes the symbol (41_encoder.md R150). -/
theorem encPadSymbol_eq {p : Params} {e : Enc} (h : e.Inv p) :
    encPadSymbol e = repeatDo encPadBit ((5 - e.nbits.toNat) % 5) e ∧ (encPadSymbol e).nbits = 0#3 ∧
      (encPadSymbol e).remInGroup = e.remAtSymbol ∧ (encPadSymbol e).Inv p := by
  have hstep : ∀ x : Enc, (x.Inv p ∧ x.remAtSymbol = e.remAtSymbol) → (x.nbits != 0#3) = true →
      ((encPadBit x).Inv p ∧ (encPadBit x).remAtSymbol = e.remAtSymbol) ∧
        (5 - (encPadBit x).nbits.toNat) % 5 + 1 = (5 - x.nbits.toNat) % 5 := by
    rintro x ⟨hx, hrem⟩ hc
    have hn0 : x.nbits ≠ 0#3 := by simpa using hc
    have hle := hx.nbits_le
    rw [Enc.remAtSymbol, if_neg hn0] at hrem
    obtain ⟨-, hdpg, -⟩ := encPadBit_sameParams x
    rw [Enc.remAtSymbol, encPadBit_nbits, encPadBit_remInGroup, hdpg]
    by_cases h4 : x.nbits = 4#3
    · simp only [h4, if_true]
      exact ⟨⟨encPadBit_inv hx, hrem⟩, rfl⟩
    · have hne : x.nbits + 1#3 ≠ 0#3 := by bv_omega
      simp only [h4, if_false, hne]
      exact ⟨⟨encPadBit_inv hx, hrem⟩, by bv_omega⟩
  obtain ⟨heq, ⟨hinv, hrem⟩, hend⟩ := whileDo_eq_repeatDo
    (P := fun x : Enc => x.Inv p ∧ x.remAtSymbol = e.remAtSymbol) (fun x : Enc => (5 - x.nbits.toNat) % 5)
    (fun x hx hc => (hstep x hx hc).1) (fun x hx hc => (hstep x hx hc).2)
    (fun x _ hc => by
      have h0 : x.nbits = 0#3 := by simpa using hc
      simp [h0]) 8 (x := e) ⟨h, rfl⟩ (by omega)
  have hend0 : (encPadSymbol e).nbits = 0#3 := by simpa [encPadSymbol] using hend
  refine ⟨heq, hend0, ?_, hinv⟩
  change (encPadSymbol e).remAtSymbol = _ at hrem
  rwa [Enc.remAtSymbol, if_pos hend0] at hrem

/-- The second loop of `E.RESULT` completes the group, from the start of a symbol (41_encoder.md R150). -/
theorem encPadGroup_eq {p : Params} {e : Enc} (h : e.Inv p) (hsym : e.nbits = 0#3) :
    encPadGroup e = repeatDo encPadBit (5 * e.remInGroup.toNat) e ∧ (encPadGroup e).nbits = 0#3 ∧
      (encPadGroup e).remInGroup = 0#7 := by
  have hstep : ∀ x : Enc, (x.Inv p ∧ (x.remInGroup = 0#7 → x.nbits = 0#3)) → (x.remInGroup != 0#7) = true →
      ((encPadBit x).Inv p ∧ ((encPadBit x).remInGroup = 0#7 → (encPadBit x).nbits = 0#3)) ∧
        (encPadBit x).groupFill + 1 = x.groupFill := by
    rintro x ⟨hx, -⟩ hc
    have hr0 : x.remInGroup ≠ 0#7 := by simpa using hc
    have hle := hx.nbits_le
    have hrem := hx.rem_le
    have hdpg : x.dpg ≠ 0#7 := by bv_omega
    rw [Enc.groupFill, Enc.groupFill, encPadBit_nbits, encPadBit_remInGroup, countSymbol, if_neg hdpg, if_neg hr0,
      if_neg hr0]
    by_cases h4 : x.nbits = 4#3
    · simp only [h4, if_true]
      refine ⟨⟨encPadBit_inv hx, fun _ => trivial⟩, ?_⟩
      split <;> bv_omega
    · simp only [h4, if_false, hr0]
      exact ⟨⟨encPadBit_inv hx, False.elim⟩, by bv_omega⟩
  have hfill : e.groupFill = 5 * e.remInGroup.toNat := by
    rw [Enc.groupFill, hsym]
    split
    · next h0 => rw [h0]; rfl
    · rfl
  have hrounds : e.groupFill ≤ 635 := by
    have := e.remInGroup.isLt
    omega
  obtain ⟨heq, ⟨-, hcomplete⟩, hend⟩ := whileDo_eq_repeatDo
    (P := fun x : Enc => x.Inv p ∧ (x.remInGroup = 0#7 → x.nbits = 0#3)) Enc.groupFill
    (fun x hx hc => (hstep x hx hc).1) (fun x hx hc => (hstep x hx hc).2)
    (fun x _ hc => if_pos (by simpa using hc)) 635 (x := e) ⟨h, fun _ => hsym⟩ hrounds
  have hend0 : (encPadGroup e).remInGroup = 0#7 := by simpa [encPadGroup] using hend
  exact ⟨by rw [← hfill]; exact heq, hcomplete hend0, hend0⟩

/-- `E.RESULT` writes exactly the pad bits due, and ends on the boundaries (41_encoder.md R150, R153). -/
theorem encFinalise_eq {p : Params} {e : Enc} (h : e.Inv p) :
    encFinalise e = repeatDo encPadBit e.padCount e ∧ (encFinalise e).nbits = 0#3 ∧
      (e.padGroup = true → (encFinalise e).remInGroup = 0#7) := by
  obtain ⟨hsym, hnbits, hrem, hinv⟩ := encPadSymbol_eq h
  obtain ⟨hgroup, hnbits', hrem'⟩ := encPadGroup_eq hinv hnbits
  have hparam : (encPadSymbol e).padGroup = e.padGroup := by
    rw [hsym]
    exact repeatDo_keeps (P := fun x : Enc => x.padGroup = e.padGroup)
      (fun x hx => (encPadBit_sameParams x).2.2.2.trans hx) _ e rfl
  rw [encFinalise, hparam, Enc.padCount_eq]
  cases e.padGroup with
  | false => exact ⟨hsym, hnbits, by rintro ⟨⟩⟩
  | true =>
    refine ⟨?_, hnbits', fun _ => hrem'⟩
    rw [if_pos rfl, hgroup, hrem, if_pos rfl, repeatDo_add, ← hsym]

theorem encFinalise_emitted {p : Params} {e : Enc} (h : e.Inv p) :
    Enc.Emitted ((List.range e.padCount).map e.padBitAt) e (encFinalise e) := by
  rw [(encFinalise_eq h).1]
  exact repeatDo_emitted (fun _ => encPadBit_inv) (fun _ => encPadBit_emitted) encPadBit_padBitAt _ h

/-- With padding by zeros no pad bit is counted and the latch stays; with padding by check bits each is counted
(41_encoder.md R151). -/
theorem repeatDo_encPadBit_checks (n : Nat) (e : Enc) :
    (repeatDo encPadBit n e).checkCount =
        (if e.padChecks then e.checkCount + BitVec.ofNat 32 n else e.checkCount) ∧
      (e.padChecks = false →
        (repeatDo encPadBit n e).latch = e.latch ∧ (repeatDo encPadBit n e).latchRem = e.latchRem) := by
  cases hp : e.padChecks with
  | true =>
    have hsame : repeatDo encPadBit n e = repeatDo encCheckBit n e := by
      induction n generalizing e with
      | zero => rfl
      | succ n ih =>
        have hbit : encPadBit e = encCheckBit e := if_pos hp
        rw [repeatDo, repeatDo, hbit, ih _ ((encCheckBit_sameParams e).2.2.1.trans hp)]
    rw [hsame]
    exact ⟨(repeatDo_encCheckBit n e).2.2.2, by rintro ⟨⟩⟩
  | false =>
    have hkept := repeatDo_keeps (body := encPadBit) (P := fun x : Enc => x.padChecks = false ∧
        x.checkCount = e.checkCount ∧ x.latch = e.latch ∧ x.latchRem = e.latchRem) (fun x hx => ?_) n e
      ⟨hp, rfl, rfl, rfl⟩
    · exact ⟨hkept.2.1, fun _ => hkept.2.2⟩
    · obtain ⟨hx, hcount, hlatch, hrem⟩ := hx
      simp [encPadBit, hx, hcount, hlatch, hrem]

/-- Settles O16: the effect is that of as many pad bits as are due (`encFinalise_eq`), whose wire bits are those of
`encFinalise_emitted`. -/
theorem eResultPadsToBoundary : Obligations.EResultPadsToBoundary := by
  refine ⟨rfl, fun s h hinv => ⟨_, exec_eResult s h, rfl, ?_⟩⟩
  obtain ⟨heq, hnbits, hrem⟩ := encFinalise_eq hinv
  have hemitted := encFinalise_emitted hinv
  have hinv' := encFinalise_inv hinv
  have hacc : (encFinalise s.enc).acc = 0#5 := by
    have hlt := hinv'.acc_lt
    rw [hnbits] at hlt
    exact BitVec.eq_of_toNat_eq (Nat.lt_one_iff.mp hlt)
  obtain ⟨hcount, hlatch⟩ := repeatDo_encPadBit_checks s.enc.padCount s.enc
  rw [← heq] at hcount hlatch
  exact ⟨hemitted.wireBits_eq, hnbits, hacc, hrem, encFinalise_crc _, hemitted.params, hinv', hcount, hlatch⟩

/-- Settles O17: the first `E.RESULT` ends on the boundaries (`encFinalise_eq`), where the second has nothing to do. -/
theorem secondEResultEmitsNothing : Obligations.SecondEResultEmitsNothing := by
  intro s t h hinv ht
  rw [exec_eResult s h] at ht
  cases ht
  obtain ⟨-, hnbits, hrem⟩ := encFinalise_eq hinv
  obtain ⟨-, -, -, hgroup⟩ := encFinalise_sameParams s.enc
  have hagain : encFinalise (encFinalise s.enc) = encFinalise s.enc :=
    encFinalise_of_complete _ hnbits fun hp => hrem (hgroup.symm.trans hp)
  have hrun : ((s.withEnc (encFinalise s.enc)).withRsp rspDone).running := h
  rw [exec_eResult _ hrun, State.withRsp_enc, State.withEnc_enc, hagain]
  rfl

end Sys2Proof.Machine

/-! What the decoder verifies (42_decoder.md): a run of check bits or of pad bits up to its end or the first that fails,
`D.FINISH` as a fixed number of pad bits and the trailing scan, and the bits of `D.C2B` (43_code_to_bits.md). -/

namespace Sys2Proof.Machine

/-! ## Bits verified in a row -/

/-- A procedure of DEC that verifies one bit against the one due: it passes exactly if they are equal, and then the bits
due are those that follow; a missing bit raises the error of the missing symbol (40_primitives.md R123). -/
structure VerifiesBit (body : Dec → Run Unit) (due : Dec → Nat → Bool) : Prop where
  bit : ∀ (d : Dec) (a : Bool) (bs : List Bool), d.status = .okay → d.cursor < max 1 d.mask.length →
    d.inputBits = a :: bs →
      ∃ e, e.inputBits = bs ∧ e.status = .okay ∧ e.crc = d.crc ∧ e.cursor = nextCursor d.mask d.cursor ∧
        d.sameParams e ∧ (∀ k, due e k = due d (k + 1)) ∧
        body d = if a = due d 0 then .ok e () else .raised { e with status := .badCheckBit }
  missing : ∀ d : Dec, d.status = .okay → d.inputBits = [] →
    ∃ e, body d = .raised e ∧ e.status = shortfall (d.code.drop d.pos) ∧ e.crc = d.crc ∧ d.sameParams e
  shortfall_eq : ∀ d e : Dec, d.status = .okay → body d = .ok e () →
    shortfall (e.code.drop e.pos) = shortfall (d.code.drop d.pos)

/-- A check bit that passes is a raw bit that is read, from the decoder with its latch shifted (40_primitives.md
R123). -/
theorem decCheckBit_eq_ok {d e : Dec} (h : decCheckBit d = .ok e ()) :
    ∃ a, decRawBit
      { d with
        latch := (loadLatch d.crc d.latch d.latchRem).shifted.snap
        latchRem := (loadLatch d.crc d.latch d.latchRem).shifted.rem } = .ok e a := by
  obtain ⟨d1, a, hraw, hr⟩ := Run.bind_eq_ok.mp h
  split at hr
  · cases hr
    exact ⟨a, hraw⟩
  · cases hr

/-- A zero pad bit that passes is a raw bit that is read (40_primitives.md R125). -/
theorem decZeroPadBit_eq_ok {d e : Dec} (h : decZeroPadBit d = .ok e ()) : ∃ a, decRawBit d = .ok e a := by
  obtain ⟨d1, a, hraw, hr⟩ := Run.bind_eq_ok.mp h
  split at hr
  · cases hr
  · cases hr
    exact ⟨_, hraw⟩

/-- Whatever a raw bit that is read does to the symbols, a pad bit that passes does (42_decoder.md R183). -/
theorem decPadBit_of_raw {P : Dec → Dec → Prop} {d e : Dec} (h : d.status = .okay) (hr : decPadBit d = .ok e ())
    (hraw : ∀ (d e : Dec) (a : Bool), d.status = .okay → decRawBit d = .ok e a → P d e)
    (hlatch : ∀ (d e : Dec) (l : Word32) (r : BitVec 6), P { d with latch := l, latchRem := r } e → P d e) : P d e := by
  unfold decPadBit at hr
  split at hr
  · obtain ⟨a, ha⟩ := decCheckBit_eq_ok hr
    exact hlatch d e _ _ (hraw _ e a (by exact h) ha)
  · obtain ⟨a, ha⟩ := decZeroPadBit_eq_ok hr
    exact hraw d e a h ha

theorem decCheckBit_verifiesBit :
    VerifiesBit decCheckBit fun d k => checkBitAt d.crc d.latch d.latchRem k where
  bit d a bs h hc hi := by
    obtain ⟨e, hbits, hstatus, hcrc, hlatch, hrem, hcursor, hparams, hr⟩ := decCheckBit_inputBits d a bs h hc hi
    exact ⟨e, hbits, hstatus, hcrc, hcursor, hparams, fun k => by rw [hcrc, hlatch, hrem, loadLatch_shifted], hr⟩
  missing d h hi := by
    obtain ⟨e, hr, -, hcrc, hparams⟩ := decCheckBit_exhausted d h hi
    exact ⟨e, hr, decCheckBit_exhausted_status d e h hi hr, hcrc, hparams⟩
  shortfall_eq d e h hr := by
    obtain ⟨a, ha⟩ := decCheckBit_eq_ok hr
    have hshort := decRawBit_shortfall _ e a (by exact h) ha
    exact hshort

theorem decPadBit_verifiesBit : VerifiesBit decPadBit Dec.padBitAt where
  bit := decPadBit_inputBits
  missing d h hi := by
    unfold decPadBit
    split
    · exact decCheckBit_verifiesBit.missing d h hi
    · obtain ⟨e, hr, -, hcrc, -, -, -, hparams⟩ := decRawBit_exhausted d h hi
      exact ⟨e, by rw [decZeroPadBit, hr, Run.bind_raised], decRawBit_exhausted_status d e h hr, hcrc, hparams⟩
  shortfall_eq d e h hr :=
    decPadBit_of_raw (P := fun d e => shortfall (e.code.drop e.pos) = shortfall (d.code.drop d.pos)) h hr
      (fun d e a => decRawBit_shortfall d e a) fun _ _ _ _ => id

section Verified

variable {body : Dec → Run Unit} {due : Dec → Nat → Bool}

/-- If the next `n` bits are those due, all pass, and the bits due after them follow (42_decoder.md R182). -/
theorem repeatRun_passes (hv : VerifiesBit body due) (n : Nat) (d : Dec) (h : d.status = .okay)
    (hc : d.cursor < max 1 d.mask.length) (hbits : ∀ k, k < n → d.inputBits[k]? = some (due d k)) :
    ∃ e, repeatRun body n d = .ok e () ∧ e.inputBits = d.inputBits.drop n ∧ e.status = .okay ∧ e.crc = d.crc ∧
      e.cursor < max 1 e.mask.length ∧ d.sameParams e ∧ (∀ k, due e k = due d (k + n)) ∧
      shortfall (e.code.drop e.pos) = shortfall (d.code.drop d.pos) := by
  induction n generalizing d with
  | zero => exact ⟨d, rfl, rfl, h, rfl, hc, d.sameParams_refl, fun _ => rfl, rfl⟩
  | succ n ih =>
    have hfirst := hbits 0 (Nat.succ_pos n)
    cases hi : d.inputBits with
    | nil => simp [hi] at hfirst
    | cons a bs =>
      obtain ⟨d1, hbits1, hstatus1, hcrc1, hcursor1, hparams1, hdue1, hr1⟩ := hv.bit d a bs h hc hi
      have ha : a = due d 0 := by simpa [hi] using hfirst
      rw [if_pos ha] at hr1
      obtain ⟨e, hr, hbits', hstatus, hcrc, hcursor, hparams, hdue, hshort⟩ :=
        ih d1 hstatus1 (cursor_lt_of_next hc hcursor1 hparams1) fun k hk => by
          have hk1 := hbits (k + 1) (Nat.succ_lt_succ hk)
          rw [hi, List.getElem?_cons_succ] at hk1
          rw [hbits1, hdue1, hk1]
      exact ⟨e, by rw [repeatRun, hr1, Run.bind_ok, hr], by rw [hbits', hbits1, List.drop_succ_cons], hstatus,
        hcrc.trans hcrc1, hcursor, Dec.sameParams_trans hparams1 hparams,
        fun k => by rw [hdue, hdue1, Nat.add_assoc], hshort.trans (hv.shortfall_eq d d1 h hr1)⟩

/-- The first bit that is not the one due ends the run: with the error of the missing symbol if there is no such bit,
and with `BAD_CHECK_BIT` if there is (42_decoder.md R182, 60_exceptions.md R221). -/
theorem repeatRun_stops (hv : VerifiesBit body due) {n j : Nat} (hj : j < n) (d : Dec) (h : d.status = .okay)
    (hc : d.cursor < max 1 d.mask.length) (hbits : ∀ k, k < j → d.inputBits[k]? = some (due d k))
    (hfail : d.inputBits[j]? ≠ some (due d j)) :
    ∃ e, repeatRun body n d = .raised e ∧
      e.status = (if d.inputBits[j]? = none then shortfall (d.code.drop d.pos) else .badCheckBit) ∧
      e.crc = d.crc ∧ d.sameParams e := by
  obtain ⟨m, rfl⟩ : ∃ m, n = j + (m + 1) := ⟨n - j - 1, by omega⟩
  obtain ⟨d1, hr1, hbits1, hstatus1, hcrc1, hcursor1, hparams1, hdue1, hshort1⟩ := repeatRun_passes hv j d h hc hbits
  have hnext : d.inputBits[j]? = d1.inputBits[0]? := by rw [hbits1, List.getElem?_drop, Nat.add_zero]
  have hdue0 : due d1 0 = due d j := by rw [hdue1, Nat.zero_add]
  rw [repeatRun_add, hr1, Run.bind_ok, repeatRun, hnext, ← hshort1]
  rw [hnext, ← hdue0] at hfail
  cases hi : d1.inputBits with
  | nil =>
    obtain ⟨e, hr, hstatus, hcrc, hparams⟩ := hv.missing d1 hstatus1 hi
    exact ⟨e, by rw [hr, Run.bind_raised], hstatus, hcrc.trans hcrc1, Dec.sameParams_trans hparams1 hparams⟩
  | cons a bs =>
    obtain ⟨e, -, -, hcrc, -, hparams, -, hr⟩ := hv.bit d1 a bs hstatus1 hcursor1 hi
    have ha : a ≠ due d1 0 := by
      rw [hi] at hfail
      simpa using hfail
    rw [if_neg ha] at hr
    exact ⟨{ e with status := .badCheckBit }, by rw [hr, Run.bind_raised], (if_neg (by simp)).symm, hcrc.trans hcrc1,
      Dec.sameParams_trans hparams1 hparams⟩

end Verified

/-! ## `D.RCHKN` -/

theorem exec_dRchkn_ok (s : State) (e : Dec) (h : s.safe)
    (hr : repeatRun decCheckBit s.ports.opN.toNat s.dec = .ok e ()) :
    exec .dRchkn s = .next ((s.withDec e).withRsp rspDone) := by
  rw [exec, execDRchkn]
  exact decAnswer_ok s _ _ h.1 h.2 e _ (by rw [hr, Run.bind_ok])

theorem exec_dRchkn_raised (s : State) (e : Dec) (h : s.safe)
    (hr : repeatRun decCheckBit s.ports.opN.toNat s.dec = .raised e) :
    exec .dRchkn s = .next ((s.withDec e).withRsp rspDone) := by
  rw [exec, execDRchkn]
  exact decAnswer_raised s _ _ h.1 h.2 e (by rw [hr, Run.bind_raised])

/-- Settles O26: the bits verified are those of `repeatRun_passes`. -/
theorem dRchknVerifiesBits : Obligations.DRchknVerifiesBits := by
  intro s h hc hbits
  obtain ⟨e, hr, hinput, hstatus, hcrc, -, hparams, hdue, -⟩ :=
    repeatRun_passes decCheckBit_verifiesBit _ s.dec h.2 hc hbits
  exact ⟨_, exec_dRchkn_ok s e h hr, rfl, hstatus, hinput, hcrc, hparams, hdue⟩

/-- Settles O27: the run ends as `repeatRun_stops` says. -/
theorem dRchknStopsAtFirstFailure : Obligations.DRchknStopsAtFirstFailure := by
  intro s j h hc hj hbits hfail
  obtain ⟨e, hr, hstatus, hcrc, hparams⟩ := repeatRun_stops decCheckBit_verifiesBit hj s.dec h.2 hc hbits hfail
  exact ⟨_, exec_dRchkn_raised s e h hr, rfl, hstatus, hcrc, hparams⟩

/-! ## `D.RINT` with equal bounds -/

/-- Settles O24: the span of equal bounds is 0, so no bit is read, and the value read is the bound; the default result
is the bound too. -/
theorem dRintEqualBoundsReadNothing : Obligations.DRintEqualBoundsReadNothing := by
  intro sg s h hb
  have hhi : (portRange s.par.intW sg s.ports).hi = intOf s.par.intW sg s.ports.opMin := by
    simp [portRange, normRange, hb]
  by_cases hs : s.dec.status = .okay
  case neg =>
    rw [exec_dRint_gated sg s h hs, hhi]
  case pos =>
    have hlo : (portRange s.par.intW sg s.ports).lo = intOf s.par.intW sg s.ports.opMin := by
      simp [portRange, normRange, hb]
    have hspan : (portRange s.par.intW sg s.ports).span = 0 := by rw [Range.span, hhi, hlo, Int.sub_self]; rfl
    have hbody : readIntBody s.par.intW (portRange s.par.intW sg s.ports) s.dec =
        .ok s.dec (rspDoneInt (patOf s.par.intW (intOf s.par.intW sg s.ports.opMin))) := by
      rw [readIntBody, hspan, widthOf_zero, decReadRaw, Run.bind_ok, if_neg (Nat.lt_irrefl 0), hlo, Nat.cast_zero,
        Int.zero_add]
    exact exec_dRint_ok sg s s.dec _ ⟨h, hs⟩ hbody

/-! ## `D.FINISH` as pad bits and a scan -/

/-- A loop whose rounds that pass make a measure smaller by one and consume input, and that stops exactly at measure 0,
is the repetition of its body: either the rounds are enough, or the input ends before them. -/
theorem whileRun_eq_repeatRun {cond : Dec → Bool} {body : Dec → Run Unit} {P : Dec → Prop} (m : Dec → Nat)
    (hcond : ∀ d, cond d = true ↔ m d ≠ 0)
    (hbody : ∀ d e, P d → m d ≠ 0 → body d = .ok e () →
      P e ∧ m e + 1 = m d ∧ e.inputBits.length + 1 = d.inputBits.length)
    (n : Nat) (d : Dec) (hd : P d) (hn : m d ≤ n ∨ d.inputBits.length < n) :
    whileRun cond body n d = repeatRun body (m d) d := by
  induction n generalizing d with
  | zero =>
    have h0 : m d = 0 := by omega
    rw [h0]
    rfl
  | succ n ih =>
    cases hm : m d with
    | zero =>
      have hc : cond d = false := by
        rw [← Bool.not_eq_true, hcond]
        omega
      rw [whileRun_of_false hc]
      rfl
    | succ k =>
      have hpos : m d ≠ 0 := by omega
      rw [whileRun, if_pos ((hcond d).mpr hpos), repeatRun]
      cases hb : body d with
      | raised e => rfl
      | ok e v =>
        obtain ⟨he, hme, hlen⟩ := hbody d e hd hpos hb
        rw [Run.bind_ok, Run.bind_ok, ih e he (by omega)]
        congr 1
        omega

/-- No group is open without grouping (10_state.md R44). -/
def Dec.NoStrayGroup (d : Dec) : Prop := d.dpg = 0#7 → d.remInGroup = 0#7

/-- The bits that complete the symbol held and then the group. -/
def Dec.groupFill (d : Dec) : Nat := d.bitsLeft.toNat + 5 * d.remInGroup.toNat

theorem Dec.padCount_eq (d : Dec) : d.padCount = if d.padGroup then d.groupFill else d.bitsLeft.toNat := by
  unfold Dec.padCount Dec.groupFill
  split <;> rfl

/-- A bit consumed while the symbol or the group is incomplete is one of those that complete them. -/
theorem BitConsumed.groupFill {d e : Dec} (h : BitConsumed d e) (hg : d.NoStrayGroup) (hne : d.groupFill ≠ 0) :
    e.NoStrayGroup ∧ e.groupFill + 1 = d.groupFill := by
  obtain ⟨-, -, hdpg, -⟩ := h.params
  unfold Dec.groupFill at hne ⊢
  by_cases hb : d.bitsLeft = 0#3
  · obtain ⟨hleft, -, hrem⟩ := h.fetched hb
    rw [hb] at hne
    have hr : d.remInGroup ≠ 0#7 := by
      intro h0
      rw [h0] at hne
      exact hne rfl
    have hd : d.dpg ≠ 0#7 := fun h0 => hr (hg h0)
    rw [countSymbol, if_neg hd, if_neg hr] at hrem
    refine ⟨fun h0 => absurd (hdpg.symm.trans h0) hd, ?_⟩
    rw [hleft, hrem, hb]
    bv_omega
  · obtain ⟨hleft, -, -, hrem⟩ := h.held hb
    have hsub := bitsLeft_sub_one_toNat hb
    refine ⟨fun h0 => hrem.trans (hg (hdpg.symm.trans h0)), ?_⟩
    rw [hleft, hrem]
    omega

theorem decPadSymbol_eq (d : Dec) (h : d.status = .okay) :
    decPadSymbol d = repeatRun decPadBit d.bitsLeft.toNat d := by
  refine whileRun_eq_repeatRun (P := fun x => x.status = .okay) (fun x => x.bitsLeft.toNat) (fun x => ?_)
    (fun x y hx hne hr => ?_) 8 d h (.inl (Nat.le_of_lt d.bitsLeft.isLt))
  · simp [← BitVec.toNat_inj]
  · have hy := decPadBit_bitConsumed x y hx hr
    have hb : x.bitsLeft ≠ 0#3 := fun h0 => hne (by rw [h0]; rfl)
    obtain ⟨hleft, -⟩ := hy.held hb
    exact ⟨hy.status, by rw [hleft]; exact bitsLeft_sub_one_toNat hb, hy.length⟩

theorem decPadGroup_eq (d : Dec) (h : d.status = .okay) (hg : d.NoStrayGroup) :
    decPadGroup d = repeatRun decPadBit d.groupFill d := by
  have hrounds : d.inputBits.length < 5 * d.code.length + 9 := by
    have hsym := d.bitsLeft.isLt
    have hstr := stringBits_length_le (d.code.drop d.pos)
    rw [List.length_drop] at hstr
    rw [inputBits_length]
    omega
  refine whileRun_eq_repeatRun (P := fun x => x.status = .okay ∧ x.NoStrayGroup) Dec.groupFill (fun x => ?_)
    (fun x y hx hne hr => ?_) _ d ⟨h, hg⟩ (.inr hrounds)
  · have hrem : x.remInGroup = 0#7 ↔ x.remInGroup.toNat = 0 := by simp [← BitVec.toNat_inj]
    have hleft : x.bitsLeft = 0#3 ↔ x.bitsLeft.toNat = 0 := by simp [← BitVec.toNat_inj]
    rw [Bool.or_eq_true, bne_iff_ne, bne_iff_ne, Ne, Ne, hrem, hleft, Dec.groupFill]
    omega
  · have hy := decPadBit_bitConsumed x y hx.1 hr
    obtain ⟨hgy, hfill⟩ := hy.groupFill hx.2 hne
    exact ⟨⟨hy.status, hgy⟩, hfill, hy.length⟩

/-- The bits of a symbol held, taken one by one, leave the group as it was. -/
theorem repeatRun_decPadBit_held (n : Nat) (d e : Dec) (h : d.status = .okay) (hn : d.bitsLeft.toNat = n)
    (hr : repeatRun decPadBit n d = .ok e ()) :
    e.status = .okay ∧ d.sameParams e ∧ e.bitsLeft = 0#3 ∧ e.remInGroup = d.remInGroup := by
  induction n generalizing d with
  | zero =>
    cases hr
    exact ⟨h, Dec.sameParams_refl _, BitVec.eq_of_toNat_eq hn, rfl⟩
  | succ n ih =>
    obtain ⟨d1, _, hb, hr1⟩ := Run.bind_eq_ok.mp hr
    have hd1 := decPadBit_bitConsumed d d1 h hb
    have hne : d.bitsLeft ≠ 0#3 := by
      rintro h0
      rw [h0] at hn
      cases hn
    obtain ⟨hleft, -, -, hrem⟩ := hd1.held hne
    have hsub := bitsLeft_sub_one_toNat hne
    obtain ⟨hstatus, hparams, hend, hrem'⟩ := ih d1 hd1.status (by rw [hleft]; omega) hr1
    exact ⟨hstatus, Dec.sameParams_trans hd1.params hparams, hend, hrem'.trans hrem⟩

/-- `D.FINISH` takes exactly the pad bits due and then scans what is left (42_decoder.md R184). -/
theorem decFinalise_eq (d : Dec) (h : d.status = .okay) (hg : d.NoStrayGroup) :
    decFinalise d = (repeatRun decPadBit d.padCount d).bind fun e _ => trailingScan e := by
  have hpad : ((decPadSymbol d).bind fun d1 _ => if d1.padGroup then decPadGroup d1 else .ok d1 ()) =
      repeatRun decPadBit d.padCount d := by
    rw [decPadSymbol_eq d h, Dec.padCount, repeatRun_add]
    cases hr : repeatRun decPadBit d.bitsLeft.toNat d with
    | raised e => rfl
    | ok e v =>
      obtain ⟨he, ⟨-, -, hdpg, -, hgroup⟩, hleft, hrem⟩ := repeatRun_decPadBit_held _ d e h rfl hr
      have hge : e.NoStrayGroup := fun h0 => hrem.trans (hg (hdpg.symm.trans h0))
      have hfill : e.groupFill = 5 * d.remInGroup.toNat := by
        rw [Dec.groupFill, hleft, hrem]
        exact Nat.zero_add _
      rw [Run.bind_ok, Run.bind_ok, hgroup]
      cases d.padGroup with
      | false => rfl
      | true => exact (decPadGroup_eq e he hge).trans (congrArg (repeatRun decPadBit · e) hfill)
  rw [decFinalise, hpad]

/-! ## What is left behind the padding -/

/-- The symbols not yet fetched, unmappable ones among them. -/
def Dec.symbolsAhead (d : Dec) : Nat := (symbolsOf (d.code.drop d.pos)).length

/-- Skipping separators skips no symbol. -/
theorem symbolsOf_skipSeparators (code : List Chr) (pos : Nat) :
    symbolsOf (code.drop (skipSeparators code pos)) = symbolsOf (code.drop pos) := by
  rw [drop_skipSeparators]
  generalize code.drop pos = cs
  induction cs with
  | nil => rfl
  | cons c cs ih =>
    by_cases h : isSeparator c = true
    · rw [List.dropWhile_cons_of_pos h, ih]
      simp [symbolsOf, h]
    · rw [List.dropWhile_cons_of_neg h]

/-- The character a fetch takes is one of the symbols ahead. -/
theorem symbolsOf_drop_succ {code : List Chr} {pos : Nat} {c : Chr} (h : code[skipSeparators code pos]? = some c) :
    symbolsOf (code.drop pos) = c :: symbolsOf (code.drop (skipSeparators code pos + 1)) := by
  have hs := skipSeparators_not_sep _ _ _ h
  obtain ⟨hlt, hget⟩ := List.getElem?_eq_some_iff.mp h
  rw [← symbolsOf_skipSeparators, List.drop_eq_getElem_cons hlt, hget]
  simp [symbolsOf, hs]

/-- A raw bit that is read leaves a position in the string, and takes one bit of the five for each symbol ahead
(40_primitives.md R118, R122). -/
theorem decRawBit_symbolsAhead (d e : Dec) (a : Bool) (h : d.status = .okay) (hr : decRawBit d = .ok e a) :
    (d.pos ≤ d.code.length → e.pos ≤ e.code.length) ∧
      5 * e.symbolsAhead + e.bitsLeft.toNat + 1 = 5 * d.symbolsAhead + d.bitsLeft.toNat := by
  obtain ⟨hb, he⟩ | ⟨-, -, he⟩ | ⟨-, c, -, -, he⟩ | ⟨hb, c, v, hc, hv, he⟩ := decRawBit_cases d h <;>
    rw [he] at hr <;> cases hr
  case inl =>
    have hsub := bitsLeft_sub_one_toNat hb
    refine ⟨id, ?_⟩
    change 5 * d.symbolsAhead + (d.bitsLeft - 1#3).toNat + 1 = 5 * d.symbolsAhead + d.bitsLeft.toNat
    omega
  case inr.inr.inr =>
    obtain ⟨hlt, -⟩ := List.getElem?_eq_some_iff.mp hc
    have hleft : (5#3 - 1#3).toNat = 4 := by decide
    refine ⟨fun _ => hlt, ?_⟩
    change 5 * (symbolsOf (d.code.drop (skipSeparators d.code d.pos + 1))).length + (5#3 - 1#3).toNat + 1 = _
    rw [Dec.symbolsAhead, symbolsOf_drop_succ hc, List.length_cons, hb, hleft, BitVec.toNat_ofNat]
    omega

theorem decPadBit_symbolsAhead (d e : Dec) (h : d.status = .okay) (hr : decPadBit d = .ok e ()) :
    (d.pos ≤ d.code.length → e.pos ≤ e.code.length) ∧
      5 * e.symbolsAhead + e.bitsLeft.toNat + 1 = 5 * d.symbolsAhead + d.bitsLeft.toNat :=
  decPadBit_of_raw (P := fun d e => (d.pos ≤ d.code.length → e.pos ≤ e.code.length) ∧
    5 * e.symbolsAhead + e.bitsLeft.toNat + 1 = 5 * d.symbolsAhead + d.bitsLeft.toNat) h hr decRawBit_symbolsAhead
    fun _ _ _ _ => id

/-- A pad bit that passes while some are due leaves one less due (42_decoder.md R184). -/
theorem decPadBit_padCount (d e : Dec) (h : d.status = .okay) (hg : d.NoStrayGroup) (hne : d.padCount ≠ 0)
    (hr : decPadBit d = .ok e ()) : e.NoStrayGroup ∧ e.padCount + 1 = d.padCount := by
  have hbit := decPadBit_bitConsumed d e h hr
  obtain ⟨-, -, hdpg, -, hgroup⟩ := hbit.params
  rw [Dec.padCount_eq] at hne
  rw [Dec.padCount_eq, Dec.padCount_eq, hgroup]
  cases hp : d.padGroup with
  | true =>
    rw [hp] at hne
    exact hbit.groupFill hg hne
  | false =>
    rw [hp] at hne
    have hb : d.bitsLeft ≠ 0#3 := fun h0 => hne (by rw [h0]; rfl)
    obtain ⟨hleft, -, -, hrem⟩ := hbit.held hb
    exact ⟨fun h0 => hrem.trans (hg (hdpg.symm.trans h0)),
      (congrArg (·.toNat + 1) hleft).trans (bitsLeft_sub_one_toNat hb)⟩

/-- After the pad bits due, all passed: the symbol and, if padding to a group, the group are complete, and the symbols
ahead are fewer by those of the group. -/
theorem repeatRun_decPadBit_done (n : Nat) (d e : Dec) (h : d.status = .okay) (hg : d.NoStrayGroup)
    (hn : d.padCount = n) (hr : repeatRun decPadBit n d = .ok e ()) :
    e.padCount = 0 ∧ (d.pos ≤ d.code.length → e.pos ≤ e.code.length) ∧
      5 * e.symbolsAhead + e.bitsLeft.toNat + n = 5 * d.symbolsAhead + d.bitsLeft.toNat := by
  induction n generalizing d with
  | zero =>
    cases hr
    exact ⟨hn, id, rfl⟩
  | succ n ih =>
    obtain ⟨d1, _, hb, hr1⟩ := Run.bind_eq_ok.mp hr
    have hstatus := (decPadBit_bitConsumed d d1 h hb).status
    obtain ⟨hg1, hcount⟩ := decPadBit_padCount d d1 h hg (by omega) hb
    obtain ⟨hpos1, hahead1⟩ := decPadBit_symbolsAhead d d1 h hb
    obtain ⟨hdone, hpos, hahead⟩ := ih d1 hstatus hg1 (by omega) hr1
    exact ⟨hdone, fun hp => hpos (hpos1 hp), by omega⟩

/-- The symbols of the group padding (42_decoder.md R184). -/
def Dec.padSymbols (d : Dec) : Nat := if d.padGroup then d.remInGroup.toNat else 0

theorem Dec.padCount_eq_padSymbols (d : Dec) : d.padCount = d.bitsLeft.toNat + 5 * d.padSymbols := by
  unfold Dec.padCount Dec.padSymbols
  split <;> rfl

/-- With the pad bits due next in the input, `D.FINISH` is the scan behind them. -/
theorem decFinalise_padded (d : Dec) (h : d.status = .okay) (hc : d.cursor < max 1 d.mask.length) (hg : d.NoStrayGroup)
    (hbits : ∀ k, k < d.padCount → d.inputBits[k]? = some (d.padBitAt k)) :
    ∃ e, decFinalise d = trailingScan e ∧ e.status = .okay ∧ e.crc = d.crc ∧ d.sameParams e ∧ e.bitsLeft = 0#3 ∧
      (d.padGroup = true → e.remInGroup = 0#7) ∧ e.symbolsAhead + d.padSymbols = d.symbolsAhead ∧
      (d.pos ≤ d.code.length → e.pos ≤ e.code.length) := by
  obtain ⟨e, hr, -, hstatus, hcrc, -, hparams, -⟩ := repeatRun_passes decPadBit_verifiesBit _ d h hc hbits
  obtain ⟨hdone, hpos, hahead⟩ := repeatRun_decPadBit_done _ d e h hg rfl hr
  rw [Dec.padCount_eq_padSymbols] at hdone hahead
  refine ⟨e, by rw [decFinalise_eq d h hg, hr, Run.bind_ok], hstatus, hcrc, hparams, BitVec.eq_of_toNat_eq ?_, ?_, ?_,
    hpos⟩
  · exact (Nat.eq_zero_of_add_eq_zero hdone).1
  · intro hp
    obtain ⟨-, -, -, -, hgroup⟩ := hparams
    rw [Dec.padSymbols, hgroup, hp, if_pos rfl] at hdone
    exact BitVec.eq_of_toNat_eq (by simpa using (Nat.eq_zero_of_add_eq_zero hdone).2)
  · omega

/-- A pad bit that is not the one due, or that is missing, ends `D.FINISH`. -/
theorem decFinalise_stops (d : Dec) (h : d.status = .okay) (hc : d.cursor < max 1 d.mask.length) (hg : d.NoStrayGroup)
    {j : Nat} (hj : j < d.padCount) (hbits : ∀ k, k < j → d.inputBits[k]? = some (d.padBitAt k))
    (hfail : d.inputBits[j]? ≠ some (d.padBitAt j)) :
    ∃ e, decFinalise d = .raised e ∧
      e.status = (if d.inputBits[j]? = none then shortfall (d.code.drop d.pos) else .badCheckBit) ∧
      e.crc = d.crc ∧ d.sameParams e := by
  obtain ⟨e, hr, he⟩ := repeatRun_stops decPadBit_verifiesBit hj d h hc hbits hfail
  exact ⟨e, by rw [decFinalise_eq d h hg, hr, Run.bind_raised], he⟩

/-- Settles O28: no symbol is left behind the padding (`decFinalise_padded`), so the scan passes. -/
theorem dFinishAcceptsPadding : Obligations.DFinishAcceptsPadding := by
  intro s h hc hpos hg hbits hahead
  obtain ⟨e, hr, hstatus, hcrc, hparams, hleft, hrem, hsyms, hepos⟩ := decFinalise_padded s.dec h.2 hc hg hbits
  have hnone : symbolsOf (e.code.drop e.pos) = [] := by
    have hd : s.dec.symbolsAhead = s.dec.padSymbols := hahead
    have he : e.symbolsAhead = 0 := by omega
    exact List.length_eq_zero_iff.mp he
  obtain ⟨-, hscan⟩ | ⟨hsome, -⟩ := trailingScan_cases e hstatus (hepos hpos)
  · refine ⟨_, exec_dFinish_ok s _ h (hr.trans hscan), ?_, hstatus, hleft, hrem, congrArg List.length hparams.1, hcrc,
      hparams⟩
    exact congrArg (fun st => State.withRsp _ (rspDoneStatus st)) hstatus
  · exact absurd hnone hsome

/-- Settles O29: the first pad bit that fails ends the command (`decFinalise_stops`); behind right padding a symbol ends
the scan (`decFinalise_padded`). -/
theorem dFinishReportsFirstError : Obligations.DFinishReportsFirstError := by
  intro s h hc hg ends
  have raised {e : Dec} {st : Status} (hr : decFinalise s.dec = .raised e) (hst : e.status = st)
      (hcrc : e.crc = s.dec.crc) (hparams : s.dec.sameParams e) : ends st :=
    ⟨_, exec_dFinish_raised s e h hr, by rw [hst]; rfl, hst, hcrc, hparams⟩
  refine ⟨fun j hj hbits hwrong => ?wrong, fun hshort hbits => ?missing, fun hbits hahead => ?trailing⟩
  case wrong =>
    obtain ⟨e, hr, hstatus, hcrc, hparams⟩ :=
      decFinalise_stops s.dec h.2 hc hg hj hbits (by rw [hwrong]; simp)
    rw [hwrong, if_neg (Option.some_ne_none _)] at hstatus
    exact raised hr hstatus hcrc hparams
  case missing =>
    have hnone : s.dec.inputBits[s.dec.inputBits.length]? = none := List.getElem?_eq_none_iff.mpr (le_refl _)
    obtain ⟨e, hr, hstatus, hcrc, hparams⟩ :=
      decFinalise_stops s.dec h.2 hc hg hshort hbits (by rw [hnone]; simp)
    rw [hnone, if_pos rfl] at hstatus
    exact raised hr hstatus hcrc hparams
  case trailing =>
    obtain ⟨e, hr, hstatus, hcrc, hparams, -, -, hsyms, -⟩ := decFinalise_padded s.dec h.2 hc hg hbits
    have hsome : symbolsOf (e.code.drop e.pos) ≠ [] := by
      have hd : s.dec.padSymbols < s.dec.symbolsAhead := hahead
      intro hnone
      have he : e.symbolsAhead = 0 := congrArg List.length hnone
      omega
    have hpos : e.pos ≤ e.code.length := by
      by_contra hpos
      exact hsome (by rw [List.drop_eq_nil_of_le (by omega)]; rfl)
    obtain ⟨hnone, -⟩ | ⟨-, hscan⟩ := trailingScan_cases e hstatus hpos
    · exact absurd hnone hsome
    · exact raised (hr.trans hscan) rfl hcrc hparams

/-! ## `D.C2B` -/

/-- The empty mask flips nothing (40_primitives.md R112). -/
theorem xorMask_nil_mask (k : Nat) (bs : List Bool) : xorMask [] k bs = bs := by
  induction bs generalizing k with
  | nil => rfl
  | cons b bs ih => rw [xorMask_cons, maskBit_nil, Bool.xor_false, ih]

/-- The loop of `D.C2B` ends with the error of the missing symbol (43_code_to_bits.md R210). -/
theorem codeBitsLoop_status (n : Nat) (d : Dec) (bs : List Bool) (h : d.status = .okay)
    (hc : d.cursor < max 1 d.mask.length) (hn : d.inputBits.length < n) :
    (codeBitsLoop n d bs).1.status = shortfall (d.code.drop d.pos) := by
  induction n generalizing d bs with
  | zero => omega
  | succ n ih =>
    unfold codeBitsLoop
    cases hi : d.inputBits with
    | nil =>
      obtain ⟨e, hr, -⟩ := decDataBit_exhausted d h hi
      rw [hr]
      exact decRawBit_exhausted_status d e h (decDataBit_eq_raised.mp hr)
    | cons b cs =>
      obtain ⟨e, hr, hbits, hstatus, -, -, -, hcursor, hparams⟩ := decDataBit_inputBits d b cs h hc hi
      have hlen : e.inputBits.length < n := by
        rw [hi, List.length_cons] at hn
        rw [hbits]
        omega
      rw [hr]
      exact (ih e _ hstatus (cursor_lt_of_next hc hcursor hparams) hlen).trans (decDataBit_shortfall d e b h hr)

/-- Settles O35: the temporary decoder reads the bits of the staged code under the empty mask, to the end or the first
unmappable character. -/
theorem dC2bDecodesStagedCode : Obligations.DC2bDecodesStagedCode := by
  intro s h code
  have hinput : s.defaultDec.inputBits = stringBits code := xorMask_nil_mask 0 _
  have hrounds : s.defaultDec.inputBits.length < 5 * s.defaultDec.code.length + 1 := by
    rw [hinput]
    exact Nat.lt_succ_of_le (stringBits_length_le code)
  have hcursor : s.defaultDec.cursor < max 1 s.defaultDec.mask.length := Nat.one_pos
  obtain ⟨hbits, -, hcrc, -⟩ := codeBitsLoop_inputBits _ s.defaultDec [] rfl hcursor hrounds
  have hstatus : s.codeToBits.dec.status = if hasBadChar code then .badDigit else .tooShort :=
    codeBitsLoop_status _ s.defaultDec [] rfl hcursor hrounds
  rw [hinput] at hbits hcrc
  have hdbits : s.codeToBits.dbits = stringBits code := hbits
  have hframe : s.codeToBits = (s.withDec s.codeToBits.dec).withDbits (stringBits code) :=
    (codeToBits_frame s).trans (by rw [hdbits])
  have hclean : cleanEnd s.codeToBits.dec.status = if hasBadChar code then .badDigit else .okay := by
    rw [hstatus]
    split <;> rfl
  exact ⟨_, exec_dC2b s h, by rw [hclean]; exact congrArg (State.withRsp · _) hframe, hstatus, hcrc⟩

end Sys2Proof.Machine

/-! The round trip (42_decoder.md R190): the logical bits a message stands for, which the encoder writes; the mirror
sequence, which reads them; and the padding, which fits the group the decoder stands in. -/

namespace Sys2Proof.Machine

/-! ## The message as logical bits -/

/-- ENC after a message part is written, `w` being `INT_W`. -/
def Msg.write (w : Nat) (e : Enc) (m : Msg) : Enc :=
  match m with
  | .bit b => encDataBit b e
  | .int sg _ _ _ => encDataBits (wintBits w sg m.ports) e
  | .chk => encCheckBit e
  | .chkn n => repeatDo encCheckBit n.toNat e

/-- The logical bits of a message part: the data bits, or the check bits due. -/
def Msg.bits (w : Nat) (e : Enc) (m : Msg) : List Bool :=
  match m with
  | .bit b => [b]
  | .int sg _ _ _ => wintBits w sg m.ports
  | .chk => [checkBitAt e.crc e.latch e.latchRem 0]
  | .chkn n => (List.range n.toNat).map (checkBitAt e.crc e.latch e.latchRem)

/-- The logical bits of a message, part by part. -/
def messageBits (w : Nat) (e : Enc) : List Msg → List Bool
  | [] => []
  | m :: ms => m.bits w e ++ messageBits w (m.write w e) ms

/-- ENC after a message is written, part by part. -/
def writtenEnc (w : Nat) (e : Enc) (ms : List Msg) : Enc := ms.foldl (Msg.write w) e

/-- The command of a message part writes what `Msg.write` says. -/
theorem issue_writeInstr (m : Msg) (s : State) (h : s.running) :
    issue s m.writeInstr m.ports =
      ((s.withPorts m.ports).withEnc (m.write s.par.intW s.enc)).withRsp rspDone := by
  have h' : (s.withPorts m.ports).fatal = false := h
  cases m with
  | bit b => exact issue_eWbit b s _ h
  | int sg lo hi v => exact issue_of_exec (exec_eWint sg _ h')
  | chk => exact issue_eWchk s _ h
  | chkn n => exact issue_eWchkn s _ h

/-- The check bits due after a check bit are those that follow. -/
theorem encCheckBit_checkBitAt (e : Enc) (k : Nat) :
    checkBitAt (encCheckBit e).crc (encCheckBit e).latch (encCheckBit e).latchRem k =
      checkBitAt e.crc e.latch e.latchRem (k + 1) := by
  rw [encCheckBit_crc, encCheckBit_latch, encCheckBit_latchRem, loadLatch_shifted]

/-- A message part emits its logical bits and keeps the invariant. -/
theorem Msg.write_emitted {p : Params} (w : Nat) (m : Msg) {e : Enc} (h : e.Inv p) :
    Enc.Emitted (m.bits w e) e (m.write w e) ∧ (m.write w e).Inv p := by
  cases m with
  | bit b => exact ⟨encDataBit_emitted b h, encDataBit_inv b h⟩
  | int sg lo hi v => exact ⟨encDataBits_emitted _ h, encDataBits_inv _ h⟩
  | chk => exact ⟨encCheckBit_emitted h, encCheckBit_inv h⟩
  | chkn n =>
    exact ⟨repeatDo_emitted (due := fun e k => checkBitAt e.crc e.latch e.latchRem k) (fun _ => encCheckBit_inv)
      (fun _ => encCheckBit_emitted) encCheckBit_checkBitAt _ h, repeatDo_keeps (fun _ => encCheckBit_inv) _ _ h⟩

theorem messageBits_emitted {p : Params} (w : Nat) (ms : List Msg) {e : Enc} (h : e.Inv p) :
    Enc.Emitted (messageBits w e ms) e (writtenEnc w e ms) ∧ (writtenEnc w e ms).Inv p := by
  induction ms generalizing e with
  | nil => exact ⟨.nil e, h⟩
  | cons m ms ih =>
    obtain ⟨hfirst, hinv⟩ := m.write_emitted w h
    obtain ⟨hrest, hinv'⟩ := ih hinv
    exact ⟨hfirst.trans hrest, hinv'⟩

/-- A message written leaves ENC as its parts in order do. -/
theorem writeAll_enc (ms : List Msg) (s : State) (h : s.running) :
    (writeAll s ms).running ∧ (writeAll s ms).enc = writtenEnc s.par.intW s.enc ms := by
  induction ms generalizing s with
  | nil => exact ⟨h, rfl⟩
  | cons m ms ih =>
    have hstep := issue_writeInstr m s h
    have hnext := ih (issue s m.writeInstr m.ports) (by rw [hstep]; exact h)
    have hall : writeAll s (m :: ms) = writeAll (issue s m.writeInstr m.ports) ms := rfl
    rw [hall]
    refine ⟨hnext.1, hnext.2.trans ?_⟩
    rw [hstep]
    rfl

/-! ## The mirror sequence -/

/-- Both units have seen the same data bits and have the same check bits due (40_primitives.md R119). -/
structure SameChecks (e : Enc) (d : Dec) : Prop where
  crc : d.crc = e.crc
  due : ∀ k, checkBitAt d.crc d.latch d.latchRem k = checkBitAt e.crc e.latch e.latchRem k

/-- With no latch bit left only the running check decides the check bits due. -/
theorem SameChecks.of_crc {e : Enc} {d : Dec} (h : d.crc = e.crc) (he : e.latchRem = 0#6) (hd : d.latchRem = 0#6) :
    SameChecks e d :=
  ⟨h, fun k => by simp [checkBitAt, he, hd, h]⟩

/-- What a list of data bits leaves in the check and the latch of ENC (40_primitives.md R115, R121). -/
theorem encDataBits_checks (bs : List Bool) (e : Enc) :
    (encDataBits bs e).crc = crcOver e.crc bs ∧ (encDataBits bs e).latch = e.latch ∧
      (encDataBits bs e).latchRem = if bs = [] then e.latchRem else 0#6 := by
  induction bs generalizing e with
  | nil => exact ⟨rfl, rfl, rfl⟩
  | cons b bs ih =>
    obtain ⟨hcrc, hlatch, hrem⟩ := ih (encDataBit b e)
    rw [encDataBit_crc] at hcrc
    rw [encDataBit_latch] at hlatch
    rw [encDataBit_latchRem, ite_self] at hrem
    exact ⟨hcrc, hlatch, hrem⟩

/-- `d` becomes `d'` by reading a message part that takes ENC from `e` to `e'`, with `rest` left to read. -/
structure PartRead (p : Params) (e' : Enc) (rest : List Bool) (d d' : Dec) : Prop where
  status : d'.status = .okay
  input : d'.inputBits = rest
  checks : SameChecks e' d'
  params : d.sameParams d'
  inv : d'.Inv p

section Mirror

variable {p : Params} {s : State} {e : Enc} {rest : List Bool}

/-- `D.RBIT` reads what `E.WBIT` wrote. -/
theorem mirror_bit (b : Bool) (hs : s.safe) (hinv : s.dec.Inv p) (hi : s.dec.inputBits = b :: rest)
    (hchecks : SameChecks e s.dec) :
    ∃ d, exec .dRbit s = .next ((s.withDec d).withRsp (rspDoneBit b)) ∧
      PartRead p (encDataBit b e) rest s.dec d := by
  obtain ⟨d, hr, hinput, hstatus, hcrc, -, hrem, -, hparams⟩ := decDataBit_inputBits s.dec b rest hs.2 hinv.cursor_lt hi
  have hsound := decDataBit_sound (p := p) (errs := [.tooShort, .badDigit]) hs.2 (by decide) (by decide)
  rw [hr] at hsound
  have hcrc' : d.crc = (encDataBit b e).crc := by rw [hcrc, hchecks.crc, encDataBit_crc]
  exact ⟨d, exec_dRbit_ok s d b hs hr, hstatus, hinput, .of_crc hcrc' (encDataBit_latchRem b e) hrem, hparams,
    hsound.inv hinv⟩

/-- The offset `E.WINT` writes is in the range `D.RINT` tests, and stands for the clamped value (41_encoder.md R143,
42_decoder.md R176). -/
theorem wintBits_in_range (w : Nat) (sg : Bool) (q : Ports) :
    ¬ (portRange w sg q).span < bitsValue (wintBits w sg q) ∧
      (bitsValue (wintBits w sg q) : Int) + (portRange w sg q).lo = (portRange w sg q).clamp (intOf w sg q.opVal) := by
  have hle : (portRange w sg q).lo ≤ (portRange w sg q).hi := normRange_le _ _
  have hvalue := bitsValue_wintBits w sg q
  have hclamp := (portRange w sg q).clamp_eq (intOf w sg q.opVal) hle
  rw [Range.span_lt_iff _ _ hle]
  omega

/-- `D.RINT` reads what `E.WINT` wrote. -/
theorem mirror_int (sg : Bool) (hs : s.safe) (hinv : s.dec.Inv p)
    (hi : s.dec.inputBits = wintBits s.par.intW sg s.ports ++ rest) (hchecks : SameChecks e s.dec) :
    ∃ d, exec (.dRint sg) s = .next ((s.withDec d).withRsp (rspDoneInt (patOf s.par.intW
        ((portRange s.par.intW sg s.ports).clamp (intOf s.par.intW sg s.ports.opVal))))) ∧
      PartRead p (encDataBits (wintBits s.par.intW sg s.ports) e) rest s.dec d := by
  obtain ⟨d, hr, hinput, hstatus, hcrc, hlatch, hrem, hparams⟩ :=
    decReadRaw_inputBits _ rest 0 s.dec hs.2 hinv.cursor_lt hi
  have hsound := decReadRaw_sound (p := p) (errs := [.tooShort, .badDigit]) (wintBits s.par.intW sg s.ports).length 0
    hs.2 (by decide) (by decide)
  rw [hr] at hsound
  obtain ⟨hrange, hvalue⟩ := wintBits_in_range s.par.intW sg s.ports
  have hbody : readIntBody s.par.intW (portRange s.par.intW sg s.ports) s.dec =
      .ok d (rspDoneInt (patOf s.par.intW
        ((portRange s.par.intW sg s.ports).clamp (intOf s.par.intW sg s.ports.opVal)))) := by
    rw [readIntBody, ← wintBits_length, hr, Run.bind_ok, ← hvalue]
    exact if_neg hrange
  obtain ⟨ecrc, elatch, erem⟩ := encDataBits_checks (wintBits s.par.intW sg s.ports) e
  have hchecks' : SameChecks (encDataBits (wintBits s.par.intW sg s.ports) e) d := by
    by_cases hnil : wintBits s.par.intW sg s.ports = []
    · rw [hnil] at hcrc hrem
      rw [if_pos rfl] at hrem
      rw [hnil]
      exact ⟨hcrc.trans hchecks.crc, fun k => by rw [hcrc, hlatch, hrem]; exact hchecks.due k⟩
    · rw [if_neg hnil] at hrem erem
      exact .of_crc (by rw [hcrc, ecrc, hchecks.crc]) erem hrem
  exact ⟨d, exec_dRint_ok sg s d _ hs hbody, hstatus, hinput, hchecks', hparams, hsound.inv hinv⟩

/-- `D.RCHK` verifies what `E.WCHK` wrote. -/
theorem mirror_chk (hs : s.safe) (hinv : s.dec.Inv p)
    (hi : s.dec.inputBits = checkBitAt e.crc e.latch e.latchRem 0 :: rest) (hchecks : SameChecks e s.dec) :
    ∃ d, exec .dRchk s = .next ((s.withDec d).withRsp rspDone) ∧ PartRead p (encCheckBit e) rest s.dec d := by
  obtain ⟨d, hinput, hstatus, hcrc, -, hparams, hdue, hr⟩ :=
    decCheckBit_verifiesBit.bit s.dec _ rest hs.2 hinv.cursor_lt hi
  rw [if_pos (hchecks.due 0).symm] at hr
  have hsound := decCheckBit_sound (p := p) (errs := [.tooShort, .badDigit, .badCheckBit]) hs.2 (by decide) (by decide)
    (by decide)
  rw [hr] at hsound
  have hchecks' : SameChecks (encCheckBit e) d :=
    ⟨by rw [hcrc, hchecks.crc, encCheckBit_crc], fun k => by rw [hdue, hchecks.due, encCheckBit_checkBitAt]⟩
  exact ⟨d, exec_dRchk_ok s d hs hr, hstatus, hinput, hchecks', hparams, hsound.inv hinv⟩

/-- `D.RCHKN n` verifies what `E.WCHKN n` wrote. -/
theorem mirror_chkn (hs : s.safe) (hinv : s.dec.Inv p)
    (hi : s.dec.inputBits =
      (List.range s.ports.opN.toNat).map (checkBitAt e.crc e.latch e.latchRem) ++ rest)
    (hchecks : SameChecks e s.dec) :
    ∃ d, exec .dRchkn s = .next ((s.withDec d).withRsp rspDone) ∧
      PartRead p (repeatDo encCheckBit s.ports.opN.toNat e) rest s.dec d := by
  have hbits : ∀ k, k < s.ports.opN.toNat →
      s.dec.inputBits[k]? = some (checkBitAt s.dec.crc s.dec.latch s.dec.latchRem k) := by
    intro k hk
    rw [hi, List.getElem?_append_left (by simpa using hk), hchecks.due]
    simp [hk]
  obtain ⟨d, hr, hinput, hstatus, hcrc, -, hparams, hdue, -⟩ :=
    repeatRun_passes decCheckBit_verifiesBit _ s.dec hs.2 hinv.cursor_lt hbits
  have hsound := repeatRun_sound (p := p) (errs := [.tooShort, .badDigit, .badCheckBit]) (d := s.dec)
    (fun e he => decCheckBit_sound he (by decide) (by decide) (by decide)) s.ports.opN.toNat hs.2
  rw [hr] at hsound
  obtain ⟨ecrc, elatch, erem, -⟩ := repeatDo_encCheckBit s.ports.opN.toNat e
  have hchecks' : SameChecks (repeatDo encCheckBit s.ports.opN.toNat e) d :=
    ⟨by rw [hcrc, hchecks.crc, ecrc], fun k => by
      rw [hdue, hchecks.due, ecrc, elatch, erem, checkBitAt_takenChecks]⟩
  have hrest : d.inputBits = rest := by
    rw [hinput, hi]
    exact List.drop_left' (by simp)
  exact ⟨d, exec_dRchkn_ok s d hs hr, hstatus, hrest, hchecks', hparams, hsound.inv hinv⟩

/-- The mirror command reads what the message part wrote, and answers it. -/
theorem issue_readInstr (m : Msg) (hs : s.safe) (hinv : s.dec.Inv p)
    (hi : s.dec.inputBits = m.bits s.par.intW e ++ rest) (hchecks : SameChecks e s.dec) :
    ∃ d, issue s m.readInstr m.ports =
        ((s.withPorts m.ports).withDec d).withRsp (m.reply s.par.intW) ∧
      PartRead p (m.write s.par.intW e) rest s.dec d := by
  have hs' : (s.withPorts m.ports).safe := hs
  cases m with
  | bit b =>
    obtain ⟨d, hex, hread⟩ := mirror_bit b hs' hinv hi hchecks
    exact ⟨d, issue_of_exec hex, hread⟩
  | int sg lo hi v =>
    obtain ⟨d, hex, hread⟩ := mirror_int sg hs' hinv hi hchecks
    exact ⟨d, issue_of_exec hex, hread⟩
  | chk =>
    obtain ⟨d, hex, hread⟩ := mirror_chk hs' hinv hi hchecks
    exact ⟨d, issue_of_exec hex, hread⟩
  | chkn n =>
    obtain ⟨d, hex, hread⟩ := mirror_chkn hs' hinv hi hchecks
    exact ⟨d, issue_of_exec hex, hread⟩

end Mirror

/-- The mirror sequence answers every value written, and leaves what stands behind the message. -/
theorem readAll_mirrors {p : Params} {rest : List Bool} (ms : List Msg) (s : State) (e : Enc) (hs : s.safe)
    (hinv : s.dec.Inv p) (hi : s.dec.inputBits = messageBits s.par.intW e ms ++ rest) (hchecks : SameChecks e s.dec) :
    readReplies s ms = ms.map (fun m => some (m.reply s.par.intW)) ∧ (readAll s ms).fatal = false ∧
      PartRead p (writtenEnc s.par.intW e ms) rest s.dec (readAll s ms).dec := by
  induction ms generalizing s e with
  | nil => exact ⟨rfl, hs.1, hs.2, hi, hchecks, s.dec.sameParams_refl, hinv⟩
  | cons m ms ih =>
    rw [messageBits, List.append_assoc] at hi
    obtain ⟨d, hissue, hread⟩ := issue_readInstr m hs hinv hi hchecks
    obtain ⟨hreplies, hfatal, hrest⟩ := ih (issue s m.readInstr m.ports) (m.write s.par.intW e)
      (by rw [hissue]; exact ⟨hs.1, hread.status⟩) (by rw [hissue]; exact hread.inv)
      (by rw [hissue]; exact hread.input) (by rw [hissue]; exact hread.checks)
    have hpar : (issue s m.readInstr m.ports).par = s.par := by rw [hissue]; rfl
    have hdec : (issue s m.readInstr m.ports).dec = d := by rw [hissue]; rfl
    have hrsp : (issue s m.readInstr m.ports).rsp = some (m.reply s.par.intW) := by rw [hissue]; rfl
    rw [hpar] at hreplies hrest
    rw [hdec] at hrest
    refine ⟨?_, hfatal, hrest.status, hrest.input, hrest.checks, Dec.sameParams_trans hread.params hrest.params,
      hrest.inv⟩
    rw [readReplies, List.map_cons, hrsp, hreplies]

/-! ## The padding behind the message -/

/-- A string without unmappable characters gives five bits for each symbol. -/
theorem stringBits_length {cs : List Chr} (h : hasBadChar cs = false) :
    (stringBits cs).length = 5 * (symbolsOf cs).length := by
  induction cs with
  | nil => rfl
  | cons c cs ih =>
    rw [hasBadChar, List.any_cons, Bool.or_eq_false_iff] at h
    obtain ⟨hc, hcs⟩ := h
    have ih := ih hcs
    cases hs : isSeparator c with
    | true =>
      rw [stringBits_sep c cs hs, ih]
      simp [symbolsOf, hs]
    | false =>
      obtain ⟨v, hv⟩ := Option.isSome_iff_exists.mp (show (valOfChar c).isSome = true by simpa [hs] using hc)
      rw [stringBits_sym c cs v hs hv, List.length_append, symBits_length, ih]
      simp [symbolsOf, hs]
      omega

theorem hasBadChar_of_subset {cs ds : List Chr} (hsub : ∀ c ∈ cs, c ∈ ds) (h : hasBadChar ds = false) :
    hasBadChar cs = false := by
  rw [hasBadChar, List.any_eq_false] at h ⊢
  exact fun c hc => h c (hsub c hc)

/-- In a string without unmappable characters the symbols consumed are all that stand before the position. -/
theorem mappableBefore_eq {code : List Chr} (h : hasBadChar code = false) (pos : Nat) :
    mappableBefore code pos = symbolsOf (code.take pos) := by
  refine List.filter_congr fun c hc => ?_
  rw [hasBadChar, List.any_eq_false] at h
  have hgood := h c (List.mem_of_mem_take hc)
  cases hs : isSeparator c with
  | true => rw [valOfChar_sep c hs]; rfl
  | false =>
    rw [hs] at hgood
    simpa [Option.isSome_iff_ne_none] using hgood

theorem groupRem_lt {g : Nat} (hg : g ≠ 0) (n : Nat) : groupRem g n < g := by
  rw [groupRem, if_neg hg]
  exact Nat.mod_lt _ (by omega)

/-- Where `r` symbols more complete the group, fewer than a group, the countdown is `r`. -/
theorem groupRem_of_complete {g n r : Nat} (h : groupRem g (n + r) = 0) (hr : g ≠ 0 → r < g) (h0 : g = 0 → r = 0) :
    groupRem g n = r := by
  by_cases hg : g = 0
  · rw [groupRem, if_pos hg, h0 hg]
  · rw [groupRem_eq_zero_iff hg] at h
    have hlt := hr hg
    have hn : n % g < g := Nat.mod_lt _ (by omega)
    have hsum : (n % g + r) % g = 0 := by rw [← h, Nat.add_mod n r, Nat.mod_eq_of_lt hlt]
    rw [groupRem, if_neg hg]
    obtain hz | hz : n % g + r = 0 ∨ n % g + r = g := by
      obtain ⟨k, hk⟩ := Nat.dvd_of_mod_eq_zero hsum
      have hk2 : k < 2 := by
        by_contra hk2
        have := Nat.mul_le_mul_left g (show 2 ≤ k by omega)
        omega
      interval_cases k <;> omega
    · rw [show n % g = 0 by omega, show r = 0 by omega, Nat.sub_zero, Nat.mod_self]
    · rw [show g - n % g = r by omega, Nat.mod_eq_of_lt hlt]

/-- The group countdown at a symbol boundary is below the group size. -/
theorem remAtSymbol_lt {p : Params} {e : Enc} (h : e.Inv p) :
    (e.dpg.toNat ≠ 0 → e.remAtSymbol.toNat < e.dpg.toNat) ∧ (e.dpg.toNat = 0 → e.remAtSymbol.toNat = 0) := by
  obtain ⟨n, hn⟩ : ∃ n, e.remAtSymbol.toNat = groupRem e.dpg.toNat n := by
    unfold Enc.remAtSymbol
    split
    · exact ⟨_, h.rem_eq⟩
    · exact ⟨_, countSymbol_eq _ _ _ h.rem_eq⟩
  rw [hn]
  exact ⟨fun hg => groupRem_lt hg n, fun hg => by rw [groupRem, if_pos hg]⟩

/-- A decoder that has read the message and has the padding before it stands in the group where the encoder stood before
the padding: the bits left of its symbol and the symbols ahead are those the padding completes. -/
theorem padding_fits {p q : Params} {e : Enc} {d : Dec} (he : e.Inv p) (hd : d.Inv q)
    (hcode : d.code = (encFinalise e).out) (hdpg : d.dpg = e.dpg) (hgroup : d.padGroup = e.padGroup)
    (hlen : d.inputBits.length = e.padCount) : d.padCount = e.padCount ∧ d.symbolsAhead = d.padSymbols := by
  have hgood : hasBadChar d.code = false := by
    rw [hcode]
    exact out_hasBadChar (encFinalise_inv he)
  have hahead : (stringBits (d.code.drop d.pos)).length = 5 * d.symbolsAhead :=
    stringBits_length (hasBadChar_of_subset (fun _ => List.mem_of_mem_drop) hgood)
  have hleft := hd.bitsLeft_le
  rw [inputBits_length, hahead, Enc.padCount_eq] at hlen
  rw [Dec.padCount_eq_padSymbols, Enc.padCount_eq, Dec.padSymbols, hgroup]
  cases hp : e.padGroup with
  | false =>
    rw [hp] at hlen
    simp only [Bool.false_eq_true, if_false] at hlen ⊢
    omega
  | true =>
    rw [hp] at hlen
    simp only [if_true] at hlen ⊢
    have hrem : d.remInGroup.toNat = e.remAtSymbol.toNat := by
      have hsplit : (symbolsOf (encFinalise e).out).length = (mappableBefore d.code d.pos).length + d.symbolsAhead := by
        rw [← hcode, mappableBefore_eq hgood, Dec.symbolsAhead, ← List.length_append, ← symbolsOf_append,
          List.take_append_drop]
      have hcomplete : groupRem e.dpg.toNat ((mappableBefore d.code d.pos).length + e.remAtSymbol.toNat) = 0 := by
        have hfin := (encFinalise_inv he).rem_eq
        obtain ⟨-, hdpg', -⟩ := encFinalise_sameParams e
        rw [(encFinalise_eq he).2.2 hp, hsplit, hdpg'] at hfin
        rw [show e.remAtSymbol.toNat = d.symbolsAhead by omega, ← hfin]
        rfl
      obtain ⟨hlt, hzero⟩ := remAtSymbol_lt he
      rw [hd.rem_eq, hdpg]
      exact groupRem_of_complete hcomplete hlt hzero
    omega

/-- The pad bits due are the same for both units (41_encoder.md R151, 42_decoder.md R183). -/
theorem SameChecks.padBitAt {e : Enc} {d : Dec} (h : SameChecks e d) (hp : d.padChecks = e.padChecks) (k : Nat) :
    d.padBitAt k = e.padBitAt k := by
  rw [Dec.padBitAt, Enc.padBitAt, hp, h.due]

/-- Behind the message `D.FINISH` finds the padding of `E.RESULT` and nothing else. -/
theorem dFinish_accepts {p q : Params} {s : State} {e : Enc} (hs : s.safe) (he : e.Inv p) (hd : s.dec.Inv q)
    (hcode : s.dec.code = (encFinalise e).out) (hdpg : s.dec.dpg = e.dpg) (hgroup : s.dec.padGroup = e.padGroup)
    (hpad : s.dec.padChecks = e.padChecks) (hchecks : SameChecks e s.dec)
    (hi : s.dec.inputBits = (List.range e.padCount).map e.padBitAt) :
    ∃ t, exec .dFinish s = .next t ∧ t.rsp = some (rspDoneStatus .okay) := by
  obtain ⟨hcount, hahead⟩ := padding_fits he hd hcode hdpg hgroup (by rw [hi]; simp)
  have hbits : ∀ k, k < s.dec.padCount → s.dec.inputBits[k]? = some (s.dec.padBitAt k) := by
    intro k hk
    rw [hcount] at hk
    rw [hi, hchecks.padBitAt hpad]
    simp [hk]
  have hstray : s.dec.dpg = 0#7 → s.dec.remInGroup = 0#7 := by
    intro h0
    have hle := hd.rem_le
    rw [h0] at hle
    exact BitVec.eq_of_toNat_eq (Nat.le_zero.mp hle)
  obtain ⟨t, hex, ht, -⟩ := dFinishAcceptsPadding s hs hd.cursor_lt hd.pos_le hstray hbits hahead
  exact ⟨t, hex, by rw [ht]; rfl⟩

/-! ## The round trip -/

/-- Parameters wide enough for a mask and a code. -/
def Params.covering (mask : List Bool) (code : List Chr) : Params :=
  { intW := 1, mlenW := mask.length, clenW := code.length }

theorem length_le_maskMax_covering (mask : List Bool) (code : List Chr) :
    mask.length ≤ (Params.covering mask code).maskMax :=
  Nat.le_sub_one_of_lt Nat.lt_two_pow_self

theorem length_le_codeMax_covering (mask : List Bool) (code : List Chr) :
    code.length ≤ (Params.covering mask code).codeMax :=
  Nat.le_sub_one_of_lt Nat.lt_two_pow_self

/-- A decoder constructed on the finished string, with the parameters of the encoder, can read the logical bits of the
message and then those of the padding: its mask undoes the encoder's (40_primitives.md R113). -/
theorem inputBits_of_written (w : Nat) (ms : List Msg) (mask : List Bool) (dpg : BitVec 7) (padGroup padChecks : Bool) :
    let e := writtenEnc w (encConstruct mask dpg padGroup padChecks) ms
    (decConstruct mask (encFinalise e).out dpg padGroup padChecks).inputBits =
      messageBits w (encConstruct mask dpg padGroup padChecks) ms ++ (List.range e.padCount).map e.padBitAt := by
  intro e
  have hinv0 := encConstruct_inv dpg padGroup padChecks (length_le_maskMax_covering mask [])
  obtain ⟨hwritten, hinv⟩ := messageBits_emitted w ms hinv0
  have hwire := (hwritten.trans (encFinalise_emitted hinv)).wireBits_eq
  have hstring : (encFinalise e).wireBits = stringBits (encFinalise e).out := by
    rw [Enc.wireBits, (encFinalise_eq hinv).2.1]
    exact List.append_nil _
  have hinput : (decConstruct mask (encFinalise e).out dpg padGroup padChecks).inputBits =
      xorMask mask 0 (stringBits (encFinalise e).out) := rfl
  rw [hinput, ← hstring]
  exact (congrArg (xorMask mask 0) hwire).trans (xorMask_xorMask mask 0 _)

/-- `E.INIT`, the message and `E.RESULT` leave the finished string of the message. -/
theorem written_out (s : State) (ms : List Msg) (h : s.running) :
    (issue (writeAll (issue s .eInit s.ports) ms) .eResult s.ports).enc =
      encFinalise (writtenEnc s.par.intW s.constructEnc.enc ms) := by
  have hinit : issue s .eInit s.ports = (s.withPorts s.ports).constructEnc.withRsp rspDone :=
    issue_of_exec (exec_eInit _ h)
  obtain ⟨hrun, henc⟩ := writeAll_enc ms (issue s .eInit s.ports) (by rw [hinit]; exact h)
  rw [issue_of_exec (exec_eResult ((writeAll (issue s .eInit s.ports) ms).withPorts s.ports) hrun)]
  exact congrArg encFinalise (henc.trans (by rw [hinit]; rfl))

/-- Settles O50: the decoder's input is the message and the padding (`inputBits_of_written`); the mirror sequence reads
the message (`readAll_mirrors`), and `D.FINISH` the padding (`dFinish_accepts`). -/
theorem mirrorSequenceRoundTrips : Obligations.MirrorSequenceRoundTrips := by
  intro s u ms hs hu hpar f hdpg hround hmask hcode d
  let e := writtenEnc s.par.intW s.constructEnc.enc ms
  have hf : f.enc = encFinalise e := written_out s ms hs
  have hd : d = (u.withPorts u.ports).constructDec.withRsp rspDone := issue_of_exec (exec_dInit _ hu)
  have hsafe : d.safe := by
    rw [hd]
    exact ⟨hu, rfl⟩
  have hw : d.par.intW = s.par.intW := by
    rw [hd, ← hpar]
    rfl
  have hdec : d.dec = decConstruct (s.readMask .enc s.estg.maskLen) f.enc.out s.estg.dpg
      (roundPadGroup s.estg.round) (roundPadChecks s.estg.round) := by
    rw [← hmask, ← hcode, ← hdpg, ← hround, hd]
    rfl
  have hdinv : d.dec.Inv (Params.covering (s.readMask .enc s.estg.maskLen) f.enc.out) := by
    rw [hdec]
    exact decConstruct_inv _ _ _ (length_le_maskMax_covering _ _) (length_le_codeMax_covering _ _)
  have hinput : d.dec.inputBits = messageBits d.par.intW s.constructEnc.enc ms ++
      (List.range e.padCount).map e.padBitAt := by
    rw [hdec, hf, hw]
    exact inputBits_of_written s.par.intW ms _ _ _ _
  have hchecks : SameChecks s.constructEnc.enc d.dec := by
    rw [hdec]
    exact ⟨rfl, fun _ => rfl⟩
  obtain ⟨hreplies, hfatal, hread⟩ := readAll_mirrors ms d _ hsafe hdinv hinput hchecks
  rw [hw] at hreplies hread
  refine ⟨hreplies, ?_⟩
  obtain ⟨⟨⟨-, hedpg, hepad, hegroup⟩, -⟩, heinv⟩ := messageBits_emitted s.par.intW ms
    (encConstruct_inv s.estg.dpg (roundPadGroup s.estg.round) (roundPadChecks s.estg.round)
      (length_le_maskMax_covering (s.readMask .enc s.estg.maskLen) f.enc.out))
  obtain ⟨hdcode, -, hddpg, hdpad, hdgroup⟩ := hread.params
  rw [hdec] at hdcode hddpg hdpad hdgroup
  exact dFinish_accepts ⟨hfatal, hread.status⟩ heinv hread.inv (hdcode.trans (congrArg Enc.out hf))
    (hddpg.trans hedpg.symm) (hdgroup.trans hegroup.symm) (hdpad.trans hepad.symm) hread.checks hread.input

end Sys2Proof.Machine

/-! The host side: the handshake of commands (30_encoding.md R81), the two units beside each other (20_memory.md section
4), staging registers and cells (10_state.md R40, 20_memory.md R60), and host writes that overlap a command (R72). -/

namespace Sys2Proof.Machine

/-! ## Handshake -/

/-- The step that accepts a command runs it, however it came to be accepted. -/
theorem step_accepted {s t : State} {w : CmdWord} {i : Instr} (hf : fetch s = .accepted w t)
    (hw : legalInstr w = some i) : step s = exec i t := by
  simp only [step, hf, hw]

/-- Settles O5: the command is accepted with its ports sampled (`fetch_command`), and its word stands for it. -/
theorem stepRunsAcceptedCommand : Obligations.StepRunsAcceptedCommand :=
  fun s c rest i hh hr hd => step_accepted (fetch_command s c rest hh hr)
    ((legalInstr_eq_some_iff_decodeWord _ i).mpr hd)

/-- Every command leaves its response pending (30_encoding.md R81, R84, R87). -/
theorem exec_rsp {i : Instr} {s t : State} (ht : exec i s = .next t) : ∃ r, t.rsp = some r := by
  have presents {u : State} {r : Response} (hex : exec i s = .next u) (hu : u.rsp = some r) : ∃ r, t.rsp = some r := by
    rw [hex] at ht
    cases ht
    exact ⟨r, hu⟩
  cases hf : s.fatal with
  | true => exact presents (exec_fatal i s hf) rfl
  | false =>
    obtain hi | (rfl | rfl | rfl) | ⟨hi, hc⟩ := command_kinds i
    · obtain ⟨e, r, hex, -⟩ := exec_encCommand i s hi hf
      exact presents hex rfl
    · exact presents (exec_dInit s hf) rfl
    · exact presents (exec_dC2b s hf) rfl
    · exact presents (exec_dAc2b s hf) rfl
    · obtain ⟨d, r, hex, -⟩ := exec_reading hi hc hf
      exact presents hex rfl

/-- Settles O8: a command is not fetched while a response is pending, taking the response drops it, and every command
leaves one (`exec_rsp`). -/
theorem handshakeHoldsCommands : Obligations.HandshakeHoldsCommands := by
  refine ⟨fun s c rest r hh hr => ?waits, fun s rest hh => ?taken, fun i s t ht => ?answered⟩
  case waits => simp [step, fetch, hh, State.cmdReady, hr]
  case taken => exact ⟨(s.withHost rest).withoutRsp, by simp [step, fetch, hh], rfl, rfl, rfl, rfl, rfl, rfl⟩
  case answered =>
    obtain ⟨r, hr⟩ := exec_rsp ht
    simp [State.rspValid, State.cmdReady, hr]

/-! ## The two units beside each other -/

/-- ENC is constructed from its own staging (70_reset_and_hazards.md R251). -/
theorem constructEnc_enc_congr {s u : State} (hepoch : s.epoch = u.epoch) (hstg : s.estg = u.estg)
    (hmask : s.emask = u.emask) : s.constructEnc.enc = u.constructEnc.enc := by
  have hcell : s.maskCell .enc = u.maskCell .enc := by
    funext a
    simp only [State.maskCell, hmask, hepoch]
  simp only [constructEnc_eq, State.withEnc_enc, State.readMask, hcell, hstg]

/-- The staged code of states that agree on the staging of DEC. -/
theorem readCode_congr {s u : State} (hepoch : s.epoch = u.epoch) (hcode : s.dcode = u.dcode) (n : Nat) :
    s.readCode n = u.readCode n := by
  have hcell : s.codeCell = u.codeCell := by
    funext a
    simp only [State.codeCell, hcode, hepoch]
  simp only [State.readCode, hcell]

/-- DEC is constructed from its own staging (70_reset_and_hazards.md R252). -/
theorem constructDec_dec_congr {s u : State} (hepoch : s.epoch = u.epoch) (hstg : s.dstg = u.dstg)
    (hmask : s.dmask = u.dmask) (hcode : s.dcode = u.dcode) : s.constructDec.dec = u.constructDec.dec := by
  have hcell : s.maskCell .dec = u.maskCell .dec := by
    funext a
    simp only [State.maskCell, hmask, hepoch]
  simp only [constructDec_eq, State.withDec_dec, State.readMask, hcell, hstg, readCode_congr hepoch hcode]

/-- A command of ENC that runs: what it makes of ENC and what it answers come from ENC, its staging, the ports and the
parameters alone. -/
theorem exec_encCommand_congr {i : Instr} {s u : State} (hi : encCommand i = true) (hs : s.fatal = false)
    (hu : u.fatal = false) (hpar : s.par = u.par) (hports : s.ports = u.ports) (hepoch : s.epoch = u.epoch)
    (henc : s.enc = u.enc) (hstg : s.estg = u.estg) (hmask : s.emask = u.emask) :
    ∃ e r, exec i s = .next ((s.withEnc e).withRsp r) ∧ exec i u = .next ((u.withEnc e).withRsp r) := by
  cases i with
  | eInit =>
    refine ⟨s.constructEnc.enc, rspDone, exec_eInit s hs, ?_⟩
    rw [constructEnc_enc_congr hepoch hstg hmask]
    exact exec_eInit u hu
  | eWbit b => exact ⟨_, _, exec_eWbit b s hs, by rw [henc]; exact exec_eWbit b u hu⟩
  | eWint sg => exact ⟨_, _, exec_eWint sg s hs, by rw [henc, hpar, hports]; exact exec_eWint sg u hu⟩
  | eWchk => exact ⟨_, _, exec_eWchk s hs, by rw [henc]; exact exec_eWchk u hu⟩
  | eWchkn => exact ⟨_, _, exec_eWchkn s hs, by rw [henc, hports]; exact exec_eWchkn u hu⟩
  | eResult => exact ⟨_, _, exec_eResult s hs, by rw [henc]; exact exec_eResult u hu⟩
  | eNchk => exact ⟨s.enc, _, exec_eNchk s hs, by rw [henc]; exact exec_eNchk u hu⟩
  | dInit | dRbit | dRint | dRchk | dRchkn | dFinish | dC2b | dAc2b => cases hi

/-- A gated command whose procedure and default responses are the same for both states does the same to the same
decoder. -/
theorem decAnswer_congr {s u : State} (dflt : Dec → Response) (body : Dec → Run Response) (hs : s.fatal = false)
    (hu : u.fatal = false) (hdec : s.dec = u.dec) :
    ∃ d r, decAnswer s dflt body = .next ((s.withDec d).withRsp r) ∧
      decAnswer u dflt body = .next ((u.withDec d).withRsp r) := by
  by_cases hok : u.dec.status = .okay
  case neg =>
    refine ⟨s.dec, _, decAnswer_gated s dflt body hs (hdec ▸ hok), ?_⟩
    rw [hdec]
    exact decAnswer_gated u dflt body hu hok
  case pos =>
    have hok' : s.dec.status = .okay := hdec ▸ hok
    cases hb : body u.dec with
    | ok d r => exact ⟨d, r, decAnswer_ok s dflt body hs hok' d r (hdec ▸ hb), decAnswer_ok u dflt body hu hok d r hb⟩
    | raised d =>
      exact ⟨d, dflt d, decAnswer_raised s dflt body hs hok' d (hdec ▸ hb), decAnswer_raised u dflt body hu hok d hb⟩

/-- A command of DEC that runs: what it makes of DEC, `DBITS` and `FATAL` and what it answers come from DEC, its
staging, `DBITS`, the ports and the parameters alone. -/
theorem exec_decCommand_congr {i : Instr} {s u : State} (hi : encCommand i = false) (hs : s.fatal = false)
    (hu : u.fatal = false) (hpar : s.par = u.par) (hports : s.ports = u.ports) (hepoch : s.epoch = u.epoch)
    (hdec : s.dec = u.dec) (hstg : s.dstg = u.dstg) (hmask : s.dmask = u.dmask) (hcode : s.dcode = u.dcode)
    (hdbits : s.dbits = u.dbits) :
    ∃ d bs b r, exec i s = .next ((((s.withDec d).withDbits bs).withFatal b).withRsp r) ∧
      exec i u = .next ((((u.withDec d).withDbits bs).withFatal b).withRsp r) := by
  -- a command that leaves `DBITS` and `FATAL` as they were
  have decOnly (h : ∃ d r, exec i s = .next ((s.withDec d).withRsp r) ∧ exec i u = .next ((u.withDec d).withRsp r)) :
      ∃ d bs b r, exec i s = .next ((((s.withDec d).withDbits bs).withFatal b).withRsp r) ∧
        exec i u = .next ((((u.withDec d).withDbits bs).withFatal b).withRsp r) := by
    obtain ⟨d, r, hes, heu⟩ := h
    refine ⟨d, s.dbits, s.fatal, r, hes, ?_⟩
    rw [hdbits, hs, ← hu]
    exact heu
  have hcodeBits := codeToBits_congr (s := s) (u := u) (by
    simp only [State.defaultDec, ← hstg, readCode_congr hepoch hcode])
  obtain ⟨hc2b, hc2bits⟩ := hcodeBits
  cases i with
  | dInit =>
    refine decOnly ⟨s.constructDec.dec, rspDone, exec_dInit s hs, ?_⟩
    rw [constructDec_dec_congr hepoch hstg hmask hcode]
    exact exec_dInit u hu
  | dRbit =>
    refine decOnly ?_
    rw [exec, exec, execDRbit, execDRbit]
    exact decAnswer_congr _ _ hs hu hdec
  | dRint sg =>
    refine decOnly ?_
    rw [exec, exec, execDRint, execDRint, hpar, hports]
    exact decAnswer_congr _ _ hs hu hdec
  | dRchk =>
    refine decOnly ?_
    rw [exec, exec, execDRchk, execDRchk]
    exact decAnswer_congr _ _ hs hu hdec
  | dRchkn =>
    refine decOnly ?_
    rw [exec, exec, execDRchkn, execDRchkn, hports]
    exact decAnswer_congr _ _ hs hu hdec
  | dFinish =>
    refine decOnly ?_
    rw [exec, exec, execDFinish, execDFinish]
    exact decAnswer_congr _ _ hs hu hdec
  | dC2b =>
    refine ⟨s.codeToBits.dec, s.codeToBits.dbits, s.fatal, _, exec_dC2b s hs, ?_⟩
    rw [← hc2b, ← hc2bits, hs, ← hu]
    exact exec_dC2b u hu
  | dAc2b =>
    refine ⟨s.codeToBits.dec, s.codeToBits.dbits, _, _, exec_dAc2b_withFatal s hs, ?_⟩
    rw [← hc2b, ← hc2bits]
    exact exec_dAc2b_withFatal u hu
  | eInit | eWbit | eWint | eWchk | eWchkn | eResult | eNchk => cases hi

/-- Settles O39: while `FATAL = 1` both states are answered `HALTED`; otherwise the command is a function of its own
unit (`exec_encCommand_congr`, `exec_decCommand_congr`). -/
theorem unitsDoNotInteract : Obligations.UnitsDoNotInteract := by
  constructor
  · intro i s u hi hpar hfatal hports hepoch henc hstg hmask
    cases hu : u.fatal with
    | true => exact ⟨_, _, exec_fatal i s (hfatal.trans hu), exec_fatal i u hu, henc, rfl, hfatal, rfl, rfl, rfl⟩
    | false =>
      obtain ⟨e, r, hes, heu⟩ :=
        exec_encCommand_congr hi (hfatal.trans hu) hu hpar hports hepoch henc hstg hmask
      exact ⟨_, _, hes, heu, rfl, rfl, hfatal, rfl, rfl, rfl⟩
  · intro i s u hi hpar hfatal hports hepoch hdec hstg hmask hcode hdbits
    cases hu : u.fatal with
    | true => exact ⟨_, _, exec_fatal i s (hfatal.trans hu), exec_fatal i u hu, hdec, rfl, hfatal, hdbits, rfl, rfl⟩
    | false =>
      obtain ⟨d, bs, b, r, hes, heu⟩ :=
        exec_decCommand_congr hi (hfatal.trans hu) hu hpar hports hepoch hdec hstg hmask hcode hdbits
      exact ⟨_, _, hes, heu, rfl, rfl, rfl, rfl, rfl, rfl⟩

/-! ## Staging registers -/

/-- Settles O40: the step is the staging write, which changes staging only. -/
theorem stagingWritesSpareInstances : Obligations.StagingWritesSpareInstances := by
  intro s t w rest hh ht
  rw [step_write s w rest hh] at ht
  rw [stagingWrite_frame _ t w ht]
  exact ⟨rfl, rfl, rfl, rfl, rfl, rfl⟩

/-- Which numbers are staging registers (10_state.md R40). -/
theorem stagingRegister_eq_false {num : Nat} (h : num ∉ [0x00, 0x01, 0x02, 0x10, 0x11, 0x12, 0x13]) :
    stagingRegister num = false :=
  decide_eq_false h

/-- A register write touches the staging register of its number alone (10_state.md R40). -/
theorem regWrite_regRead_other (s : State) (num data m : Nat) (h : m ≠ num) :
    (s.regWrite num data).regRead m = s.regRead m := by
  by_cases hnum : stagingRegister num = true
  case neg => rw [regWrite_ignored s num data (by simpa using hnum)]
  case pos =>
    have hcases : num ∈ [0x00, 0x01, 0x02, 0x10, 0x11, 0x12, 0x13] := of_decide_eq_true hnum
    simp only [List.mem_cons, List.not_mem_nil, or_false] at hcases
    obtain rfl | rfl | rfl | rfl | rfl | rfl | rfl := hcases
    all_goals
      unfold State.regRead
      split
      any_goals rfl
      exact absurd rfl h

/-- Settles O41: reads and writes by number, register by register. -/
theorem registersReadBack : Obligations.RegistersReadBack := by
  refine ⟨fun s => ⟨rfl, rfl, rfl, rfl, rfl, rfl, rfl, rfl, rfl, ?fatal⟩,
    fun s num data rest hh => step_write s _ rest hh,
    fun s num data => ⟨?frame, ?dpg, ?round, ?maskLen, ?codeLen, ?ignored, ?reserved,
      fun m hm => regWrite_regRead_other s num data m hm⟩⟩
  case fatal => exact (regRead_fatal s).trans (by cases s.fatal <;> rfl)
  case frame =>
    refine ⟨(s.regWrite num data).estg, (s.regWrite num data).dstg, ?_⟩
    exact regWrite_frame s num data
  case dpg =>
    rintro (rfl | rfl)
    · exact BitVec.toNat_ofNat data 7
    · exact BitVec.toNat_ofNat data 7
  case round =>
    rintro (rfl | rfl)
    · exact BitVec.toNat_ofNat data 2
    · exact BitVec.toNat_ofNat data 2
  case maskLen =>
    rintro (rfl | rfl)
    · rfl
    · rfl
  case codeLen =>
    rintro rfl
    rfl
  case ignored => exact fun h => regWrite_ignored s num data (stagingRegister_eq_false h)
  case reserved =>
    intro h
    unfold State.regRead
    split
    case h_11 => rfl
    all_goals simp at h

/-! ## Staging cells -/

/-- A mask cell read back after a mask cell is written (20_memory.md R60). -/
theorem maskCell_writeMaskCell (s : State) (u v : Side) (a a' : Nat) (b : Bool) :
    (s.writeMaskCell u a b).maskCell v a' = if v = u ∧ a' = a then b else s.maskCell v a' := by
  cases u <;> cases v
  case enc.enc | dec.dec =>
    by_cases ha : a' = a
    · simp [State.writeMaskCell, State.maskCell, ha, cellGet_cellSet_same]
    · simp [State.writeMaskCell, State.maskCell, ha, cellGet_cellSet_other]
  case enc.dec | dec.enc => rfl

/-- A code cell read back after a code cell is written (20_memory.md R60). -/
theorem codeCell_writeCodeCell (s : State) (a a' : Nat) (c : Chr) :
    (s.writeCodeCell a c).codeCell a' = if a' = a then c else s.codeCell a' := by
  by_cases ha : a' = a
  · simp [State.writeCodeCell, State.codeCell, ha, cellGet_cellSet_same]
  · simp [State.writeCodeCell, State.codeCell, ha, cellGet_cellSet_other]

theorem codeCell_writeMaskCell (s : State) (u : Side) (a a' : Nat) (b : Bool) :
    (s.writeMaskCell u a b).codeCell a' = s.codeCell a' := by
  cases u <;> rfl

theorem maskCell_writeCodeCell (s : State) (u : Side) (a a' : Nat) (c : Chr) :
    (s.writeCodeCell a c).maskCell u a' = s.maskCell u a' := by
  cases u <;> rfl

/-- A mask cell that exists is written (20_memory.md R60). -/
theorem stagingWrite_mask {s : State} {a : Nat} (u : Side) (b : Bool) (h : a < s.par.maskMax) :
    s.stagingWrite (.mask u a b) = .next (s.writeMaskCell u a b) := by
  simp [State.stagingWrite, State.maskCellExists, h]

/-- A code cell that exists is written (20_memory.md R60). -/
theorem stagingWrite_code {s : State} {a : Nat} (c : Chr) (h : a < s.par.codeMax) :
    s.stagingWrite (.code a c) = .next (s.writeCodeCell a c) := by
  simp [State.stagingWrite, State.codeCellExists, h]

/-- A mask cell that does not exist faults (log 9). -/
theorem stagingWrite_mask_missing {s : State} {a : Nat} (u : Side) (b : Bool) (h : s.par.maskMax ≤ a) :
    s.stagingWrite (.mask u a b) = .fault .noSuchMaskCell := by
  simp [State.stagingWrite, State.maskCellExists, Nat.not_lt.mpr h]

/-- A code cell that does not exist faults (log 9). -/
theorem stagingWrite_code_missing {s : State} {a : Nat} (c : Chr) (h : s.par.codeMax ≤ a) :
    s.stagingWrite (.code a c) = .fault .noSuchCodeCell := by
  simp [State.stagingWrite, State.codeCellExists, Nat.not_lt.mpr h]

/-- A read of a mask cell, existing or not, is served in one step. -/
theorem step_readMask (s : State) (u : Side) (a : Nat) (rest : List HostOp) (h : s.host = .readMask u a :: rest) :
    step s = if s.maskCellExists a then .next ((s.withHost rest).withRdata (s.maskCell u a).toNat)
      else .fault .noSuchMaskCell := by
  simp only [step, fetch, h]

/-- A read of a code cell, existing or not, is served in one step. -/
theorem step_readCode (s : State) (a : Nat) (rest : List HostOp) (h : s.host = .readCode a :: rest) :
    step s = if s.codeCellExists a then .next ((s.withHost rest).withRdata (s.codeCell a).toNat)
      else .fault .noSuchCodeCell := by
  simp only [step, fetch, h]

/-- Settles O43: a write sets one cell of one space (`maskCell_writeMaskCell`, `codeCell_writeCodeCell`), and a read
puts the cell on the bus. -/
theorem stagingCellsReadBack : Obligations.StagingCellsReadBack := by
  refine ⟨fun s u a b rest ha hh => ?mask, fun s a c rest ha hh => ?code, fun s u a rest ha hh => ?readMask,
    fun s a rest ha hh => ?readCode⟩
  case mask =>
    refine ⟨_, (step_write s _ rest hh).trans (stagingWrite_mask u b ha), ?_, fun u' a' hne => ?_, fun a' => ?_⟩
    · rw [maskCell_writeMaskCell, if_pos ⟨rfl, rfl⟩]
    · rw [maskCell_writeMaskCell, if_neg fun h => hne (Prod.ext h.1 h.2)]
      rfl
    · exact codeCell_writeMaskCell _ u a a' b
  case code =>
    refine ⟨_, (step_write s _ rest hh).trans (stagingWrite_code c ha), ?_, fun a' hne => ?_, fun u a' => ?_⟩
    · rw [codeCell_writeCodeCell, if_pos rfl]
    · rw [codeCell_writeCodeCell, if_neg hne]
      rfl
    · exact maskCell_writeCodeCell _ u a a' c
  case readMask =>
    rw [step_readMask s u a rest hh, State.maskCellExists, decide_eq_true ha, if_pos rfl]
    cases s.maskCell u a <;> rfl
  case readCode =>
    rw [step_readCode s a rest hh, State.codeCellExists, decide_eq_true ha, if_pos rfl]

/-- Settles O44: reads and writes alike fault outside the addresses of the space. -/
theorem missingCellsFault : Obligations.MissingCellsFault := by
  refine ⟨fun s u a rest ha hh => ?mask, fun s a rest ha hh => ?code⟩
  case mask =>
    obtain hread | ⟨b, hwrite⟩ := hh
    · rw [step_readMask s u a rest hread, State.maskCellExists, decide_eq_false (Nat.not_lt.mpr ha)]
      rfl
    · exact (step_write s _ rest hwrite).trans (stagingWrite_mask_missing u b ha)
  case code =>
    obtain hread | ⟨c, hwrite⟩ := hh
    · rw [step_readCode s a rest hread, State.codeCellExists, decide_eq_false (Nat.not_lt.mpr ha)]
      rfl
    · exact (step_write s _ rest hwrite).trans (stagingWrite_code_missing c ha)

/-! ## Host writes that overlap a command -/

/-- An overlapped command is accepted, or not, with its write when no response is pending (30_encoding.md R81). -/
theorem fetch_overlapped {s : State} {c : Command} {w : StagingWrite} {rest : List HostOp}
    (hh : s.host = .overlapped c w :: rest) (hr : s.rsp = none) : fetch s = s.acceptOverlapped c w rest := by
  simp [fetch, hh, State.cmdReady, hr]

/-- The construction commands by name (70_reset_and_hazards.md R250). -/
theorem constructs_eq_true_iff (i : Instr) : constructs i = true ↔ i ∈ [.eInit, .dInit, .dC2b, .dAc2b] := by
  cases i <;> simp [constructs]

theorem constructionWord_of_legal {w : CmdWord} {i : Instr} (h : legalInstr w = some i) :
    constructionWord w = constructs i := by
  simp [constructionWord, h]

theorem constructionWord_of_illegal {w : CmdWord} (h : legalInstr w = none) : constructionWord w = false := by
  simp [constructionWord, h]

/-- A write that faults, faults whatever command it overlaps: it does not land in staging (log 9). -/
theorem acceptOverlapped_fault (s : State) (c : Command) (w : StagingWrite) (rest : List HostOp) (r : Fault)
    (hw : s.landsInStaging w = false) (hf : (s.sampled c rest).stagingWrite w = .fault r) :
    s.acceptOverlapped c w rest = .served (.fault r) := by
  simp [State.acceptOverlapped, hw, hf]

section Overlapped

variable {s t : State} {c : Command} {w : StagingWrite} {rest : List HostOp} {i : Instr}

/-- An overlapped command whose write has its effect runs in the state the write leaves, if its word is legal. -/
theorem step_overlapped_runs (hr : s.rsp = none) (hh : s.host = .overlapped c w :: rest)
    (hd : decodeWord c.word = .ok i)
    (h : s.fatal = true ∨ constructionWord c.word = false ∨ s.landsInStaging w = false)
    (ht : (s.sampled c rest).stagingWrite w = .next t) : step s = exec i t :=
  step_accepted ((fetch_overlapped hh hr).trans (acceptOverlapped_accepted s t c w rest h ht))
    ((legalInstr_eq_some_iff_decodeWord _ i).mpr hd)

theorem constructionWord_eq_false (hd : decodeWord c.word = .ok i) (hi : i ∉ [.eInit, .dInit, .dC2b, .dAc2b]) :
    constructionWord c.word = false := by
  rw [constructionWord_of_legal ((legalInstr_eq_some_iff_decodeWord _ i).mpr hd), ← Bool.not_eq_true,
    constructs_eq_true_iff]
  exact hi

/-- A write of a staging register, or of a cell that exists, lands in staging (20_memory.md R60). -/
theorem landsInStaging_of_staging
    (h : (∃ num data, w = .reg num data ∧ num ∈ [0x00, 0x01, 0x02, 0x10, 0x11, 0x12, 0x13]) ∨
      (∃ u a b, w = .mask u a b ∧ a < s.par.maskMax) ∨ (∃ a ch, w = .code a ch ∧ a < s.par.codeMax)) :
    s.landsInStaging w = true := by
  obtain ⟨num, data, rfl, hnum⟩ | ⟨u, a, b, rfl, ha⟩ | ⟨a, ch, rfl, ha⟩ := h
  · exact decide_eq_true hnum
  · exact decide_eq_true ha
  · exact decide_eq_true ha

end Overlapped

/-- Settles O45: a write that lands in staging is refused for a construction that runs; any other write is made first
and the word is served in the state it leaves (`acceptOverlapped_accepted`), or faults with it. -/
theorem overlapRefusedOnlyForConstruction : Obligations.OverlapRefusedOnlyForConstruction := by
  refine ⟨?refused, ?ignored, ?register, ?mask, ?code, ?missing, ?noCommand⟩
  case refused =>
    intro s c w rest i hrun hr hh hd hi hw
    have hword : constructionWord c.word = true := by
      rw [constructionWord_of_legal ((legalInstr_eq_some_iff_decodeWord _ i).mpr hd), constructs_eq_true_iff]
      exact hi
    simp only [step, fetch_overlapped hh hr,
      acceptOverlapped_refused s c w rest hrun hword (landsInStaging_of_staging hw)]
  case ignored =>
    intro s c num data rest i hr hh hd hnum
    have hstg := stagingRegister_eq_false hnum
    refine step_overlapped_runs hr hh hd (.inr (.inr hstg)) ?_
    exact congrArg Host.Outcome.next (regWrite_ignored (s.sampled c rest) num data hstg)
  case register =>
    intro s c num data rest i hr hh hd hi
    exact step_overlapped_runs hr hh hd (.inr (.inl (constructionWord_eq_false hd hi))) rfl
  case mask =>
    intro s c u a b rest i hr hh hd hi ha
    exact step_overlapped_runs hr hh hd (.inr (.inl (constructionWord_eq_false hd hi))) (stagingWrite_mask u b ha)
  case code =>
    intro s c a ch rest i hr hh hd hi ha
    exact step_overlapped_runs hr hh hd (.inr (.inl (constructionWord_eq_false hd hi))) (stagingWrite_code ch ha)
  case missing =>
    intro s c w rest hr hh
    constructor
    · rintro ⟨u, a, b, rfl, ha⟩
      have hw : s.landsInStaging (.mask u a b) = false := decide_eq_false (Nat.not_lt.mpr ha)
      simp only [step, fetch_overlapped hh hr,
        acceptOverlapped_fault s c _ rest _ hw (stagingWrite_mask_missing u b ha)]
    · rintro ⟨a, ch, rfl, ha⟩
      have hw : s.landsInStaging (.code a ch) = false := decide_eq_false (Nat.not_lt.mpr ha)
      simp only [step, fetch_overlapped hh hr,
        acceptOverlapped_fault s c _ rest _ hw (stagingWrite_code_missing ch ha)]
  case noCommand =>
    intro s t c w rest hr hh ht
    have hfatal : t.fatal = s.fatal := (stagingWrite_sameUnits ht).fatal
    constructor
    · intro hf
      have haccept := acceptOverlapped_accepted s t c w rest (.inl hf) ht
      exact step_accepted_fatal s t c.word ((fetch_overlapped hh hr).trans haccept) (hfatal.trans hf)
    · intro hf hl
      have haccept := acceptOverlapped_accepted s t c w rest (.inr (.inl (constructionWord_of_illegal hl))) ht
      exact (step_accepted_illegal ((fetch_overlapped hh hr).trans haccept) hl).trans
        (answerIllegal_running t (hfatal.trans hf))

/-! ## Reset values -/

/-- In the reset state every register, of whatever number, reads 0 (10_state.md R46). -/
theorem reset_regRead (num : Nat) : State.reset.regRead num = 0 := by
  unfold State.regRead
  split <;> rfl

/-- Settles O47: the fields of the reset state, and its registers by number. -/
theorem resetValues : Obligations.ResetValues :=
  ⟨rfl, rfl, rfl, rfl, rfl, rfl, rfl, rfl, rfl, rfl, rfl, rfl, rfl, rfl, rfl, rfl, rfl, rfl, rfl, rfl, rfl, rfl, rfl,
    rfl, rfl, rfl, rfl, reset_regRead, rfl, rfl⟩

end Sys2Proof.Machine
